-- ==== Sys2Proof/Word.lean ====
section
/-! DEFINITION. The bit vectors of the block: bytes, window coordinates and request words
(spec/00_scope.md rules R17, R18). -/

namespace Sys2Proof

/-- One byte, 8 bits (R18). -/
abbrev Byte := BitVec 8

/-- A window coordinate operand, 16 bits unsigned (R17). -/
abbrev Half := BitVec 16

/-- A request word or a frame-buffer address, 32 bits (R17). -/
abbrev Word := BitVec 32

end Sys2Proof
end

