-- ==== Sys2Proof/Config.lean ====
section
/-! DEFINITION. What an implementation fixes (the OPEN parameters of spec/00_scope.md rules R12 to
R16) and the free values (spec/10_state.md rule R47). None of the constants declared `opaque` has
a body, so a claim holds for every value of it. -/

namespace Sys2Proof

/-- An electrical level of a pin (spec/40_framing.md R130, R136). -/
inductive Level where
  | low
  | high
  deriving DecidableEq, Repr, Inhabited

/-- One of the panel's two data-transmission channels (00 R25). -/
inductive Channel where
  | one
  | two
  deriving DecidableEq, Repr, Inhabited

/-- `GRAY_PASS_COUNT`, either `SHADES - 1` or `SHADES` (00 R16). -/
inductive PassCount where
  | seven
  | eight
  deriving DecidableEq, Repr, Inhabited

/-- A shipped LUT variant (00 R25, 20_memory.md R71). -/
inductive Variant where
  | full
  | quick
  | shade
  deriving DecidableEq, Repr, Inhabited

/-- One of the five tables of a variant, in transmission order (00 R11, 20 R71). -/
inductive Table where
  | vcom
  | ww
  | bw
  | wb
  | bb
  deriving DecidableEq, Repr, Inhabited

namespace Config

/-- The fields of `CMD` the source leaves open (10_state.md R48). The three codes it fixes are
constants in Machine/Operands.lean. -/
structure Codes where
  panelSetting : Byte
  powerOff : Byte
  powerOn : Byte
  boosterSoftStart : Byte
  deepSleep : Byte
  dtm1 : Byte
  dtm2 : Byte
  lutVcom : Byte
  lutWw : Byte
  lutBw : Byte
  lutWb : Byte
  lutBb : Byte
  pllControl : Byte
  vcomDataInterval : Byte
  resolutionSetting : Byte
  vcmDcSetting : Byte
  partialIn : Byte
  partialOut : Byte
  deriving DecidableEq, Repr, Inhabited

/-- `SEQDATA`, the fixed data bytes of Init and Sleep (00 R15). -/
structure SeqData where
  pwr : List Byte
  boost : List Byte
  panel : List Byte
  slpBorder : List Byte
  slpVcmdc : List Byte
  slpPanel : List Byte
  deriving DecidableEq, Repr, Inhabited

/-- The OPEN parameters (00 R12 to R16). `heavyCyclePred` is `HEAVY_CYCLE_NR - 1`, so that
`HEAVY_CYCLE_NR >= 1` holds by form (R12). `lutRom` gives the ROM byte at each address of the map
of 20_memory.md R71. -/
structure Params where
  codes : Codes
  seqData : SeqData
  heavyCyclePred : Nat
  lutRom : Nat → Byte
  busyActive : Level
  pwInOut : Bool
  pwTrailer : List Byte
  displayChannel : Channel
  grayChannel : Channel
  grayPassCount : PassCount
  deriving Inhabited

/-- The parameters of the machine. It has no body: nothing is known of them but their types. -/
opaque params : Params

/-- `FB_BASE`, the first address of the declared frame-buffer window after reset (20 R70). -/
opaque fbBase : Nat

/-- `FB_SIZE`, the number of addresses of that window after reset (20 R70). -/
opaque fbSize : Nat

/-- The free answer of a POLL, by the number of free POLL draws taken before it (10 R47, 93 I1). -/
opaque freeBusy : Nat → Bool

/-- The free answer of a BUSINIT, by the number of free BUSINIT draws taken before it (10 R47,
93 I4). -/
opaque freeInit : Nat → Bool

end Config

end Sys2Proof
end

