-- ==== Sys2Proof/Syntax.lean ====
section
/-! DEFINITION. The requests of the block, one constructor per row of spec/opcode_table.json
(spec/30_encoding.md rules R104, R105). Every operand has exactly the width of its field. -/

namespace Sys2Proof

/-- A decoded request. `null` is the header's NB bit, and `buf` the BUF word even where `null`
says it is not read (R104). -/
inductive Instr where
  /-- INIT m, n (41_lifecycle.md R150). -/
  | init (m n : Byte)
  /-- RESET (R151). -/
  | reset
  /-- SLEEP (R152). -/
  | sleep
  /-- WAKE m, n (R153). -/
  | wake (m n : Byte)
  /-- WAITIDLE (R154). -/
  | waitIdle
  /-- CLEAR (42_frame.md R170). -/
  | clear
  /-- SETWIN buf, x, y, w, h, ch (R171). -/
  | setWin (null : Bool) (ch : Byte) (x y w h : Half) (buf : Word)
  /-- DISPLAY buf (43_refresh.md R194). -/
  | display (null : Bool) (buf : Word)
  /-- QUICK (R195). -/
  | quick
  /-- HEALTHY and HEALTHY rst (R197). -/
  | healthy (rst : Bool)
  /-- SHADE p (R199). -/
  | shade (pass : Byte)
  /-- GRAY buf (44_grayscale.md R220). -/
  | gray (buf : Word)
  deriving DecidableEq, Repr

/-- A buffer operand as the assembler writes it: an address or `null` (30 R110). -/
inductive AsmBuf where
  | null
  | addr (a : Nat)
  deriving DecidableEq, Repr

/-- A line of the assembler syntax, with its operands still numbers, and the two
pseudo-requests (30 R110, R111). -/
inductive AsmLine where
  | init (m n : Nat)
  | reset
  | sleep
  | wake (m n : Nat)
  | waitIdle
  | clear
  | setWin (buf : AsmBuf) (x y w h ch : Nat)
  | display (buf : AsmBuf)
  | quick
  | healthy
  | healthyRst
  | shade (p : Nat)
  | gray (buf : Nat)
  /-- FULL is DISPLAY null (R111). -/
  | full
  /-- CLEARWIN is SETWIN null (R111). -/
  | clearWin (x y w h ch : Nat)
  deriving DecidableEq, Repr

end Sys2Proof
end

