-- ==== Sys2Proof/Machine/State.lean ====
section
/-! DEFINITION. The state of the block (spec/10_state.md), the actions it emits
(spec/40_framing.md R130), the micro-operations an expansion is made of (R21 of
spec/00_scope.md), and the reasons a run can stop (spec/60_exceptions.md R255). -/

namespace Sys2Proof.Machine

/-- The lifecycle state S.LIFE (10 R38). -/
inductive Life where
  | uninit
  | active
  | asleep
  | resetting
  deriving DecidableEq, Repr

/-- The LUT set last transmitted, S.LASTLUT (10 R42). -/
inductive LutTag where
  | none
  | full
  | quick
  | healthyStrong
  | healthyWeak
  | shade
  deriving DecidableEq, Repr

/-- An event on the bus action port, with its answer (40 R130). -/
inductive Action where
  /-- `CMD(c)`, one command byte. -/
  | cmd (c : Byte)
  /-- `DAT(d)`, one data byte. -/
  | dat (d : Byte)
  /-- `PIN(RST, l)`, drive the panel reset pin. -/
  | pin (l : Level)
  /-- `DELAY(n)`, a blocking wait of n milliseconds. -/
  | delay (n : Nat)
  /-- `POLL`, answered with the busy Bool. -/
  | poll (busy : Bool)
  /-- `BUSINIT`, answered with the ok Bool. -/
  | busInit (ok : Bool)
  deriving DecidableEq, Repr

/-- A set of send-time overrides (43_refresh.md R191 to R193). -/
inductive Overrides where
  /-- No override. -/
  | none
  /-- `OV_STRONG`. -/
  | strong
  /-- `OV_WEAK`. -/
  | weak
  /-- `OV_SHADE(pass)`. -/
  | shade (pass : Nat)
  deriving DecidableEq, Repr

/-- One micro-operation of an expansion. An expansion is a request's pseudocode read as a straight
list with its loops unrolled (10 R32); what each one does is `runMicro` of Machine/Ops.lean. -/
inductive Micro where
  /-- `SendCommand(c)` outside an Init sub-sequence (40 R132). -/
  | cmd (c : Byte)
  /-- `SendCommand(c)` inside an Init sub-sequence (70 R284). -/
  | initCmd (c : Byte)
  /-- `SendData(d)` for each byte of the list (40 R133). -/
  | dat (ds : List Byte)
  /-- `SendData(MemRead(a + i, 1))` for i below n (20 R75). -/
  | frame (a n : Nat)
  /-- The data bytes of one LUT table, overrides applied (45 R241). -/
  | lut (v : Variant) (t : Table) (ov : Overrides)
  /-- Fill the scratch row with the packed bytes of the source row at address a (44 R223). -/
  | pack (a threshold : Nat)
  /-- `SendData(r[i])` for each byte of the scratch row (42 R173). -/
  | row
  /-- `DELAY(n)` (40 R135). -/
  | delay (n : Nat)
  /-- `ok <- BUSINIT` (40 R138). -/
  | busInit
  /-- `WaitBusy` (40 R134). -/
  | waitBusy
  /-- The whole reset sub-sequence, which has no hold (41 R151). -/
  | resetSeq
  /-- The store of (M, N) and the LIFE write of an Init sub-sequence (41 R150). -/
  | storeCoeffs (m n : Byte)
  /-- `S.LIFE <- ASLEEP` (41 R152). -/
  | fallAsleep
  /-- The check of the shade LUT's clock (70 R287). -/
  | shadeClock
  /-- `S.LASTLUT <- tag` (45 R242). -/
  | tagLut (t : LutTag)
  /-- `S.WCC <- (S.WCC + 1) mod HEAVY_CYCLE_NR` (43 R197). -/
  | advanceWcc
  /-- `S.MAYBE_BUSY <- 1` (43 R190). -/
  | markBusy
  /-- The operation, if the request's last BUSINIT answered ok (or it had none): the body of
  `if ok` in 41 R150 and 44 R220. -/
  | ifUp (op : Micro)
  deriving DecidableEq, Repr

/-- The sequencer position S.SEQ (10 R32). -/
inductive Seq where
  | idle
  /-- The request being executed and the index of its next action. -/
  | run (req : Instr) (k : Nat)
  deriving DecidableEq, Repr

/-- The model's fault reasons (60 R255). A fault marks a point where the model has no meaning for
what the block was asked to do (R254), so it is safe. -/
inductive Fault where
  /-- Raised by GRAY starting while MN_VALID = 0. Safe: the spec gives no value to restore. -/
  | unsetCoefficients
  /-- Raised by DISPLAY, SETWIN and GRAY reading the frame-buffer address `a` outside the window.
  Safe: a read of unowned memory has no meaning in the source. -/
  | fbOutOfRange (a : Nat)
  /-- A LUT read past the end of a table. No rule raises it and no run reaches it (20 R72). Safe. -/
  | lutIndex (v : Variant) (t : Table) (i : Nat)
  deriving DecidableEq, Repr

/-- Why the model refuses an instruction. No arm of `exec` uses it: every request has its
meaning. -/
inductive Refusal where
  /-- Raised by an arm of `exec` whose instruction has no meaning yet. Safe: the run stops. -/
  | notModelled (mnemonic : String)
  deriving DecidableEq, Repr

/-- The state of one block, its ports included. -/
@[ext]
structure State where
  /-- S.SEQ (10 R32). -/
  seq : Seq
  /-- What remains of the running request's expansion from S.SEQ's k on; empty when IDLE. -/
  todo : List Micro
  /-- The local `ok` of the pseudocode's Init sub-sequence: the request's last BUSINIT answer. -/
  busOk : Bool
  /-- The local `ok` of INIT, WAKE and GRAY: no BUSINIT of the request failed. -/
  reqOk : Bool
  /-- S.M (10 R34). -/
  m : Byte
  /-- S.N (10 R35). -/
  n : Byte
  /-- S.MN_VALID (10 R36). -/
  mnValid : Bool
  /-- S.WCC (10 R37). -/
  wcc : Nat
  /-- S.LIFE (10 R38). -/
  life : Life
  /-- S.STATUS (10 R39). -/
  status : Byte
  /-- S.PV (10 R40). -/
  pv : Bool
  /-- S.MAYBE_BUSY (10 R41). -/
  maybeBusy : Bool
  /-- S.LASTLUT (10 R42). -/
  lastLut : LutTag
  /-- S.FAULT (10 R43). -/
  fault : Option Fault
  /-- GRAY's scratch row (44 R223). -/
  scratch : Vector Byte 50
  /-- The bytes of the frame-buffer space (20 R70, R74), in canonical form. -/
  fb : List Host.Cell
  /-- FB_BASE (20 R70). -/
  fbBase : Nat
  /-- FB_SIZE (20 R70). -/
  fbSize : Nat
  /-- REQ: the words presented and not yet accepted, oldest first (10 R46). -/
  req : List Word
  /-- RSP: the statuses returned, oldest first (10 R46). -/
  rsp : List Byte
  /-- BUS: the actions emitted, oldest first (10 R46, 40 R130). -/
  trace : List Action
  /-- The headers of the events `raise Illegal(h)`, oldest first (60 R251). -/
  raised : List Word
  /-- The POLL answers the panel has listed, oldest first (10 R47). The model's own field. -/
  pollIn : List Bool
  /-- The BUSINIT answers the platform has listed, oldest first (10 R47). The model's own field. -/
  initIn : List Bool
  /-- The number of free POLL draws taken (10 R47). The model's own field. -/
  pollDraws : Nat
  /-- The number of free BUSINIT draws taken (10 R47). The model's own field. -/
  initDraws : Nat
  deriving DecidableEq, Repr

/-- The block right after its reset (10 R52, 70 R280). M and N are unset: their values are named in
log 6, the scratch row's in log 7. The window is a parameter (log 4), no buffer is placed (log 5),
and no answer is listed, so every answer is a free draw (log 2). -/
def State.reset : State where
  seq := .idle
  todo := []
  busOk := true
  reqOk := true
  m := 0
  n := 0
  mnValid := false
  wcc := 0
  life := .uninit
  status := 0x00
  pv := false
  maybeBusy := false
  lastLut := .none
  fault := none
  scratch := Vector.replicate 50 0
  fb := []
  fbBase := Config.fbBase
  fbSize := Config.fbSize
  req := []
  rsp := []
  trace := []
  raised := []
  pollIn := []
  initIn := []
  pollDraws := 0
  initDraws := 0

end Sys2Proof.Machine
end

