-- ==== Sys2Proof/Machine/Operands.lean ====
section
/-! DEFINITION. The constants of the block and every computation on operands the spec gives:
integer to byte conversion, the PLL byte, window bounds, override values, thresholds and bit
packing, and the LUT ROM map. -/

namespace Sys2Proof.Machine

/-! ## Constants -/

/-- `WIDTH`, in pixels (00_scope.md R9). -/
def width : Nat := 400
/-- `HEIGHT`, in pixels (R9). -/
def height : Nat := 300
/-- `SHADES` (R10). -/
def shades : Nat := 8
/-- `FRAME_BYTES`, one frame at 1 bit per pixel (R9). -/
def frameBytes : Nat := width / 8 * height

/-- `CMD.POWER_SETTING`, fixed by the source (10_state.md R48). -/
def cmdPowerSetting : Byte := 0x01
/-- `CMD.DISPLAY_REFRESH`, fixed by the source (R48). -/
def cmdDisplayRefresh : Byte := 0x12
/-- `CMD.PARTIAL_WINDOW`, fixed by the source (R48). -/
def cmdPartialWindow : Byte := 0x90
/-- `DEEP_SLEEP_CHECK` (R48, 70 R293). -/
def deepSleepCheck : Byte := 0xA5

/-- Status OK (60_exceptions.md R250). -/
def statusOk : Byte := 0x00
/-- Status INIT_ERROR (R250). -/
def statusInitError : Byte := 0xFF
/-- Status ILLEGAL (R250). -/
def statusIllegal : Byte := 0xFE

/-- The 2-bit encoding of LIFE (10 R38). -/
def lifeCode : Life → BitVec 2
  | .uninit => 0
  | .active => 1
  | .asleep => 2
  | .resetting => 3

/-- `HEAVY_CYCLE_NR`, at least 1 (00 R12). -/
def heavyCycleNr (P : Config.Params) : Nat := P.heavyCyclePred + 1

/-- `GRAY_PASS_COUNT` as a number (00 R16). -/
def passCount (P : Config.Params) : Nat :=
  match P.grayPassCount with
  | .seven => shades - 1
  | .eight => shades

/-- The data-transmission command of a channel (42 R173). -/
def channelCmd (P : Config.Params) : Channel → Byte
  | .one => P.codes.dtm1
  | .two => P.codes.dtm2

/-! ## Integers and bytes (R18) -/

/-- `byte(v) = v mod 256`, two's complement for a negative v. -/
def byteOf (v : Int) : Byte := BitVec.ofInt 8 v
/-- `hi8(v) = byte(floor(v / 256))`. -/
def hi8 (v : Int) : Byte := byteOf (v / 256)
/-- `lo8(v) = byte(v)`. -/
def lo8 (v : Int) : Byte := byteOf v
/-- `v | 0x07` on the two's-complement form of an integer (42 R172). -/
def orSeven (v : Int) : Int := v / 8 * 8 + 7

/-! ## Lifecycle -/

/-- The PLL byte (41_lifecycle.md R155). -/
def pll (m n : Byte) : Byte := 0x3F &&& (((m <<< 3) &&& 0x38) ||| (n &&& 0x07))

/-! ## Windows (42_frame.md) -/

/-- `x & 0xF8` on the integer x, which keeps its bits 7 to 3 (R172). -/
def startColumn (x : Nat) : Nat := x % 256 / 8 * 8
/-- The end column `((x & 0xF8) + w - 1) | 0x07`, an integer that may be negative (R172). -/
def endColumn (x w : Nat) : Int := orSeven (startColumn x + w - 1)
/-- The end row `y + h - 1` (R172). -/
def endRow (y h : Nat) : Int := y + h - 1

/-- The eight window bound bytes (R172). -/
def winBytes (x y w h : Nat) : List Byte :=
  [hi8 x, lo8 (startColumn x), hi8 (endColumn x w), lo8 (endColumn x w),
    hi8 y, lo8 y, hi8 (endRow y h), lo8 (endRow y h)]

/-- The number of data bytes of a window, `(w / 8) * h` truncating (R173). -/
def winCount (w h : Nat) : Nat := w / 8 * h

/-- SETWIN's channel operand: 1 selects channel 1, any other value channel 2 (30 R104). -/
def channelOf (ch : Byte) : Channel := if ch = 1 then .one else .two

/-! ## Grayscale (44_grayscale.md) -/

/-- The threshold of pass p (R221). -/
def threshold (p : Nat) : Nat := 255 - 255 * (p + 1) / shades

/-- A list of bits as a number, the first one most significant. -/
def bitsToNat (bs : List Bool) : Nat := bs.foldl (fun acc b => 2 * acc + b.toNat) 0

/-- `pack8`: eight samples to one byte, bit 7 for the first; a set bit for a sample below the
threshold (R222). -/
def pack8 (t : Nat) (samples : List Byte) : Byte :=
  BitVec.ofNat 8 (bitsToNat (samples.map fun s => decide (s.toNat < t)))

/-! ## Look-up tables -/

/-- The five tables in transmission order (45_lut_transmission.md R240). -/
def tables : List Table := [.vcom, .ww, .bw, .wb, .bb]

/-- `LUT_LEN` (00 R11). -/
def lutLen : Table → Nat
  | .vcom => 44
  | .ww => 42
  | .bw => 42
  | .wb => 42
  | .bb => 42

/-- `OFF`, a table's offset within its variant (20 R71). -/
def lutOff : Table → Nat
  | .vcom => 0
  | .ww => 44
  | .bw => 86
  | .wb => 128
  | .bb => 170

/-- The number of a variant (20 R71). -/
def variantNr : Variant → Nat
  | .full => 0
  | .quick => 1
  | .shade => 2

/-- The ROM address of byte i of a table (20 R71). -/
def romAddr (v : Variant) (t : Table) (i : Nat) : Nat := 212 * variantNr v + lutOff t + i

/-- `LutRead(v, t, i)` (20 R72). -/
def lutRead (P : Config.Params) (v : Variant) (t : Table) (i : Nat) : Except Fault Byte :=
  if i < lutLen t then .ok (P.lutRom (romAddr v t i)) else .error (.lutIndex v t i)

/-- `LUTCMD`, the command that prefixes a table (45 R240). -/
def lutCmd (P : Config.Params) : Table → Byte
  | .vcom => P.codes.lutVcom
  | .ww => P.codes.lutWw
  | .bw => P.codes.lutBw
  | .wb => P.codes.lutWb
  | .bb => P.codes.lutBb

/-- The shade override value `byte(2 + 15*pass/(SHADES-1))` (43 R193). -/
def shadeValue (pass : Nat) : Byte := BitVec.ofNat 8 (2 + 15 * pass / (shades - 1))

/-- The repeat-count byte `OV_STRONG` puts at offset 5 (43 R192). -/
def strongRepeat : Table → Byte
  | .vcom => 1
  | .ww => 1
  | .bw => 2
  | .wb => 2
  | .bb => 1

/-- The repeat-count byte `OV_WEAK` puts at offset 5 (43 R192). -/
def weakRepeat : Table → Byte
  | .vcom => 1
  | .ww => 0
  | .bw => 2
  | .wb => 2
  | .bb => 0

/-- The byte b with `(t, i, b)` in the override set, if there is one (43 R192, R193). -/
def overrideAt (ov : Overrides) (t : Table) (i : Nat) : Option Byte :=
  match ov with
  | .none => none
  | .strong => if i = 5 then some (strongRepeat t) else none
  | .weak => if i = 5 then some (weakRepeat t) else none
  | .shade pass => if t = .bb ∧ (i = 1 ∨ i = 2) then some (shadeValue pass) else none

/-- The i-th data byte SendLut sends of a table: the override, else the ROM byte (45 R241). -/
def lutByte (P : Config.Params) (v : Variant) (t : Table) (ov : Overrides) (i : Nat) :
    Except Fault Byte :=
  match overrideAt ov t i with
  | some b => .ok b
  | none => lutRead P v t i

/-- The ghost tag of a LUT set (45 R242). -/
def lutTag (v : Variant) (ov : Overrides) : LutTag :=
  match v with
  | .full => .full
  | .shade => .shade
  | .quick =>
    match ov with
    | .strong => .healthyStrong
    | .weak => .healthyWeak
    | .none => .quick
    | .shade _ => .quick

end Sys2Proof.Machine
end

