-- ==== Sys2Proof/Machine/Flags.lean ====
section
/-! DEFINITION. The block has no arithmetic flags. Its marks are computed here: the
precondition-violation conditions of spec/70_reset_and_hazards.md (R284 to R292), the lifecycle
transition of a successful Init (10_state.md R51), the pass choice of the weak-cycle counter
(43_refresh.md R196) and the completion status (60_exceptions.md R250). -/

namespace Sys2Proof.Machine

/-- Emitting a command violates a precondition: the panel may be busy (R285), is asleep (R288,
inside an Init sub-sequence too), or is uninitialised and the command is not Init's own (R284). -/
def commandHazard (inInit : Bool) (s : State) : Bool :=
  s.maybeBusy || s.life == .asleep || (s.life == .uninit && !inInit)

/-- `(S.M, S.N) = (5, 1)`, on all 8 bits of each, and set (R287). -/
def atShadeClock (s : State) : Bool := s.mnValid && s.m == 5 && s.n == 1

/-- The validity predicate of a window (R289). -/
def windowValid (x y w h : Nat) : Bool :=
  x % 8 == 0 && decide (0 < w) && decide (0 < h) && w % 8 == 0 &&
    decide (x + w ≤ width) && decide (y + h ≤ height)

/-- A SETWIN starting with these operands violates a precondition (R289, R290). -/
def windowHazard (x y w h : Nat) : Bool := !windowValid x y w h || decide (256 ≤ x)

/-- A SHADE with this pass index violates a precondition (R291). -/
def passHazard (pass : Nat) : Bool := decide (shades ≤ pass)

/-- LIFE after a successful Init sub-sequence (10 R51, 41 R150). -/
def lifeAfterInit : Life → Life
  | .asleep => .asleep
  | .uninit => .active
  | .active => .active
  | .resetting => .active

/-- The pass a HEALTHY request sends is strong (43 R196). -/
def strongPass (wcc : Nat) : Bool := wcc == 0

/-- The counter after a HEALTHY request that read `wcc` (43 R196). -/
def nextWcc (cycle wcc : Nat) : Nat := (wcc + 1) % cycle

/-- The status a legal request completes with (60 R250, R252). -/
def completionStatus (ok : Bool) : Byte := if ok then statusOk else statusInitError

end Sys2Proof.Machine
end

