-- ==== Sys2Proof/Machine/Ops.lean ====
section
/-! DEFINITION. The named operations over the state: the frame-buffer memory
(spec/20_memory.md), the emission of actions (spec/40_framing.md), the micro-operations, the run of
an expansion up to a hold, a fault or its end (10_state.md R32), and the outcomes of
spec/60_exceptions.md. The block has no trap mechanism (60 R259), so there is no exception entry or
return here; `recordFault`, `complete` and `raiseIllegal` are its only ends of a request. -/

namespace Sys2Proof.Machine

/-! ## The frame-buffer memory -/

/-- What an address the host has placed no byte at reads as (log 5). -/
def unplacedByte : Byte := 0x00

/-- The byte at an address of a canonical list. -/
def memGet : List Host.Cell → Nat → Byte
  | [], _ => unplacedByte
  | (a, b) :: rest, x => if x = a then b else memGet rest x

/-- Put a byte at an address, keeping the canonical form. This is the host's operation: the block
writes no memory (20 R73). -/
def memPut : List Host.Cell → Nat → Byte → List Host.Cell
  | [], x, v => if v = unplacedByte then [] else [(x, v)]
  | (a, b) :: rest, x, v =>
    if x < a then
      (if v = unplacedByte then (a, b) :: rest else (x, v) :: (a, b) :: rest)
    else if x = a then
      (if v = unplacedByte then rest else (x, v) :: rest)
    else (a, b) :: memPut rest x v

/-- Every address of the list is above `lo`. -/
def memAbove (lo : Nat) : List Host.Cell → Bool
  | [] => true
  | (a, _) :: _ => decide (lo < a)

/-- The canonical form: addresses strictly rising, no entry equal to what an unlisted address
reads as. -/
def memWf : List Host.Cell → Bool
  | [] => true
  | (a, b) :: rest => b != unplacedByte && memAbove a rest && memWf rest

/-- An address is inside the declared window, and below 2^32 (20 R70). -/
def inWindow (s : State) (a : Nat) : Bool :=
  decide (s.fbBase ≤ a) && decide (a < s.fbBase + s.fbSize) && decide (a < 2 ^ 32)

/-- `MemRead(a, 1)` (20 R70, R74). -/
def memRead (s : State) (a : Nat) : Except Fault Byte :=
  if inWindow s a then .ok (memGet s.fb a) else .error (.fbOutOfRange a)

/-! ## Emission -/

/-- The position after n more actions (10 R32). -/
def seqAdvance (n : Nat) : Seq → Seq
  | .idle => .idle
  | .run req k => .run req (k + n)

/-- Emit actions on BUS, in order; each advances k by one (10 R32, 20 R82). -/
def emit (acts : List Action) (s : State) : State :=
  { s with trace := s.trace ++ acts, seq := seqAdvance acts.length s.seq }

/-- Set the PV mark if the condition holds; nothing clears it (10 R40, 70 R292). -/
def markPv (hazard : Bool) (s : State) : State := { s with pv := s.pv || hazard }

/-- `SendCommand(c)` (40 R132), with the PV conditions of a command. -/
def sendCommand (inInit : Bool) (c : Byte) (s : State) : State :=
  emit [.cmd c] (markPv (commandHazard inInit s) s)

/-- `SendData` of each byte in list order (40 R133). -/
def sendData (ds : List Byte) (s : State) : State := emit (ds.map .dat) s

/-- Record a fault: the first reason stays (60 R254, 10 R43). -/
def recordFault (r : Fault) (s : State) : State :=
  { s with fault := match s.fault with | none => some r | some first => some first }

/-! ## Answers (10 R47) -/

/-- A listed answer, else a free draw: the answer, the answers left and the draws taken. -/
def nextAnswer (free : Nat → Bool) (listed : List Bool) (draws : Nat) : Bool × List Bool × Nat :=
  match listed with
  | b :: rest => (b, rest, draws)
  | [] => (free draws, [], draws + 1)

/-- `ok <- BUSINIT` (40 R138), kept in the request's locals. -/
def busInitOp (s : State) : State :=
  let a := nextAnswer Config.freeInit s.initIn s.initDraws
  emit [.busInit a.1]
    { s with initIn := a.2.1, initDraws := a.2.2, busOk := a.1, reqOk := s.reqOk && a.1 }

/-! ## The result of a micro-operation and of a run -/

/-- How a micro-operation ends. -/
inductive MicroEnd where
  /-- It is done. -/
  | go (s : State)
  /-- WaitBusy has polled busy and goes on at the next step (60 R258). -/
  | hold (s : State)
  /-- A fault: the sequencer stops (60 R254). -/
  | stop (s : State)

/-- How the run of an expansion ends; `todo` is what is left of it. -/
inductive RunEnd where
  | done (s : State)
  | held (s : State) (todo : List Micro)
  | stopped (s : State) (todo : List Micro)

/-! ## Micro-operations -/

/-- The end of WaitBusy: `S.MAYBE_BUSY <- 0` (40 R134, 10 R41). -/
def panelIdle (s : State) : State := { s with maybeBusy := false }

/-- `WaitBusy` (40 R134). Listed answers are polled through at once. When none is left each answer
is a free draw, and a busy draw ends the step, so a run that polls busy for ever is an infinite run
(60 R258). Each poll and delay advances the position (log 24). -/
def waitBusy : List Bool → State → MicroEnd
  | [], s =>
    if Config.freeBusy s.pollDraws then
      .hold (emit [.poll true, .delay 1] { s with pollIn := [], pollDraws := s.pollDraws + 1 })
    else .go (panelIdle (emit [.poll false] { s with pollIn := [], pollDraws := s.pollDraws + 1 }))
  | true :: rest, s => waitBusy rest (emit [.poll true, .delay 1] s)
  | false :: rest, s => .go (panelIdle (emit [.poll false] { s with pollIn := rest }))

/-- Send each byte read, in order. A read that faults stops the sequencer with the bytes before it
sent (60 R255). -/
def sendReads : List (Except Fault Byte) → State → MicroEnd
  | [], s => .go s
  | .ok b :: rest, s => sendReads rest (sendData [b] s)
  | .error r :: _, s => .stop (recordFault r s)

/-- All values read, or the first fault. -/
def gather : List (Except Fault Byte) → Except Fault (List Byte)
  | [] => .ok []
  | .ok b :: rest =>
    match gather rest with
    | .ok bs => .ok (b :: bs)
    | .error r => .error r
  | .error r :: _ => .error r

/-- The eight samples of group g of the source row at address a (44 R223). -/
def groupSamples (s : State) (a g : Nat) : Except Fault (List Byte) :=
  gather ((List.range 8).map fun i => memRead s (a + 8 * g + i))

/-- `r[g] <- pack8(T, ...)` for each group, left to right (44 R223, R224). -/
def packGroups (a t : Nat) : List Nat → State → MicroEnd
  | [], s => .go s
  | g :: gs, s =>
    match groupSamples s a g with
    | .ok samples =>
      packGroups a t gs { s with scratch := s.scratch.setIfInBounds g (pack8 t samples) }
    | .error r => .stop (recordFault r s)

/-- The reset sub-sequence (41 R151). RESETTING is passed through inside it. -/
def resetOp (s : State) : State :=
  let s := { s with life := .resetting }
  let s := emit [.pin .low, .delay 200, .pin .high, .delay 200] s
  { s with life := .uninit, maybeBusy := false, lastLut := .none }

/-- The store of an Init sub-sequence (41 R150). -/
def storeCoeffsOp (m n : Byte) (s : State) : State :=
  { s with m := m, n := n, mnValid := true, life := lifeAfterInit s.life }

/-- What one micro-operation does. -/
def runMicro (P : Config.Params) : Micro → State → MicroEnd
  | .cmd c, s => .go (sendCommand false c s)
  | .initCmd c, s => .go (sendCommand true c s)
  | .dat ds, s => .go (sendData ds s)
  | .frame a n, s => sendReads ((List.range n).map fun i => memRead s (a + i)) s
  | .lut v t ov, s => sendReads ((List.range (lutLen t)).map (lutByte P v t ov)) s
  | .pack a t, s => packGroups a t (List.range (width / 8)) s
  | .row, s => .go (sendData s.scratch.toList s)
  | .delay n, s => .go (emit [.delay n] s)
  | .busInit, s => .go (busInitOp s)
  | .waitBusy, s => waitBusy s.pollIn s
  | .resetSeq, s => .go (resetOp s)
  | .storeCoeffs m n, s => .go (storeCoeffsOp m n s)
  | .fallAsleep, s => .go { s with life := .asleep }
  | .shadeClock, s => .go (markPv (!atShadeClock s) s)
  | .tagLut t, s => .go { s with lastLut := t }
  | .advanceWcc, s => .go { s with wcc := nextWcc (heavyCycleNr P) s.wcc }
  | .markBusy, s => .go { s with maybeBusy := true }
  | .ifUp op, s => if s.busOk then runMicro P op s else .go s

/-- Run an expansion until its end, a hold or a fault. -/
def runMicros (P : Config.Params) : List Micro → State → RunEnd
  | [], s => .done s
  | op :: rest, s =>
    match runMicro P op s with
    | .go s' => runMicros P rest s'
    | .hold s' => .held s' (op :: rest)
    | .stop s' => .stopped s' (op :: rest)

/-! ## The ends of a request -/

/-- The expansion is exhausted: write STATUS, return it on RSP, SEQ <- IDLE (10 R32, 60 R250). -/
def complete (s : State) : State :=
  { s with
    status := completionStatus s.reqOk
    rsp := s.rsp ++ [completionStatus s.reqOk]
    seq := .idle, todo := [], busOk := true, reqOk := true }

/-- The state a run leaves: completed, held, or stopped with no status (60 R254, R258). -/
def settle : RunEnd → State
  | .done s => complete s
  | .held s todo => { s with todo := todo }
  | .stopped s todo => { s with todo := todo }

/-- Take up a request: S.SEQ is its first position, and its locals start true (10 R32). -/
def takeUp (i : Instr) (s : State) : State :=
  { s with seq := .run i 0, todo := [], busOk := true, reqOk := true }

/-- Start a request with its expansion and run it. -/
def startRequest (P : Config.Params) (i : Instr) (expansion : List Micro) (s : State) : State :=
  settle (runMicros P expansion (takeUp i s))

/-- Go on with the request in flight. -/
def resume (P : Config.Params) (s : State) : State := settle (runMicros P s.todo s)

/-- A request that faults before its first action (60 R255, R256). -/
def faultAtStart (r : Fault) (i : Instr) (s : State) : State := recordFault r (takeUp i s)

/-- `raise Illegal(h)`: no action, STATUS <- ILLEGAL, returned on RSP (30 R107, 60 R251). -/
def raiseIllegal (h : Word) (s : State) : State :=
  { s with status := statusIllegal, rsp := s.rsp ++ [statusIllegal], raised := s.raised ++ [h] }

/-- A read of `(S.M, S.N)` for control: unset coefficients are a fault (10 R34, R35). -/
def readCoeffs (s : State) : Except Fault (Byte × Byte) :=
  if s.mnValid then .ok (s.m, s.n) else .error .unsetCoefficients

/-! ## Expansions every family uses -/

/-- `Send(c, ds)` (40 R133). -/
def send (c : Byte) (ds : List Byte) : List Micro := [.cmd c, .dat ds]

/-- `Send(c, ds)` inside an Init sub-sequence. -/
def initSend (c : Byte) (ds : List Byte) : List Micro := [.initCmd c, .dat ds]

end Sys2Proof.Machine
end

