-- ==== Sys2Proof/Machine/Frame.lean ====
section
/-! DEFINITION. The frame and window requests CLEAR and SETWIN (spec/42_frame.md). -/

namespace Sys2Proof.Machine

/-- One channel filled with white (R170). -/
def fillWhite (c : Byte) : List Micro := send c (List.replicate frameBytes 0xFF)

/-- The four resolution bytes, big-endian (R170, 20_memory.md R77). -/
def resolutionBytes : List Byte := [hi8 width, lo8 width, hi8 height, lo8 height]

/-- The expansion of CLEAR: channel 1 first (R170). -/
def clearExpansion (P : Config.Params) : List Micro :=
  send P.codes.resolutionSetting resolutionBytes ++ fillWhite P.codes.dtm1 ++ fillWhite P.codes.dtm2

/-- The window sub-sequence around its data micro-operation (R173). -/
def winSeq (P : Config.Params) (data : Micro) (x y w h : Nat) (ch : Channel) : List Micro :=
  (if P.pwInOut then [.cmd P.codes.partialIn] else []) ++
  send cmdPartialWindow (winBytes x y w h ++ P.pwTrailer) ++
  [.cmd (channelCmd P ch), data] ++
  (if P.pwInOut then [.cmd P.codes.partialOut] else [])

/-- The data of a SETWIN: zeros for a null buffer, else the frame buffer's bytes (R173). -/
def winData (null : Bool) (buf count : Nat) : Micro :=
  if null then .dat (List.replicate count 0x00) else .frame buf count

/-- The expansion of SETWIN (R171). -/
def setWinExpansion (P : Config.Params) (null : Bool) (ch : Byte) (x y w h : Half) (buf : Word) :
    List Micro :=
  winSeq P (winData null buf.toNat (winCount w.toNat h.toNat)) x.toNat y.toNat w.toNat h.toNat
    (channelOf ch)

/-- CLEAR (R170). -/
def runClear (P : Config.Params) (s : State) : State := startRequest P .clear (clearExpansion P) s

/-- SETWIN (R171); its geometry sets PV when it starts (70 R289, R290). -/
def runSetWin (P : Config.Params) (null : Bool) (ch : Byte) (x y w h : Half) (buf : Word)
    (s : State) : State :=
  startRequest P (.setWin null ch x y w h buf) (setWinExpansion P null ch x y w h buf)
    (markPv (windowHazard x.toNat y.toNat w.toNat h.toNat) s)

/-- The meaning of CLEAR. -/
def execClear (s : State) : Host.Outcome State Fault Refusal := .next (runClear Config.params s)

/-- The meaning of SETWIN. -/
def execSetWin (null : Bool) (ch : Byte) (x y w h : Half) (buf : Word) (s : State) :
    Host.Outcome State Fault Refusal :=
  .next (runSetWin Config.params null ch x y w h buf s)

end Sys2Proof.Machine
end

