-- ==== Sys2Proof/Machine/Lifecycle.lean ====
section
/-! DEFINITION. The lifecycle requests INIT, RESET, SLEEP, WAKE and WAITIDLE
(spec/41_lifecycle.md). -/

namespace Sys2Proof.Machine

/-- The part of `InitSeq(m, n)` after a BUSINIT that answered ok (R150). -/
def initBody (P : Config.Params) (m n : Byte) : List Micro :=
  initSend cmdPowerSetting P.seqData.pwr ++
  initSend P.codes.boosterSoftStart P.seqData.boost ++
  [.initCmd P.codes.powerOn, .waitBusy] ++
  initSend P.codes.panelSetting P.seqData.panel ++
  initSend P.codes.pllControl [pll m n] ++
  [.storeCoeffs m n]

/-- `InitSeq(m, n)`: BUSINIT, and the rest only if it answered ok (R150). -/
def initSeq (P : Config.Params) (m n : Byte) : List Micro :=
  .busInit :: (initBody P m n).map .ifUp

/-- The expansion of SLEEP (R152). -/
def sleepExpansion (P : Config.Params) : List Micro :=
  send P.codes.vcomDataInterval P.seqData.slpBorder ++
  send P.codes.vcmDcSetting P.seqData.slpVcmdc ++
  send P.codes.panelSetting P.seqData.slpPanel ++
  [.delay 100] ++
  send cmdPowerSetting (List.replicate P.seqData.pwr.length 0x00) ++
  [.delay 100, .cmd P.codes.powerOff, .waitBusy] ++
  send P.codes.deepSleep [deepSleepCheck] ++
  [.fallAsleep]

/-- The expansion of WAKE (R153). -/
def wakeExpansion (P : Config.Params) (m n : Byte) : List Micro := .resetSeq :: initSeq P m n

/-- INIT m, n (R150). -/
def runInit (P : Config.Params) (m n : Byte) (s : State) : State :=
  startRequest P (.init m n) (initSeq P m n) s

/-- RESET (R151). -/
def runReset (P : Config.Params) (s : State) : State := startRequest P .reset [.resetSeq] s

/-- SLEEP (R152). -/
def runSleep (P : Config.Params) (s : State) : State := startRequest P .sleep (sleepExpansion P) s

/-- WAKE m, n (R153). -/
def runWake (P : Config.Params) (m n : Byte) (s : State) : State :=
  startRequest P (.wake m n) (wakeExpansion P m n) s

/-- WAITIDLE (R154). -/
def runWaitIdle (P : Config.Params) (s : State) : State := startRequest P .waitIdle [.waitBusy] s

/-- The meaning of INIT. -/
def execInit (m n : Byte) (s : State) : Host.Outcome State Fault Refusal :=
  .next (runInit Config.params m n s)

/-- The meaning of RESET. -/
def execReset (s : State) : Host.Outcome State Fault Refusal := .next (runReset Config.params s)

/-- The meaning of SLEEP. -/
def execSleep (s : State) : Host.Outcome State Fault Refusal := .next (runSleep Config.params s)

/-- The meaning of WAKE. -/
def execWake (m n : Byte) (s : State) : Host.Outcome State Fault Refusal :=
  .next (runWake Config.params m n s)

/-- The meaning of WAITIDLE. -/
def execWaitIdle (s : State) : Host.Outcome State Fault Refusal :=
  .next (runWaitIdle Config.params s)

end Sys2Proof.Machine
end

