-- ==== Sys2Proof/Machine/Lut.lean ====
section
/-! DEFINITION. LUT transmission, SendLut (spec/45_lut_transmission.md R240 to R242), and the
common ending of the refresh modes (spec/43_refresh.md R190). -/

namespace Sys2Proof.Machine

/-- One table: its command and its data bytes (45 R241). -/
def sendTable (P : Config.Params) (v : Variant) (ov : Overrides) (t : Table) : List Micro :=
  [.cmd (lutCmd P t), .lut v t ov]

/-- The clock check at the start of a shade LUT (70 R287). -/
def clockCheck : Variant → List Micro
  | .full => []
  | .quick => []
  | .shade => [.shadeClock]

/-- `SendLut(v, ov)` (45 R241). -/
def sendLut (P : Config.Params) (v : Variant) (ov : Overrides) : List Micro :=
  clockCheck v ++ tables.flatMap (sendTable P v ov) ++ [.tagLut (lutTag v ov)]

/-- A refresh mode that waits for the panel: LUT set, refresh command, WaitBusy (43 R190). -/
def blockingRefresh (P : Config.Params) (v : Variant) : List Micro :=
  sendLut P v .none ++ [.cmd cmdDisplayRefresh, .waitBusy]

/-- `ShadeSeq(pass)` (43 R199). -/
def shadeSeq (P : Config.Params) (pass : Nat) : List Micro :=
  sendLut P .shade (.shade pass) ++ [.cmd cmdDisplayRefresh, .markBusy]

end Sys2Proof.Machine
end

