-- ==== Sys2Proof/Machine/Grayscale.lean ====
section
/-! DEFINITION. The grayscale renderer GRAY (spec/44_grayscale.md). -/

namespace Sys2Proof.Machine

/-- Row y of pass p: pack it, then send it as a full-width window (R224). DEDUCED, unsafe (log 9): a
sample outside the frame-buffer window faults before any action of its row, as R224's order and
20 R82 have it, and not as the last sentence of 60 R255 has it. -/
def grayRow (P : Config.Params) (buf p y : Nat) : List Micro :=
  .pack (buf + y * width) (threshold p) :: winSeq P .row 0 y width 1 P.grayChannel

/-- `PassSeq(buf, p)` (R224). -/
def passSeq (P : Config.Params) (buf p : Nat) : List Micro :=
  (List.range height).flatMap (grayRow P buf p) ++ shadeSeq P p ++ [.waitBusy]

/-- The pass loop, run only if the Init before it succeeded (R220). -/
def grayPasses (P : Config.Params) (buf : Nat) : List Micro :=
  ((List.range (passCount P)).flatMap (passSeq P buf)).map .ifUp

/-- One side of the save/restore bracket (R220, R225). -/
def bracket (P : Config.Params) (sw : Bool) (m n : Byte) : List Micro :=
  if sw then .resetSeq :: initSeq P m n else []

/-- The expansion of GRAY for the recorded coefficients (R220). -/
def grayExpansion (P : Config.Params) (buf : Nat) (m0 n0 : Byte) : List Micro :=
  let sw := (m0, n0) != ((5, 1) : Byte × Byte)
  bracket P sw 5 1 ++ grayPasses P buf ++ bracket P sw m0 n0

/-- GRAY (R220): unset coefficients fault before any action. -/
def runGray (P : Config.Params) (buf : Word) (s : State) : State :=
  match readCoeffs s with
  | .error r => faultAtStart r (.gray buf) s
  | .ok (m0, n0) => startRequest P (.gray buf) (grayExpansion P buf.toNat m0 n0) s

/-- The meaning of GRAY. -/
def execGray (buf : Word) (s : State) : Host.Outcome State Fault Refusal :=
  .next (runGray Config.params buf s)

end Sys2Proof.Machine
end

