-- ==== Sys2Proof/Machine/Refresh.lean ====
section
/-! DEFINITION. The refresh requests DISPLAY, QUICK, HEALTHY and SHADE (spec/43_refresh.md). -/

namespace Sys2Proof.Machine

/-- The frame data of DISPLAY, sent unless the buffer is null (R194). -/
def displayData (P : Config.Params) (null : Bool) (buf : Word) : List Micro :=
  if null then [] else [.cmd (channelCmd P P.displayChannel), .frame buf.toNat frameBytes]

/-- The expansion of DISPLAY (R194). -/
def displayExpansion (P : Config.Params) (null : Bool) (buf : Word) : List Micro :=
  displayData P null buf ++ blockingRefresh P .full

/-- The overrides of a healthy pass (R192). -/
def healthyOverrides (strong : Bool) : Overrides := if strong then .strong else .weak

/-- The expansion of HEALTHY after its optional counter reset (R197). -/
def healthyExpansion (P : Config.Params) (strong : Bool) : List Micro :=
  sendLut P .quick (healthyOverrides strong) ++ [.advanceWcc, .cmd cmdDisplayRefresh, .markBusy]

/-- The optional reset of the counter, before the selection (R197). -/
def resetCounter (rst : Bool) (s : State) : State := if rst then { s with wcc := 0 } else s

/-- DISPLAY (R194). -/
def runDisplay (P : Config.Params) (null : Bool) (buf : Word) (s : State) : State :=
  startRequest P (.display null buf) (displayExpansion P null buf) s

/-- QUICK (R195). -/
def runQuick (P : Config.Params) (s : State) : State :=
  startRequest P .quick (blockingRefresh P .quick) s

/-- HEALTHY (R197). -/
def runHealthy (P : Config.Params) (rst : Bool) (s : State) : State :=
  let s' := resetCounter rst s
  startRequest P (.healthy rst) (healthyExpansion P (strongPass s'.wcc)) s'

/-- SHADE (R199); its pass index sets PV when it starts (70 R291). -/
def runShade (P : Config.Params) (pass : Byte) (s : State) : State :=
  startRequest P (.shade pass) (shadeSeq P pass.toNat) (markPv (passHazard pass.toNat) s)

/-- The meaning of DISPLAY. -/
def execDisplay (null : Bool) (buf : Word) (s : State) : Host.Outcome State Fault Refusal :=
  .next (runDisplay Config.params null buf s)

/-- The meaning of QUICK. -/
def execQuick (s : State) : Host.Outcome State Fault Refusal := .next (runQuick Config.params s)

/-- The meaning of HEALTHY. -/
def execHealthy (rst : Bool) (s : State) : Host.Outcome State Fault Refusal :=
  .next (runHealthy Config.params rst s)

/-- The meaning of SHADE. -/
def execShade (pass : Byte) (s : State) : Host.Outcome State Fault Refusal :=
  .next (runShade Config.params pass s)

end Sys2Proof.Machine
end

