-- ==== Sys2Proof/Machine/Dispatch.lean ====
section
/-! DEFINITION. One arm per request, each a direct call of its meaning. -/

namespace Sys2Proof.Machine

def exec (i : Instr) (s : State) : Host.Outcome State Fault Refusal :=
  match i with
  | .init m n => Sys2Proof.Machine.execInit m n s
  | .reset => Sys2Proof.Machine.execReset s
  | .sleep => Sys2Proof.Machine.execSleep s
  | .wake m n => Sys2Proof.Machine.execWake m n s
  | .waitIdle => Sys2Proof.Machine.execWaitIdle s
  | .clear => Sys2Proof.Machine.execClear s
  | .setWin null ch x y w h buf => Sys2Proof.Machine.execSetWin null ch x y w h buf s
  | .display null buf => Sys2Proof.Machine.execDisplay null buf s
  | .quick => Sys2Proof.Machine.execQuick s
  | .healthy rst => Sys2Proof.Machine.execHealthy rst s
  | .shade pass => Sys2Proof.Machine.execShade pass s
  | .gray buf => Sys2Proof.Machine.execGray buf s

end Sys2Proof.Machine
end

