-- ==== Sys2Proof/WellFormed.lean ====
section
/-! DEFINITION. The checks of spec/30_encoding.md rule R110: the assembler refuses an operand that
does not fit its field, and its canonical form of a null buffer has BUF = 0.

`Instr.wf` describes what the assembler produces, not what the block accepts: a request word
with NB = 1 and any BUF is legal (R104), decodes and runs. No meaning and no statement about the
machine depends on `Instr.wf`. -/

namespace Sys2Proof

/-- The request is in the assembler's form: a null buffer carries BUF = 0 (R110). -/
def Instr.wf : Instr → Bool
  | .init _ _ => true
  | .reset => true
  | .sleep => true
  | .wake _ _ => true
  | .waitIdle => true
  | .clear => true
  | .setWin null _ _ _ _ _ buf => !null || buf == 0
  | .display null buf => !null || buf == 0
  | .quick => true
  | .healthy _ => true
  | .shade _ => true
  | .gray _ => true

/-- A buffer operand fits the 32-bit BUF word (R110). -/
def AsmBuf.fits : AsmBuf → Bool
  | .null => true
  | .addr a => a < 2 ^ 32

/-- Every operand fits its field; the assembler refuses any other line and never truncates
(R110). -/
def AsmLine.fits : AsmLine → Bool
  | .init m n => m < 2 ^ 8 && n < 2 ^ 8
  | .reset => true
  | .sleep => true
  | .wake m n => m < 2 ^ 8 && n < 2 ^ 8
  | .waitIdle => true
  | .clear => true
  | .setWin buf x y w h ch =>
    buf.fits && x < 2 ^ 16 && y < 2 ^ 16 && w < 2 ^ 16 && h < 2 ^ 16 && ch < 2 ^ 8
  | .display buf => buf.fits
  | .quick => true
  | .healthy => true
  | .healthyRst => true
  | .shade p => p < 2 ^ 8
  | .gray buf => buf < 2 ^ 32
  | .full => true
  | .clearWin x y w h ch =>
    x < 2 ^ 16 && y < 2 ^ 16 && w < 2 ^ 16 && h < 2 ^ 16 && ch < 2 ^ 8

end Sys2Proof
end

