-- ==== Sys2Proof/Decode.lean ====
section
/-! DEFINITION. The request encoding of spec/30_encoding.md: the decoder, total on any word stream
and rejecting by name, the encoder and the assembler, written from the same tables. -/

namespace Sys2Proof

/-! ## Header fields (R100) and extension words (R101) -/

/-- Bits [7:0], OPC. -/
def opcOf (h : Word) : Byte := h.extractLsb' 0 8
/-- Bit 8, NB. -/
def nbOf (h : Word) : Bool := h.getLsbD 8
/-- Bit 9, RC. -/
def rcOf (h : Word) : Bool := h.getLsbD 9
/-- Bits [23:16], A. -/
def aOf (h : Word) : Byte := h.extractLsb' 16 8
/-- Bits [31:24], B. -/
def bOf (h : Word) : Byte := h.extractLsb' 24 8
/-- Bits [15:0] of an XY or WH word: X or W. -/
def lowHalf (v : Word) : Half := v.extractLsb' 0 16
/-- Bits [31:16] of an XY or WH word: Y or H. -/
def highHalf (v : Word) : Half := v.extractLsb' 16 16

/-! ## The opcode map (R105) and legality (R106) -/

/-- The assigned opcodes. -/
inductive Mnemonic where
  | init
  | reset
  | sleep
  | wake
  | waitIdle
  | clear
  | setWin
  | display
  | quick
  | healthy
  | shade
  | gray
  deriving DecidableEq, Repr

/-- Why a header is illegal (R107). -/
inductive Illegal where
  /-- OPC is none of R105's. -/
  | reservedOpcode
  /-- A fixed field differs from the row's match. -/
  | fixedField
  deriving DecidableEq, Repr

/-- One row of R106. -/
structure OpRow where
  op : Mnemonic
  pattern : Word
  mask : Word
  deriving DecidableEq, Repr

/-- The match and mask table of R106. -/
def opTable : List OpRow := [
  { op := .init,     pattern := 0x00000001, mask := 0x0000FFFF },
  { op := .reset,    pattern := 0x00000002, mask := 0xFFFFFFFF },
  { op := .sleep,    pattern := 0x00000003, mask := 0xFFFFFFFF },
  { op := .wake,     pattern := 0x00000004, mask := 0x0000FFFF },
  { op := .waitIdle, pattern := 0x00000005, mask := 0xFFFFFFFF },
  { op := .clear,    pattern := 0x00000010, mask := 0xFFFFFFFF },
  { op := .setWin,   pattern := 0x00000011, mask := 0xFF00FEFF },
  { op := .display,  pattern := 0x00000020, mask := 0xFFFFFEFF },
  { op := .quick,    pattern := 0x00000021, mask := 0xFFFFFFFF },
  { op := .healthy,  pattern := 0x00000022, mask := 0xFFFFFDFF },
  { op := .shade,    pattern := 0x00000023, mask := 0xFF00FFFF },
  { op := .gray,     pattern := 0x00000030, mask := 0xFFFFFFFF }]

/-- The row whose OPC is the header's, if OPC is assigned (R105). -/
def rowOf (opc : Byte) : Option OpRow := opTable.find? fun r => opcOf r.pattern == opc

/-- The decoder's verdict on a header alone (R106, R107). -/
def checkHeader (h : Word) : Except Illegal Mnemonic :=
  match rowOf (opcOf h) with
  | none => .error .reservedOpcode
  | some r => if h &&& r.mask = r.pattern then .ok r.op else .error .fixedField

/-- The request's length in words, from OPC alone (R103). -/
def requestLength (opc : Byte) : Nat :=
  if opc = 0x11 then 4 else if opc = 0x20 ∨ opc = 0x30 then 2 else 1

/-! ## Decoding -/

/-- The operands from the header and its extension words (R104). -/
def assembleOperands (op : Mnemonic) (h : Word) (ext : List Word) : Instr :=
  match op with
  | .init => .init (aOf h) (bOf h)
  | .reset => .reset
  | .sleep => .sleep
  | .wake => .wake (aOf h) (bOf h)
  | .waitIdle => .waitIdle
  | .clear => .clear
  | .setWin =>
    .setWin (nbOf h) (aOf h) (lowHalf (ext.getD 0 0)) (highHalf (ext.getD 0 0))
      (lowHalf (ext.getD 1 0)) (highHalf (ext.getD 1 0)) (ext.getD 2 0)
  | .display => .display (nbOf h) (ext.getD 0 0)
  | .quick => .quick
  | .healthy => .healthy (rcOf h)
  | .shade => .shade (aOf h)
  | .gray => .gray (ext.getD 0 0)

/-- What the decoder finds at the head of the REQ stream. -/
inductive Fetched where
  /-- The host has not presented all words of a request yet (10_state.md R46). -/
  | wait
  /-- An illegal request: its header, the reason, and the stream after its words (R107). -/
  | illegal (h : Word) (why : Illegal) (rest : List Word)
  /-- A legal request and the stream after its words. -/
  | legal (i : Instr) (rest : List Word)
  deriving DecidableEq, Repr

/-- Decode the request at the head of the stream. All its words are consumed, legal or not
(R103, R107). -/
def decode : List Word → Fetched
  | [] => .wait
  | h :: ws =>
    if ws.length + 1 < requestLength (opcOf h) then .wait
    else
      match checkHeader h with
      | .error why => .illegal h why (ws.drop (requestLength (opcOf h) - 1))
      | .ok op => .legal (assembleOperands op h ws) (ws.drop (requestLength (opcOf h) - 1))

/-! ## Encoding -/

/-- A header word from its fields, with RSV = 0 (R100). -/
def mkHeader (opc : Byte) (nb rc : Bool) (a b : Byte) : Word :=
  (b.setWidth 32 <<< 24) ||| (a.setWidth 32 <<< 16) ||| ((BitVec.ofBool rc).setWidth 32 <<< 9) |||
    ((BitVec.ofBool nb).setWidth 32 <<< 8) ||| opc.setWidth 32

/-- An XY or WH extension word (R101). -/
def mkPair (low high : Half) : Word := (high.setWidth 32 <<< 16) ||| low.setWidth 32

/-- The header word of a request (R100, R104, R105). -/
def header : Instr → Word
  | .init m n => mkHeader 0x01 false false m n
  | .reset => mkHeader 0x02 false false 0 0
  | .sleep => mkHeader 0x03 false false 0 0
  | .wake m n => mkHeader 0x04 false false m n
  | .waitIdle => mkHeader 0x05 false false 0 0
  | .clear => mkHeader 0x10 false false 0 0
  | .setWin null ch _ _ _ _ _ => mkHeader 0x11 null false ch 0
  | .display null _ => mkHeader 0x20 null false 0 0
  | .quick => mkHeader 0x21 false false 0 0
  | .healthy rst => mkHeader 0x22 false rst 0 0
  | .shade p => mkHeader 0x23 false false p 0
  | .gray _ => mkHeader 0x30 false false 0 0

/-- The extension words of a request (R101, R102). -/
def extension : Instr → List Word
  | .init _ _ => []
  | .reset => []
  | .sleep => []
  | .wake _ _ => []
  | .waitIdle => []
  | .clear => []
  | .setWin _ _ x y w h buf => [mkPair x y, mkPair w h, buf]
  | .display _ buf => [buf]
  | .quick => []
  | .healthy _ => []
  | .shade _ => []
  | .gray buf => [buf]

/-- The words of a request, in the order the host presents them (R100). -/
def encode (i : Instr) : List Word := header i :: extension i

/-- The mnemonic of a request. -/
def mnemonicOf : Instr → Mnemonic
  | .init _ _ => .init
  | .reset => .reset
  | .sleep => .sleep
  | .wake _ _ => .wake
  | .waitIdle => .waitIdle
  | .clear => .clear
  | .setWin _ _ _ _ _ _ _ => .setWin
  | .display _ _ => .display
  | .quick => .quick
  | .healthy _ => .healthy
  | .shade _ => .shade
  | .gray _ => .gray

/-! ## The assembler (R110, R111) -/

/-- NB of a buffer operand: `null` sets it. -/
def AsmBuf.nb : AsmBuf → Bool
  | .null => true
  | .addr _ => false

/-- BUF of a buffer operand: `null` gives 0. -/
def AsmBuf.word : AsmBuf → Word
  | .null => 0
  | .addr a => BitVec.ofNat 32 a

/-- The request of a line whose operands fit. -/
def AsmLine.toInstr : AsmLine → Instr
  | .init m n => .init (BitVec.ofNat 8 m) (BitVec.ofNat 8 n)
  | .reset => .reset
  | .sleep => .sleep
  | .wake m n => .wake (BitVec.ofNat 8 m) (BitVec.ofNat 8 n)
  | .waitIdle => .waitIdle
  | .clear => .clear
  | .setWin buf x y w h ch =>
    .setWin buf.nb (BitVec.ofNat 8 ch) (BitVec.ofNat 16 x) (BitVec.ofNat 16 y)
      (BitVec.ofNat 16 w) (BitVec.ofNat 16 h) buf.word
  | .display buf => .display buf.nb buf.word
  | .quick => .quick
  | .healthy => .healthy false
  | .healthyRst => .healthy true
  | .shade p => .shade (BitVec.ofNat 8 p)
  | .gray buf => .gray (BitVec.ofNat 32 buf)
  | .full => .display true 0
  | .clearWin x y w h ch =>
    .setWin true (BitVec.ofNat 8 ch) (BitVec.ofNat 16 x) (BitVec.ofNat 16 y)
      (BitVec.ofNat 16 w) (BitVec.ofNat 16 h) 0

/-- The words of a line, or nothing where an operand does not fit its field (R110). -/
def assemble (l : AsmLine) : Option (List Word) :=
  if l.fits then some (encode l.toInstr) else none

/-! ## A table word as a stream -/

/-- The words of the request whose bits are `w`, numbered as spec/opcode_table.json numbers them:
bit 0 is bit 0 of the header and a later word's bits count on. Bits from `nbits` on are 0, and
the stream holds as many words as OPC says (R103). -/
def tableWords (nbits w : Nat) : List Word :=
  let v := w % 2 ^ nbits
  (List.range (requestLength (BitVec.ofNat 8 v))).map fun k => BitVec.ofNat 32 (v / 2 ^ (32 * k))

/-- The request the decoder reads from a table word, if it accepts it. -/
def decodeTableWord (nbits w : Nat) : Option Instr :=
  match decode (tableWords nbits w) with
  | .legal i _ => some i
  | .illegal _ _ _ => none
  | .wait => none

end Sys2Proof
end

