-- ==== Sys2Proof/Machine/Fetch.lean ====
section
/-! DEFINITION. Taking a request from REQ (spec/10_state.md R46): the mendable part of the step. -/

namespace Sys2Proof.Machine

/-- What the decoder finds at the head of REQ. -/
def fetch (s : State) : Fetched := decode s.req

/-- Consume a request's words: what is left of REQ (30_encoding.md R107). -/
def consume (rest : List Word) (s : State) : State := { s with req := rest }

/-- Put a request's words at the head of REQ, of a block that waits for a header (10 R46). -/
def placeWords (ws : List Word) (s : State) : State :=
  { s with req := ws ++ s.req, seq := .idle, todo := [], fault := none }

end Sys2Proof.Machine
end

