-- ==== Sys2Proof/Machine/Step.lean ====
section
/-! DEFINITION. One step of the block. A step takes and runs a whole request, or goes on with the
request in flight, up to its end, a busy poll nobody has listed an answer after, or a fault (log 1). -/

namespace Sys2Proof.Machine

/-- One step. A faulted block has stopped (60_exceptions.md R254). A block with a request in flight
goes on with it (R258). An idle one takes the next request from REQ (10_state.md R31, R46): it
waits if the words are not there yet, answers ILLEGAL if they are no request (30 R107), and
executes it otherwise. -/
def step (s : State) : Host.Outcome State Fault Refusal :=
  match s.fault with
  | some r => .fault r
  | none =>
    match s.seq with
    | .run _ _ => .next (resume Config.params s)
    | .idle =>
      match fetch s with
      | .wait => .next s
      | .illegal h _ rest => .next (raiseIllegal h (consume rest s))
      | .legal i rest => exec i (consume rest s)

/-- The state with a request presented where `step` takes its next one: at the head of REQ, of a
block that is idle and has not faulted (log 14). -/
def State.withFetchWord (s : State) (nbits w : Nat) : State := placeWords (tableWords nbits w) s

end Sys2Proof.Machine
end

