-- ==== Sys2Proof/Machine/Defaults.lean ====
section
/-! DEFINITION. The decided defaults of the OPEN parameters
(spec/93_implementation_defined.md G1 to G5, spec/92_eei_decisions.md D18, D20, D26, D27). The
machine does not use them: its parameters are `Config.params`, which has no body. They let the
vectors of spec/95_test_vectors.md be checked. -/

namespace Sys2Proof.Machine

/-- G1. -/
def defaultCodes : Config.Codes where
  panelSetting := 0x00
  powerOff := 0x02
  powerOn := 0x04
  boosterSoftStart := 0x06
  deepSleep := 0x07
  dtm1 := 0x10
  dtm2 := 0x13
  lutVcom := 0x20
  lutWw := 0x21
  lutBw := 0x22
  lutWb := 0x23
  lutBb := 0x24
  pllControl := 0x30
  vcomDataInterval := 0x50
  resolutionSetting := 0x61
  vcmDcSetting := 0x82
  partialIn := 0x91
  partialOut := 0x92

/-- G2 and G3. -/
def defaultSeqData : Config.SeqData where
  pwr := [0x03, 0x00, 0x2B, 0x2B, 0xFF]
  boost := [0x17, 0x17, 0x17]
  panel := [0xBF, 0x0B]
  slpBorder := [0x17]
  slpVcmdc := []
  slpPanel := []

/-- G1 to G5 and the decided channels and pass count, for a given cycle length and ROM, which have
no default (D8, D9). -/
def defaultParams (heavyCyclePred : Nat) (lutRom : Nat → Byte) : Config.Params where
  codes := defaultCodes
  seqData := defaultSeqData
  heavyCyclePred := heavyCyclePred
  lutRom := lutRom
  busyActive := .low
  pwInOut := true
  pwTrailer := [0x01]
  displayChannel := .two
  grayChannel := .two
  grayPassCount := .eight

end Sys2Proof.Machine
end

