-- ==== Sys2Proof/Machine/HostMoves.lean ====
section
/-! DEFINITION. What the outside world can do to the block (spec/70_reset_and_hazards.md R295,
R280; spec/10_state.md R46, R47). None of these is a step of the block. The host has no move that
changes a buffer during a request, takes a word back or aborts a request. -/

namespace Sys2Proof.Machine

/-- The host presents a word on REQ (10 R46). -/
def presentWord (w : Word) (s : State) : State := { s with req := s.req ++ [w] }

/-- The host places a byte in the frame-buffer space, between requests only (20 R74). -/
def placeByte (a : Word) (b : Byte) (s : State) : Option State :=
  match s.seq with
  | .idle => some { s with fb := memPut s.fb a.toNat b }
  | .run _ _ => none

/-- The panel lists the answer of its next POLL (10 R47). -/
def listPoll (busy : Bool) (s : State) : State := { s with pollIn := s.pollIn ++ [busy] }

/-- The platform lists the answer of its next BUSINIT (10 R47). -/
def listBusInit (ok : Bool) (s : State) : State := { s with initIn := s.initIn ++ [ok] }

/-- The block's reset: every register to its reset value, no action; the ports and the frame-buffer
space are the outside world's and stay (10 R52, 70 R280). M and N are unset, which MN_VALID says
(log 6). DESIGN CHOICE, unsafe (log 25): words on REQ stay there, those of a request of which not all
words are there yet too, so that the words presented after the reset complete that request. The spec
does not say what becomes of them. -/
def blockReset (s : State) : State :=
  { s with
    seq := .idle, todo := [], busOk := true, reqOk := true
    m := 0, n := 0, mnValid := false, wcc := 0, life := .uninit, status := statusOk
    pv := false, maybeBusy := false, lastLut := .none, fault := none
    scratch := Vector.replicate 50 0 }

end Sys2Proof.Machine
end

