-- ==== Sys2Proof/Machine/Transport.lean ====
section
/-! DEFINITION. How each bus action maps onto the four primitives of the transport capability
(spec/40_framing.md R131). The transport itself is out of scope (00_scope.md R8 (a)). -/

namespace Sys2Proof.Machine

/-- The digital output pins the block's actions name. -/
inductive OutPin where
  /-- The data/command select line. -/
  | dc
  /-- The panel reset line. -/
  | rst
  deriving DecidableEq, Repr

/-- A call of a transport primitive, with its answer. -/
inductive Primitive where
  /-- `setDigitalPin(pin, level)`. -/
  | setPin (pin : OutPin) (level : Level)
  /-- `transferByte(b)`. -/
  | transfer (b : Byte)
  /-- `delayMilliseconds(n)`. -/
  | delayMs (n : Nat)
  /-- `readDigitalPin(BUSY)`, answered with a level. -/
  | readBusy (level : Level)
  /-- `initBus()`, answered with success or InitError. -/
  | initBus (ok : Bool)
  deriving DecidableEq, Repr

/-- The other level. -/
def otherLevel : Level → Level
  | .low => .high
  | .high => .low

/-- The busy Bool of a level: `busy = (level = BUSY_ACTIVE)` (R131, R136). -/
def busyOfLevel (P : Config.Params) (level : Level) : Bool := level == P.busyActive

/-- The level a busy Bool was read from. -/
def levelOfBusy (P : Config.Params) (busy : Bool) : Level :=
  if busy then P.busyActive else otherLevel P.busyActive

/-- The primitives of one action (R131). -/
def primitives (P : Config.Params) : Action → List Primitive
  | .cmd c => [.setPin .dc .low, .transfer c]
  | .dat d => [.setPin .dc .high, .transfer d]
  | .pin l => [.setPin .rst l]
  | .delay n => [.delayMs n]
  | .poll busy => [.readBusy (levelOfBusy P busy)]
  | .busInit ok => [.initBus ok]

end Sys2Proof.Machine
end

