-- ==== Sys2Proof/Safety.lean ====
section
/-! DEFINITION. What counts as a good state and a good run, in the terms the claims use. -/

namespace Sys2Proof.Safety

open Sys2Proof.Machine

/-- A status byte is one of the three codes (spec/60_exceptions.md R250). -/
def legalStatus (b : Byte) : Bool := b == statusOk || b == statusInitError || b == statusIllegal

/-- `e` is an expansion of the request: the pseudocode of its rule read as a straight list (10 R32).
HEALTHY has one for each value of its counter's test (43 R197), GRAY one for each recorded pair
(44 R220). -/
def Expansion (i : Instr) (e : List Micro) : Prop :=
  match i with
  | .init m n => e = initSeq Config.params m n
  | .reset => e = [.resetSeq]
  | .sleep => e = sleepExpansion Config.params
  | .wake m n => e = wakeExpansion Config.params m n
  | .waitIdle => e = [.waitBusy]
  | .clear => e = clearExpansion Config.params
  | .setWin null ch x y w h buf => e = setWinExpansion Config.params null ch x y w h buf
  | .display null buf => e = displayExpansion Config.params null buf
  | .quick => e = blockingRefresh Config.params .quick
  | .healthy _ => ∃ strong, e = healthyExpansion Config.params strong
  | .shade pass => e = shadeSeq Config.params pass.toNat
  | .gray buf => ∃ m n, e = grayExpansion Config.params buf.toNat m n

/-- The invariant of the block between steps. -/
structure GoodState (s : State) : Prop where
  /-- The counter is in its range (10 R37, 43 R198). -/
  wcc : s.wcc < heavyCycleNr Config.params
  /-- LIFE is not the transient state (10 R51; log 1). -/
  life : s.life ≠ .resetting
  /-- STATUS is one of the three codes (60 R250). -/
  status : legalStatus s.status = true
  /-- Every returned status is one of them (60 R250). -/
  rsp : ∀ b ∈ s.rsp, legalStatus b = true
  /-- Nothing is left of an expansion while IDLE (10 R32). -/
  idle : s.seq = .idle → s.todo = []
  /-- What is left of a request in flight is the end of an expansion of that request (10 R32). -/
  inFlight : ∀ i k, s.seq = .run i k → ∃ e, Expansion i e ∧ s.todo <:+ e
  /-- The frame-buffer list is in canonical form. -/
  fb : memWf s.fb = true

/-! ## Runs -/

/-- What can arrive from outside while a request is in flight: a POLL or BUSINIT answer, or a word
on REQ (10 R46, R47). -/
inductive Arrives : State → State → Prop where
  | poll (busy : Bool) (s : State) : Arrives s (listPoll busy s)
  | busInit (ok : Bool) (s : State) : Arrives s (listBusInit ok s)
  | word (w : Word) (s : State) : Arrives s (presentWord w s)

/-- The states of the execution of request `i` taken at `s`: the one `exec` leaves, and, while the
request is in flight, the one a later step leaves or an arrival gives (10 R31, R32, 60 R258). -/
inductive Runs (i : Instr) (s : State) : State → Prop where
  | taken {t : State} : exec i s = .next t → Runs i s t
  | goesOn {t u : State} : Runs i s t → t.seq ≠ .idle → step t = .next u → Runs i s u
  | arrives {t u : State} : Runs i s t → t.seq ≠ .idle → Arrives t u → Runs i s u

/-- The end of a run of `k` requests (70 R296). -/
def Ended (k : Nat) (s : State) : Prop :=
  s.req = [] ∧ s.seq = .idle ∧ s.rsp.length = k ∧ s.fault = none

/-- Some POLL answer to come is not-busy, listed or a free draw: the next WaitBusy ends. It asks
this whatever S.PV is (log 19). -/
def Fair (s : State) : Prop :=
  false ∈ s.pollIn ∨ ∃ k, Config.freeBusy (s.pollDraws + k) = false

/-- The micro-operation is a WaitBusy, guarded or not. -/
def isWait : Micro → Bool
  | .waitBusy => true
  | .ifUp op => isWait op
  | _ => false

/-- A request is in flight at a WaitBusy. -/
def atWait (s : State) : Prop := s.seq ≠ .idle ∧ s.todo.head?.any isWait = true

/-- The fairness premise of a run (70 R297; log 19): while S.PV = 0, every WaitBusy of the run
receives a not-busy answer. One passed within a step has received it; one the run stands at between
two steps still has it to come. BUSINIT answers are under no premise. -/
def FairRun (s : State) : Prop :=
  ∀ k u, core.run k s = .next u → atWait u → u.pv = false → Fair u

/-- A trace with every DELAY removed (40 R139). -/
def withoutDelays (t : List Action) : List Action :=
  t.filter fun a => match a with | .delay _ => false | _ => true

/-- Two states agree but for the ghost marks PV, MAYBE_BUSY and LASTLUT (10 R40 to R42). -/
def SameButMarks (s t : State) : Prop :=
  { s with pv := t.pv, maybeBusy := t.maybeBusy, lastLut := t.lastLut } = t

/-- A command outside an Init sub-sequence violates a precondition: the panel may be busy
(70 R285), is uninitialised (R284) or asleep (R288). -/
def notListening (s : State) : Bool := s.maybeBusy || s.life == .uninit || s.life == .asleep

/-- The window holds the `n` bytes from address `a` (20 R70). -/
def Readable (s : State) (a n : Nat) : Prop :=
  s.fbBase ≤ a ∧ a + n ≤ s.fbBase + s.fbSize ∧ a + n ≤ 2 ^ 32

/-! ## The traces and end states the rules give -/

/-- The POLL answers of one WaitBusy for each entry: that many busy ones, then an idle one
(40 R134). -/
def pollsOf (qs : List Nat) : List Bool := qs.flatMap fun q => List.replicate q true ++ [false]

/-- The actions of a WaitBusy that polls busy `q` times (40 R134). -/
def waitActions (q : Nat) : List Action :=
  (List.replicate q [Action.poll true, .delay 1]).flatten ++ [.poll false]

/-- The actions of `Send(c, ds)` (40 R133). -/
def sendActions (c : Byte) (ds : List Byte) : List Action := .cmd c :: ds.map .dat

/-- The actions of the reset sub-sequence (41 R151). -/
def resetActions : List Action := [.pin .low, .delay 200, .pin .high, .delay 200]

/-- The actions of an Init sub-sequence that succeeds, its wait polling busy `q` times (41 R150). -/
def initActions (P : Config.Params) (m n : Byte) (q : Nat) : List Action :=
  [.busInit true] ++ sendActions cmdPowerSetting P.seqData.pwr ++
  sendActions P.codes.boosterSoftStart P.seqData.boost ++
  [.cmd P.codes.powerOn] ++ waitActions q ++
  sendActions P.codes.panelSetting P.seqData.panel ++
  sendActions P.codes.pllControl [pll m n]

/-- The actions of SLEEP, its wait polling busy `q` times (41 R152). -/
def sleepActions (P : Config.Params) (q : Nat) : List Action :=
  sendActions P.codes.vcomDataInterval P.seqData.slpBorder ++
  sendActions P.codes.vcmDcSetting P.seqData.slpVcmdc ++
  sendActions P.codes.panelSetting P.seqData.slpPanel ++ [.delay 100] ++
  sendActions cmdPowerSetting (List.replicate P.seqData.pwr.length 0x00) ++ [.delay 100] ++
  [.cmd P.codes.powerOff] ++ waitActions q ++ sendActions P.codes.deepSleep [0xA5]

/-- The actions of CLEAR (42 R170). -/
def clearActions (P : Config.Params) : List Action :=
  sendActions P.codes.resolutionSetting [0x01, 0x90, 0x01, 0x2C] ++
  sendActions P.codes.dtm1 (List.replicate 15000 0xFF) ++
  sendActions P.codes.dtm2 (List.replicate 15000 0xFF)

/-- The actions of one window with these data bytes (42 R173). -/
def windowActions (P : Config.Params) (data : List Byte) (x y w h : Nat) (ch : Channel) :
    List Action :=
  (if P.pwInOut then [.cmd P.codes.partialIn] else []) ++
  sendActions cmdPartialWindow (winBytes x y w h ++ P.pwTrailer) ++
  sendActions (channelCmd P ch) data ++
  (if P.pwInOut then [.cmd P.codes.partialOut] else [])

/-- The data bytes SendLut sends of a table: the override where there is one, else the ROM byte
(45 R241). -/
def lutBytes (P : Config.Params) (v : Variant) (ov : Overrides) (t : Table) : List Byte :=
  (List.range (lutLen t)).map fun i => (overrideAt ov t i).getD (P.lutRom (romAddr v t i))

/-- The actions of SendLut (45 R241). -/
def lutActions (P : Config.Params) (v : Variant) (ov : Overrides) : List Action :=
  tables.flatMap fun t => sendActions (lutCmd P t) (lutBytes P v ov t)

/-- The actions of a LUT set and the refresh command (43 R190). -/
def refreshActions (P : Config.Params) (v : Variant) (ov : Overrides) : List Action :=
  lutActions P v ov ++ [.cmd 0x12]

/-- The `n` frame-buffer bytes from address `a`. -/
def fbBytes (s : State) (a n : Nat) : List Byte := (List.range n).map fun i => memGet s.fb (a + i)

/-- The packed bytes of the source row at address `a` (44 R223). -/
def packedRow (s : State) (a t : Nat) : List Byte :=
  (List.range 50).map fun g => pack8 t (fbBytes s (a + 8 * g) 8)

/-- The actions of the first `k` rows of pass p of GRAY, one full-width window each (44 R224). -/
def rowsActions (P : Config.Params) (s : State) (buf p k : Nat) : List Action :=
  (List.range k).flatMap fun y =>
    windowActions P (packedRow s (buf + y * 400) (threshold p)) 0 y 400 1 P.grayChannel

/-- The actions of pass p of GRAY, its wait polling busy `q` times (44 R224). -/
def passActions (P : Config.Params) (s : State) (buf p q : Nat) : List Action :=
  rowsActions P s buf p 300 ++ refreshActions P .shade (.shade p) ++ waitActions q

/-- The actions of the passes from p on, one for each entry of the list of busy counts. -/
def passesActions (P : Config.Params) (s : State) (buf : Nat) : Nat → List Nat → List Action
  | _, [] => []
  | p, q :: qs => passActions P s buf p q ++ passesActions P s buf (p + 1) qs

/-- The state after a request that emitted these actions and completed with this status, but for
what else the request writes (10 R32). -/
def finished (acts : List Action) (status : Byte) (s : State) : State :=
  { s with
    trace := s.trace ++ acts, status := status, rsp := s.rsp ++ [status]
    seq := .idle, todo := [], busOk := true, reqOk := true }

end Sys2Proof.Safety
end

