-- ==== Sys2Proof/Certificates/Slice0/Obligations.lean ====
section
/-! DEFINITION. The statements for the provers. "Log n" is notes/assumptions/n.md. That one step runs
a whole request, and the fields `todo`, `busOk` and `reqOk` that a step leaves, are the model's
choice (log 1), and every statement about a step or `exec` rests on it. Where a statement lists POLL
or BUSINIT answers, they are the ones the state holds (log 2, the model's choice), and every such
list is covered. `Config.params` has no body, so each statement holds for every value of the
parameters (log 3). -/

open Sys2Proof Sys2Proof.Machine Sys2Proof.Safety

/-! ## Encoding (spec/30_encoding.md) -/

/-- The words of V-ENC (spec/95_test_vectors.md) decode to the requests that table gives. -/
def Obligations.DecodeReadsTheSpecsWords : Prop :=
  decode [0x02070001] = .legal (.init 7 2) [] ∧
  decode [0x00000002] = .legal .reset [] ∧
  decode [0x00010002] = .illegal 0x00010002 .fixedField [] ∧
  decode [0x01050004] = .legal (.wake 5 1) [] ∧
  decode [0x00020011, 0x00000008, 0x00020010, 0x00001000] =
    .legal (.setWin false 2 8 0 16 2 0x1000) [] ∧
  decode [0x00000411, 1, 2, 3, 5] = .illegal 0x00000411 .fixedField [5] ∧
  decode [0x00000120, 0] = .legal (.display true 0) [] ∧
  decode [0x00000222] = .legal (.healthy true) [] ∧
  decode [0x00030023] = .legal (.shade 3) [] ∧
  decode [0x00000130, 0x00002000] = .illegal 0x00000130 .fixedField [] ∧
  decode [0x000000FF] = .illegal 0x000000FF .reservedOpcode []

/-- The decoder gives back every request the encoder wrote, with every operand at every value, and
leaves the words after it (R100 to R106). -/
def Obligations.DecodeOfEncode : Prop :=
  ∀ (i : Instr) (rest : List Word), decode (encode i ++ rest) = .legal i rest

/-- A legal request's words are exactly the encoder's: no bit of a legal request is dropped. -/
def Obligations.EncodeOfDecode : Prop :=
  ∀ (ws : List Word) (i : Instr) (rest : List Word),
    decode ws = .legal i rest → ws = encode i ++ rest

/-- R106: a header is legal as a request exactly when its fixed bits are the row's match, and its
extension words, whatever they are, make no request illegal. -/
def Obligations.LegalHeaderIsMaskAndMatch : Prop :=
  (∀ (h : Word) (ws : List Word) (op : Mnemonic),
    checkHeader h = .ok op → requestLength (opcOf h) ≤ ws.length + 1 →
    ∃ i rest, decode (h :: ws) = .legal i rest ∧ mnemonicOf i = op) ∧
  ∀ h : Word,
    (checkHeader h = .ok .init ↔ h &&& 0x0000FFFF = 0x00000001) ∧
    (checkHeader h = .ok .reset ↔ h &&& 0xFFFFFFFF = 0x00000002) ∧
    (checkHeader h = .ok .sleep ↔ h &&& 0xFFFFFFFF = 0x00000003) ∧
    (checkHeader h = .ok .wake ↔ h &&& 0x0000FFFF = 0x00000004) ∧
    (checkHeader h = .ok .waitIdle ↔ h &&& 0xFFFFFFFF = 0x00000005) ∧
    (checkHeader h = .ok .clear ↔ h &&& 0xFFFFFFFF = 0x00000010) ∧
    (checkHeader h = .ok .setWin ↔ h &&& 0xFF00FEFF = 0x00000011) ∧
    (checkHeader h = .ok .display ↔ h &&& 0xFFFFFEFF = 0x00000020) ∧
    (checkHeader h = .ok .quick ↔ h &&& 0xFFFFFFFF = 0x00000021) ∧
    (checkHeader h = .ok .healthy ↔ h &&& 0xFFFFFDFF = 0x00000022) ∧
    (checkHeader h = .ok .shade ↔ h &&& 0xFF00FFFF = 0x00000023) ∧
    (checkHeader h = .ok .gray ↔ h &&& 0xFFFFFFFF = 0x00000030)

/-- R103: the decoder reads the length from OPC alone, and waits for or consumes that many words,
legal or not; until they are all there the block emits no action and returns no status. -/
def Obligations.LengthComesFromOpcode : Prop :=
  ∀ (h : Word) (ws : List Word) (n : Nat),
    n = (if h.extractLsb' 0 8 = 0x11 then 4
      else if h.extractLsb' 0 8 = 0x20 ∨ h.extractLsb' 0 8 = 0x30 then 2 else 1) →
    (ws.length + 1 < n → decode (h :: ws) = .wait ∧
      ∀ s : State, s.fault = none → s.seq = .idle → s.req = h :: ws →
        ∃ t, step s = .next t ∧ t.trace = s.trace ∧ t.rsp = s.rsp) ∧
    (n ≤ ws.length + 1 →
      (∃ i, decode (h :: ws) = .legal i ((h :: ws).drop n)) ∨
      (∃ why, decode (h :: ws) = .illegal h why ((h :: ws).drop n)))

/-- R107: an illegal request's words are consumed, no action is emitted, and nothing changes but
STATUS, which is returned on RSP; the event carries the header (60 R251). -/
def Obligations.IllegalRequestChangesOnlyStatus : Prop :=
  ∀ (s : State) (h : Word) (ws : List Word),
    s.fault = none → s.seq = .idle → s.req = h :: ws →
    (∀ r ∈ opTable, h &&& r.mask ≠ r.pattern) →
    requestLength (opcOf h) ≤ ws.length + 1 →
    step s = .next { s with
      req := (h :: ws).drop (requestLength (opcOf h))
      status := 0xFE, rsp := s.rsp ++ [0xFE], raised := s.raised ++ [h] }

/-! ## The step -/

/-- When the words at the head of REQ decode to a request, a step of an idle block is exec of that
request with its words consumed (10 R31, R46). -/
def Obligations.StepRunsTheDecodedRequest : Prop :=
  ∀ (s : State) (i : Instr) (rest : List Word),
    s.fault = none → s.seq = .idle → decode s.req = .legal i rest →
    step s = exec i { s with req := rest }

/-- An idle block whose request is not all there yet waits and changes nothing (10 R46, 60 R258;
log 10). -/
def Obligations.StepWaitsForWords : Prop :=
  ∀ s : State, s.fault = none → s.seq = .idle → decode s.req = .wait → step s = .next s

/-- A request placed at the head of REQ is what the next step runs (log 14). -/
def Obligations.PlacedRequestRunsNext : Prop :=
  ∀ (s : State) (i : Instr),
    step (placeWords (encode i) s) = exec i { s with seq := .idle, todo := [], fault := none }

/-- A request held in WaitBusy, inside an Init or a pass of GRAY or outside them: with a not-busy
answer listed since, it polls the listed answers through and goes on with the rest of its
expansion; with none, it takes a free draw after the listed busy ones, goes on if that is not-busy
and holds again if it is busy (40 R134, 60 R258; log 1, log 2). That POLL and DELAY advance the
position is the model's choice (10 R32; log 24). -/
def Obligations.HeldRequestPollsAgain : Prop :=
  ∀ (s : State) (i : Instr) (k : Nat) (rest : List Micro),
    s.fault = none → s.seq = .run i k →
    (s.todo = .waitBusy :: rest ∨ (s.todo = .ifUp .waitBusy :: rest ∧ s.busOk = true)) →
    (∀ (q : Nat) (ps : List Bool), s.pollIn = pollsOf [q] ++ ps →
      step s = .next (settle (runMicros Config.params rest { s with
        trace := s.trace ++ waitActions q, seq := .run i (k + 2 * q + 1)
        pollIn := ps, maybeBusy := false }))) ∧
    (∀ q : Nat, s.pollIn = List.replicate q true →
      step s = .next (
        if Config.freeBusy s.pollDraws then
          { s with
            trace := s.trace ++ (List.replicate (q + 1) [Action.poll true, .delay 1]).flatten
            seq := .run i (k + 2 * q + 2), pollIn := [], pollDraws := s.pollDraws + 1 }
        else
          settle (runMicros Config.params rest { s with
            trace := s.trace ++ waitActions q, seq := .run i (k + 2 * q + 1)
            pollIn := [], pollDraws := s.pollDraws + 1, maybeBusy := false })))

/-- A block with a recorded fault has stopped (60 R254; log 8). -/
def Obligations.FaultedBlockStops : Prop :=
  (∀ (s : State) (r : Fault), s.fault = some r → step s = .fault r) ∧
  (∀ (i : Instr) (s t : State) (r : Fault),
    exec i s = .next t → s.fault = some r → t.fault = some r)

/-- R52: the block's reset values, and that the reset emits no action. M and N are unset, which
MN_VALID = 0 says. -/
def Obligations.ResetValues : Prop :=
  (State.reset.seq = .idle ∧ State.reset.mnValid = false ∧ State.reset.wcc = 0 ∧
    State.reset.life = .uninit ∧ State.reset.status = 0x00 ∧ State.reset.pv = false ∧
    State.reset.maybeBusy = false ∧ State.reset.lastLut = .none ∧ State.reset.fault = none ∧
    State.reset.trace = []) ∧
  ∀ s : State,
    (blockReset s).seq = .idle ∧ (blockReset s).mnValid = false ∧ (blockReset s).wcc = 0 ∧
    (blockReset s).life = .uninit ∧ (blockReset s).status = 0x00 ∧ (blockReset s).pv = false ∧
    (blockReset s).maybeBusy = false ∧ (blockReset s).lastLut = .none ∧
    (blockReset s).fault = none ∧ (blockReset s).trace = s.trace

/-! ## Lifecycle requests (spec/41_lifecycle.md) -/

/-- INIT with an ok BUSINIT: its trace, and every register it leaves (R150, 10 R51). -/
def Obligations.InitCompletes : Prop :=
  ∀ (s : State) (m n : Byte) (q : Nat) (is ps : List Bool),
    s.initIn = true :: is → s.pollIn = pollsOf [q] ++ ps →
    exec (.init m n) s = .next { finished (initActions Config.params m n q) 0x00 s with
      m := m, n := n, mnValid := true
      life := if s.life = .asleep then .asleep else .active
      maybeBusy := false, initIn := is, pollIn := ps
      pv := s.pv || s.maybeBusy || s.life == .asleep }

/-- INIT with a failing BUSINIT emits nothing after it, stores nothing and returns 0xFF (R150,
60 R252). -/
def Obligations.InitFailureStoresNothing : Prop :=
  ∀ (s : State) (m n : Byte) (is : List Bool),
    s.initIn = false :: is →
    exec (.init m n) s = .next { finished [.busInit false] 0xFF s with initIn := is }

/-- RESET: the reset pin sequence, LIFE = UNINIT, two marks cleared, all else unchanged (R151). -/
def Obligations.ResetRequestCompletes : Prop :=
  ∀ s : State,
    exec .reset s = .next { finished resetActions 0x00 s with
      life := .uninit, maybeBusy := false, lastLut := .none }

/-- SLEEP: its trace with the check byte 0xA5, LIFE = ASLEEP, all else unchanged (R152). -/
def Obligations.SleepCompletes : Prop :=
  ∀ (s : State) (q : Nat) (ps : List Bool),
    s.pollIn = pollsOf [q] ++ ps →
    exec .sleep s = .next { finished (sleepActions Config.params q) 0x00 s with
      life := .asleep, maybeBusy := false, pollIn := ps, pv := s.pv || notListening s }

/-- WAKE is RESET's sub-sequence then Init's: from any LIFE it ends ACTIVE, and it sets no PV
(R153). -/
def Obligations.WakeCompletes : Prop :=
  ∀ (s : State) (m n : Byte) (q : Nat) (is ps : List Bool),
    s.initIn = true :: is → s.pollIn = pollsOf [q] ++ ps →
    exec (.wake m n) s = .next {
      finished (resetActions ++ initActions Config.params m n q) 0x00 s with
      m := m, n := n, mnValid := true, life := .active, lastLut := .none
      maybeBusy := false, initIn := is, pollIn := ps }

/-- WAKE with a failing BUSINIT: LIFE = UNINIT, nothing stored, 0xFF (R153). -/
def Obligations.WakeFailureLeavesUninit : Prop :=
  ∀ (s : State) (m n : Byte) (is : List Bool),
    s.initIn = false :: is →
    exec (.wake m n) s = .next { finished (resetActions ++ [.busInit false]) 0xFF s with
      life := .uninit, lastLut := .none, maybeBusy := false, initIn := is }

/-- WAITIDLE with listed answers polls them through and clears MAYBE_BUSY; it never sets PV
(R154). -/
def Obligations.WaitIdleCompletes : Prop :=
  ∀ (s : State) (q : Nat) (ps : List Bool),
    s.pollIn = pollsOf [q] ++ ps →
    exec .waitIdle s = .next { finished (waitActions q) 0x00 s with
      maybeBusy := false, pollIn := ps }

/-- WAITIDLE whose listed answers are all busy takes the next one as a free draw: it completes, or
holds at its POLL (40 R134, 60 R258; log 2). The held position, two for each busy poll with its
delay, is the model's choice: log 24 reads the polls and delays of a wait as emitted actions, each of which
advances the position, against 10 R32's "a hold leaves k unchanged". -/
def Obligations.WaitIdleDrawsWhenUnlisted : Prop :=
  ∀ (s : State) (q : Nat),
    s.pollIn = List.replicate q true →
    exec .waitIdle s = .next (
      if Config.freeBusy s.pollDraws then
        { s with
          trace := s.trace ++ (List.replicate (q + 1) [Action.poll true, .delay 1]).flatten
          seq := .run .waitIdle (2 * q + 2), todo := [.waitBusy], busOk := true, reqOk := true
          pollIn := [], pollDraws := s.pollDraws + 1 }
      else
        { finished (waitActions q) 0x00 s with
          maybeBusy := false, pollIn := [], pollDraws := s.pollDraws + 1 })

/-- If some POLL answer to come is not-busy, a WAITIDLE ends: after some number of steps the block
is IDLE again, MAYBE_BUSY is clear and the status 0x00 has been returned (60 R258). The premise is the
model's form of 70 R297 for one WaitBusy: fairness of the answers listed and drawn, whatever PV is,
where R297 asks it while PV = 0 (log 2, log 19). -/
def Obligations.FairWaitIdleEnds : Prop :=
  ∀ (s : State) (rest : List Word),
    s.fault = none → s.seq = .idle → decode s.req = .legal .waitIdle rest → Fair s →
    ∃ k t, core.run k s = .next t ∧ t.seq = .idle ∧ t.req = rest ∧ t.maybeBusy = false ∧
      t.fault = none ∧ t.rsp = s.rsp ++ [0x00]

/-- Under the fairness premise of R297 every run ends: the block reaches a state with PV set, where
the premise asks nothing more, or a fault, or it is IDLE and waits for words that are not there. A
run of a request list that reaches neither PV nor a fault ends as 70 R296 says (60 R258; log 2,
log 19). -/
def Obligations.FairRunEnds : Prop :=
  (∀ s : State, s.fault = none → s.seq = .idle → FairRun s →
    ∃ k t, core.run k s = .next t ∧
      (t.pv = true ∨ t.fault ≠ none ∨ (t.seq = .idle ∧ decode t.req = .wait))) ∧
  (∀ (s : State) (is : List Instr),
    s.fault = none → s.seq = .idle → s.req = is.flatMap encode → FairRun s →
    ∃ k t, core.run k s = .next t ∧
      (t.pv = true ∨ t.fault ≠ none ∨ Ended (s.rsp.length + is.length) t))

/-! ## Frame and window requests (spec/42_frame.md) -/

/-- CLEAR: the resolution bytes and 15000 bytes of 0xFF on each channel; STATUS alone is written
(R170). -/
def Obligations.ClearCompletes : Prop :=
  ∀ s : State,
    exec .clear s = .next { finished (clearActions Config.params) 0x00 s with
      pv := s.pv || notListening s }

/-- SETWIN with a null buffer sends (w/8)*h zero bytes; invalid geometry sets PV and nothing else
(R171, R173, 70 R289, R290). -/
def Obligations.SetWinNullCompletes : Prop :=
  ∀ (s : State) (ch : Byte) (x y w h : Half) (buf : Word),
    exec (.setWin true ch x y w h buf) s = .next {
      finished (windowActions Config.params (List.replicate (w.toNat / 8 * h.toNat) 0x00)
        x.toNat y.toNat w.toNat h.toNat (if ch = 1 then .one else .two)) 0x00 s with
      pv := s.pv || notListening s || decide (256 ≤ x.toNat) ||
        decide (¬ (x.toNat % 8 = 0 ∧ 0 < w.toNat ∧ 0 < h.toNat ∧ w.toNat % 8 = 0 ∧
          x.toNat + w.toNat ≤ 400 ∧ y.toNat + h.toNat ≤ 300)) }

/-- SETWIN from a readable buffer sends its (w/8)*h bytes in address order; a buffer of no bytes is
not read, so it may lie anywhere (R171, R173, 20 R75). -/
def Obligations.SetWinBufferCompletes : Prop :=
  ∀ (s : State) (ch : Byte) (x y w h : Half) (buf : Word),
    (w.toNat / 8 * h.toNat = 0 ∨ Readable s buf.toNat (w.toNat / 8 * h.toNat)) →
    exec (.setWin false ch x y w h buf) s = .next {
      finished (windowActions Config.params (fbBytes s buf.toNat (w.toNat / 8 * h.toNat))
        x.toNat y.toNat w.toNat h.toNat (if ch = 1 then .one else .two)) 0x00 s with
      pv := s.pv || notListening s || decide (256 ≤ x.toNat) ||
        decide (¬ (x.toNat % 8 = 0 ∧ 0 < w.toNat ∧ 0 < h.toNat ∧ w.toNat % 8 = 0 ∧
          x.toNat + w.toNat ≤ 400 ∧ y.toNat + h.toNat ≤ 300)) }

/-- SETWIN whose byte j is the first outside the window stops there: FAULT is recorded, the bytes
before it have been sent, and no status is returned (R171, 60 R254, R255; log 8). -/
def Obligations.SetWinFaultsOutsideWindow : Prop :=
  ∀ (s : State) (ch : Byte) (x y w h : Half) (buf : Word) (j : Nat),
    s.fault = none → j < w.toNat / 8 * h.toNat →
    (∀ i < j, inWindow s (buf.toNat + i) = true) → inWindow s (buf.toNat + j) = false →
    ∃ t, exec (.setWin false ch x y w h buf) s = .next t ∧
      t.fault = some (.fbOutOfRange (buf.toNat + j)) ∧
      t.trace = s.trace ++
        (if Config.params.pwInOut then [.cmd Config.params.codes.partialIn] else []) ++
        sendActions 0x90 (winBytes x.toNat y.toNat w.toNat h.toNat ++ Config.params.pwTrailer) ++
        sendActions (if ch = 1 then Config.params.codes.dtm1 else Config.params.codes.dtm2)
          (fbBytes s buf.toNat j) ∧
      t.rsp = s.rsp ∧ t.status = s.status ∧ t.seq ≠ .idle ∧
      t.m = s.m ∧ t.n = s.n ∧ t.mnValid = s.mnValid ∧ t.wcc = s.wcc ∧ t.life = s.life

/-! ## Refresh requests (spec/43_refresh.md) -/

/-- DISPLAY null: the five FULL tables unmodified, 0x12, the busy wait; WCC is not touched
(R194). -/
def Obligations.DisplayNullCompletes : Prop :=
  ∀ (s : State) (buf : Word) (q : Nat) (ps : List Bool),
    s.pollIn = pollsOf [q] ++ ps →
    exec (.display true buf) s = .next {
      finished (refreshActions Config.params .full .none ++ waitActions q) 0x00 s with
      lastLut := .full, maybeBusy := false, pollIn := ps, pv := s.pv || notListening s }

/-- DISPLAY of a readable buffer: its 15000 bytes first, on DISPLAY_CHANNEL (R194). -/
def Obligations.DisplayBufferCompletes : Prop :=
  ∀ (s : State) (buf : Word) (q : Nat) (ps : List Bool),
    Readable s buf.toNat 15000 → s.pollIn = pollsOf [q] ++ ps →
    exec (.display false buf) s = .next {
      finished (sendActions (channelCmd Config.params Config.params.displayChannel)
          (fbBytes s buf.toNat 15000) ++
        refreshActions Config.params .full .none ++ waitActions q) 0x00 s with
      lastLut := .full, maybeBusy := false, pollIn := ps, pv := s.pv || notListening s }

/-- DISPLAY whose byte j is the first outside the window stops there with no status (R194, 60 R254,
R255; log 8). -/
def Obligations.DisplayFaultsOutsideWindow : Prop :=
  ∀ (s : State) (buf : Word) (j : Nat),
    s.fault = none → j < 15000 →
    (∀ i < j, inWindow s (buf.toNat + i) = true) → inWindow s (buf.toNat + j) = false →
    ∃ t, exec (.display false buf) s = .next t ∧
      t.fault = some (.fbOutOfRange (buf.toNat + j)) ∧
      t.trace = s.trace ++ sendActions (channelCmd Config.params Config.params.displayChannel)
        (fbBytes s buf.toNat j) ∧
      t.rsp = s.rsp ∧ t.status = s.status ∧ t.seq ≠ .idle ∧
      t.m = s.m ∧ t.n = s.n ∧ t.mnValid = s.mnValid ∧ t.wcc = s.wcc ∧ t.life = s.life

/-- QUICK: the five QUICK tables unmodified, 0x12, the busy wait; WCC is not touched (R195). -/
def Obligations.QuickCompletes : Prop :=
  ∀ (s : State) (q : Nat) (ps : List Bool),
    s.pollIn = pollsOf [q] ++ ps →
    exec .quick s = .next {
      finished (refreshActions Config.params .quick .none ++ waitActions q) 0x00 s with
      lastLut := .quick, maybeBusy := false, pollIn := ps, pv := s.pv || notListening s }

/-- HEALTHY: strong iff the counter it reads (0 after rst) is 0, then the counter advances modulo
HEAVY_CYCLE_NR; it never waits and leaves MAYBE_BUSY set (R192, R196, R197). Its commands set PV if
the panel may be busy, is uninitialised or is asleep (70 R284, R285, R288). -/
def Obligations.HealthyCompletes : Prop :=
  ∀ (s : State) (rst : Bool) (c : Nat),
    c = (if rst then 0 else s.wcc) →
    exec (.healthy rst) s = .next {
      finished (refreshActions Config.params .quick (if c = 0 then .strong else .weak)) 0x00 s with
      wcc := (c + 1) % heavyCycleNr Config.params
      lastLut := if c = 0 then .healthyStrong else .healthyWeak
      maybeBusy := true, pv := s.pv || notListening s }

/-- SHADE: the SHADE tables with the pass's override, 0x12, no wait; a wrong clock or a pass of 8 or
more sets PV and nothing else (R193, R199, 70 R287, R291). -/
def Obligations.ShadeCompletes : Prop :=
  ∀ (s : State) (pass : Byte),
    exec (.shade pass) s = .next {
      finished (refreshActions Config.params .shade (.shade pass.toNat)) 0x00 s with
      lastLut := .shade, maybeBusy := true
      pv := s.pv || notListening s || decide (8 ≤ pass.toNat) ||
        decide (¬ (s.mnValid = true ∧ s.m = 5 ∧ s.n = 1)) }

/-! ## Grayscale (spec/44_grayscale.md) -/

/-- GRAY at (5, 1): the passes alone, no bracket; M, N, LIFE and WCC are not touched (R220, R224). -/
def Obligations.GrayAtShadeClockCompletes : Prop :=
  ∀ (s : State) (buf : Word) (qs : List Nat) (ps : List Bool),
    s.mnValid = true → s.m = 5 → s.n = 1 → Readable s buf.toNat 120000 →
    qs.length = passCount Config.params → s.pollIn = pollsOf qs ++ ps →
    ∃ r, exec (.gray buf) s = .next {
      finished (passesActions Config.params s buf.toNat 0 qs) 0x00 s with
      lastLut := .shade, maybeBusy := false, pollIn := ps, scratch := r
      pv := s.pv || notListening s }

/-- GRAY at other coefficients: reset and Init(5, 1), the passes, reset and Init of the recorded
pair; (M, N) and PV end as they began (R220, R225, R227). -/
def Obligations.GrayBracketCompletes : Prop :=
  ∀ (s : State) (buf : Word) (q1 q2 : Nat) (qs : List Nat) (is ps : List Bool),
    s.mnValid = true → ¬ (s.m = 5 ∧ s.n = 1) → Readable s buf.toNat 120000 →
    qs.length = passCount Config.params →
    s.pollIn = pollsOf [q1] ++ (pollsOf qs ++ (pollsOf [q2] ++ ps)) →
    s.initIn = true :: true :: is →
    ∃ r, exec (.gray buf) s = .next {
      finished (resetActions ++ initActions Config.params 5 1 q1 ++
        passesActions Config.params s buf.toNat 0 qs ++
        resetActions ++ initActions Config.params s.m s.n q2) 0x00 s with
      life := .active, lastLut := .none, maybeBusy := false
      initIn := is, pollIn := ps, scratch := r }

/-- GRAY whose Init(5, 1) fails runs no pass but still restores; the status is 0xFF, whether or not
the restoring Init succeeds (R225). -/
def Obligations.GrayRestoresAfterFailedInit : Prop :=
  (∀ (s : State) (buf : Word) (q : Nat) (is ps : List Bool),
    s.mnValid = true → ¬ (s.m = 5 ∧ s.n = 1) →
    s.initIn = false :: true :: is → s.pollIn = pollsOf [q] ++ ps →
    exec (.gray buf) s = .next {
      finished (resetActions ++ [.busInit false] ++ resetActions ++
        initActions Config.params s.m s.n q) 0xFF s with
      life := .active, lastLut := .none, maybeBusy := false, initIn := is, pollIn := ps }) ∧
  (∀ (s : State) (buf : Word) (is : List Bool),
    s.mnValid = true → ¬ (s.m = 5 ∧ s.n = 1) → s.initIn = false :: false :: is →
    exec (.gray buf) s = .next {
      finished (resetActions ++ [.busInit false] ++ resetActions ++ [.busInit false]) 0xFF s with
      life := .uninit, lastLut := .none, maybeBusy := false, initIn := is })

/-- GRAY whose restoring Init fails leaves (5, 1) and UNINIT and returns 0xFF (R225, 70 R294). -/
def Obligations.GrayFailedRestoreLeavesShadeClock : Prop :=
  ∀ (s : State) (buf : Word) (q : Nat) (qs : List Nat) (is ps : List Bool),
    s.mnValid = true → ¬ (s.m = 5 ∧ s.n = 1) → Readable s buf.toNat 120000 →
    qs.length = passCount Config.params →
    s.pollIn = pollsOf [q] ++ (pollsOf qs ++ ps) → s.initIn = true :: false :: is →
    ∃ r, exec (.gray buf) s = .next {
      finished (resetActions ++ initActions Config.params 5 1 q ++
        passesActions Config.params s buf.toNat 0 qs ++
        resetActions ++ [.busInit false]) 0xFF s with
      m := 5, n := 1, life := .uninit, lastLut := .none, maybeBusy := false
      initIn := is, pollIn := ps, scratch := r }

/-- GRAY with unset coefficients faults before any action, with no status (R220, 60 R255, 10 R34;
log 8). -/
def Obligations.GrayFaultsOnUnsetCoefficients : Prop :=
  ∀ (s : State) (buf : Word),
    s.mnValid = false → s.fault = none →
    exec (.gray buf) s = .next { s with
      seq := .run (.gray buf) 0, todo := [], busOk := true, reqOk := true
      fault := some .unsetCoefficients }

/-- GRAY whose sample j is the first outside the window stops there, in its first pass, with no
status: FAULT is recorded and the rows before that sample's have been sent (60 R254, R255; log 8).
None of its own row has been sent, because a row is packed before its window is sent (44 R224,
20 R82; log 9, deduced): that goes against the last sentence of 60 R255, by which every action before
the DAT of the byte has been emitted. At (5, 1) it has run no bracket; at other coefficients it has
run the bracket's reset and Init(5, 1), which it does not undo (44 R220). The position is the number
of actions emitted, the polls and delays of Init's wait among them: the reading of 10 R32 that log 24
deduces, against its "a hold leaves k unchanged". The scratch row and what is left of the expansion
are not stated. -/
def Obligations.GrayFaultsOutsideWindow : Prop :=
  ∀ (s : State) (buf : Word) (j : Nat),
    s.mnValid = true → s.fault = none → j < 120000 →
    (∀ i < j, inWindow s (buf.toNat + i) = true) → inWindow s (buf.toNat + j) = false →
    (s.m = 5 → s.n = 1 → ∃ r todo, exec (.gray buf) s = .next { s with
      trace := s.trace ++ rowsActions Config.params s buf.toNat 0 (j / 400)
      seq := .run (.gray buf) (rowsActions Config.params s buf.toNat 0 (j / 400)).length
      todo := todo, busOk := true, reqOk := true, scratch := r
      pv := s.pv || (decide (400 ≤ j) && notListening s)
      fault := some (.fbOutOfRange (buf.toNat + j)) }) ∧
    (¬ (s.m = 5 ∧ s.n = 1) → ∀ (q : Nat) (is ps : List Bool),
      s.initIn = true :: is → s.pollIn = pollsOf [q] ++ ps →
      ∃ r todo, exec (.gray buf) s = .next { s with
        trace := s.trace ++ (resetActions ++ initActions Config.params 5 1 q ++
          rowsActions Config.params s buf.toNat 0 (j / 400))
        seq := .run (.gray buf) (resetActions ++ initActions Config.params 5 1 q ++
          rowsActions Config.params s buf.toNat 0 (j / 400)).length
        todo := todo, busOk := true, reqOk := true, scratch := r
        m := 5, n := 1, life := .active, lastLut := .none, maybeBusy := false
        initIn := is, pollIn := ps
        fault := some (.fbOutOfRange (buf.toNat + j)) })

/-- Whatever the panel and the platform answer, listed, drawn or listed while it is held, a GRAY
that runs its bracket sets no PV: in no state of its execution, up to its end, is PV other than it was
(R227, 70 R284, R285). -/
def Obligations.BracketedGraySetsNoPv : Prop :=
  ∀ (s t : State) (buf : Word),
    s.mnValid = true → ¬ (s.m = 5 ∧ s.n = 1) → Runs (.gray buf) s t → t.pv = s.pv

/-- Property 4: whatever is answered, a GRAY that completes with status 0x00, in the step that takes
it or in a later one, leaves the recorded (M, N) (R225). -/
def Obligations.GrayRestoresCoefficients : Prop :=
  ∀ (s t : State) (buf : Word),
    Runs (.gray buf) s t → t.seq = .idle → t.status = 0x00 →
    t.m = s.m ∧ t.n = s.n ∧ t.mnValid = true ∧ t.wcc = s.wcc

/-! ## LUT transmission and operand computations -/

/-- R243, property 5: every SendLut sends its five tables in order, each its command and exactly 44
or 42 bytes, for all variants and override modes; it reads no byte past a table. -/
def Obligations.SendLutSendsMandatedLengths : Prop :=
  ∀ (P : Config.Params) (v : Variant) (ov : Overrides) (s : State),
    ∃ b1 b2 b3 b4 b5 t,
      b1.length = 44 ∧ b2.length = 42 ∧ b3.length = 42 ∧ b4.length = 42 ∧ b5.length = 42 ∧
      runMicros P (sendLut P v ov) s = .done t ∧ t.fault = s.fault ∧
      t.trace = s.trace ++ sendActions P.codes.lutVcom b1 ++ sendActions P.codes.lutWw b2 ++
        sendActions P.codes.lutBw b3 ++ sendActions P.codes.lutWb b4 ++
        sendActions P.codes.lutBb b5

/-- R192 and R193: the override bytes, and that every other byte sent is the ROM's. -/
def Obligations.OverridesReplaceTheNamedBytes : Prop :=
  ∀ (P : Config.Params) (t : Table) (i pass : Nat), i < lutLen t →
    (lutBytes P .quick .strong t)[i]? = some (
      if i = 5 then (match t with | .vcom => 1 | .ww => 1 | .bw => 2 | .wb => 2 | .bb => 1)
      else P.lutRom (romAddr .quick t i)) ∧
    (lutBytes P .quick .weak t)[i]? = some (
      if i = 5 then (match t with | .vcom => 1 | .ww => 0 | .bw => 2 | .wb => 2 | .bb => 0)
      else P.lutRom (romAddr .quick t i)) ∧
    (lutBytes P .shade (.shade pass) t)[i]? = some (
      if t = .bb ∧ (i = 1 ∨ i = 2) then BitVec.ofNat 8 (2 + 15 * pass / 7)
      else P.lutRom (romAddr .shade t i))

/-- R71: the ROM map is one to one onto the 636 addresses: 212 bytes a variant, tables at 0, 44, 86,
128 and 170. -/
def Obligations.RomMapIsOneToOne : Prop :=
  (∀ t i, romAddr .full t i =
      (match t with | .vcom => 0 | .ww => 44 | .bw => 86 | .wb => 128 | .bb => 170) + i ∧
    romAddr .quick t i = 212 + romAddr .full t i ∧
    romAddr .shade t i = 424 + romAddr .full t i) ∧
  (∀ v t i v' t' i', i < lutLen t → i' < lutLen t' → romAddr v t i = romAddr v' t' i' →
    v = v' ∧ t = t' ∧ i = i') ∧
  (∀ a, a < 636 ↔ ∃ v t i, i < lutLen t ∧ romAddr v t i = a)

/-- R155: the PLL byte is {m[2:0], n[2:0]} in bits [5:0] with bits [7:6] = 0. -/
def Obligations.PllByteIsTheLowBits : Prop :=
  (∀ m n : Byte, (pll m n).toNat = m.toNat % 8 * 8 + n.toNat % 8) ∧
  pll 7 2 = 0x3A ∧ pll 5 1 = 0x29 ∧ pll 8 0 = 0x00 ∧ pll 255 255 = 0x3F

/-- R221: the thresholds, and that the last pass's packed bytes are all 0x00. -/
def Obligations.ThresholdsOfThePasses : Prop :=
  (∀ p : Nat, threshold p = 255 - 255 * (p + 1) / 8) ∧
  (List.range 8).map threshold = [224, 192, 160, 128, 96, 64, 32, 0] ∧
  ∀ samples : List Byte, samples.length = 8 → pack8 (threshold 7) samples = 0x00

/-- R222, property 1: bit 7 - i of the packed byte is 1 exactly when sample i is below the
threshold; and the rule's worked value. -/
def Obligations.PackedBitIsSampleBelowThreshold : Prop :=
  (∀ (t : Nat) (samples : List Byte) (i : Nat) (hi : i < samples.length),
    samples.length = 8 →
    (pack8 t samples).getLsbD (7 - i) = decide (samples[i].toNat < t)) ∧
  pack8 224 [0, 223, 224, 255, 100, 191, 192, 10] = 0xCF

/-- R172 and property 3: the eight window bytes: start column x & 0xF8, the end column's low three
bits forced to 1, and the bounds as two's-complement big-endian bytes. -/
def Obligations.WindowBytesFollowTheFormulas : Prop :=
  ∀ x y w h : Half, ∃ xe ye : Int, ∃ b2 b3 : Byte,
    winBytes x.toNat y.toNat w.toNat h.toNat =
      [x.extractLsb' 8 8, x.extractLsb' 0 8 &&& 0xF8, b2, b3,
        y.extractLsb' 8 8, y.extractLsb' 0 8,
        BitVec.ofInt 8 (ye / 256), BitVec.ofInt 8 ye] ∧
    ye = y.toNat + h.toNat - 1 ∧
    xe % 8 = 7 ∧
    xe / 8 = ((((x.extractLsb' 0 8 &&& 0xF8).toNat + w.toNat : Nat) : Int) - 1) / 8 ∧
    b2 = BitVec.ofInt 8 (xe / 256) ∧ b3 = BitVec.ofInt 8 xe ∧ b3 &&& 0x07 = 0x07

/-- R131: each CMD and each DAT is one level of the data/command line and one byte transfer, and the
busy Bool is read back from the level. -/
def Obligations.ActionsRefineToTransport : Prop :=
  ∀ P : Config.Params,
    (∀ c, primitives P (.cmd c) = [.setPin .dc .low, .transfer c]) ∧
    (∀ d, primitives P (.dat d) = [.setPin .dc .high, .transfer d]) ∧
    (∀ l, primitives P (.pin l) = [.setPin .rst l]) ∧
    (∀ n, primitives P (.delay n) = [.delayMs n]) ∧
    (∀ ok, primitives P (.busInit ok) = [.initBus ok]) ∧
    (∀ busy, ∃ level, primitives P (.poll busy) = [.readBusy level] ∧
      busyOfLevel P level = busy) ∧
    (∀ level, busyOfLevel P level = decide (level = P.busyActive))

/-! ## Rules about the whole machine -/

/-- The invariant holds after reset. -/
def Obligations.ResetMeetsInvariant : Prop := GoodState State.reset

/-- Every step keeps the invariant: the counter in its range, LIFE settled, every status legal, no
expansion left while IDLE, in flight the end of an expansion of the request in SEQ, the frame-buffer
list canonical. -/
def Obligations.StepKeepsInvariant : Prop :=
  ∀ s t : State, GoodState s → step s = .next t → GoodState t

/-- R73: the block writes no memory. Every byte of the frame-buffer space reads as before, and the
window does not move. -/
def Obligations.NoStepWritesMemory : Prop :=
  ∀ s t : State, step s = .next t →
    t.fb = s.fb ∧ t.fbBase = s.fbBase ∧ t.fbSize = s.fbSize ∧
    ∀ a : Nat, memRead t a = memRead s a

/-- The ghost marks PV, MAYBE_BUSY and LASTLUT change no action, register or status: two states
that differ in them alone step to states that differ in them alone (10 R40 to R42, 70 R292). -/
def Obligations.MarksChangeNothingElse : Prop :=
  ∀ (s t : State) (pv busy : Bool) (lut : LutTag), step s = .next t →
    ∃ t', step { s with pv := pv, maybeBusy := busy, lastLut := lut } = .next t' ∧
      SameButMarks t' t

/-- LIFE changes no action and no request's outcome: two states that differ in LIFE alone step to
states that differ at most in LIFE and PV (10 R38). -/
def Obligations.LifeChangesNothingButPv : Prop :=
  ∀ (s t : State) (l : Life), step s = .next t →
    ∃ t', step { s with life := l } = .next t' ∧ { t' with life := t.life, pv := t.pv } = t

/-- PV and MN_VALID, once set, stay set (10 R40, R36), and the outputs only grow: no action, status
or event is taken back. -/
def Obligations.OutputsAndStickyMarksOnlyGrow : Prop :=
  ∀ s t : State, step s = .next t →
    (s.pv = true → t.pv = true) ∧ (s.mnValid = true → t.mnValid = true) ∧
    s.trace <+: t.trace ∧ s.rsp <+: t.rsp ∧ s.raised <+: t.raised

/-- Each emitted action advances the position by one: a request in flight after a step is at the
number of actions it has emitted (10 R32; log 24). -/
def Obligations.PositionCountsActions : Prop :=
  (∀ (i j : Instr) (s t : State) (k : Nat), exec i s = .next t → t.seq = .run j k →
    j = i ∧ t.trace.length = s.trace.length + k) ∧
  (∀ (i j : Instr) (s t : State) (k k' : Nat), s.fault = none → s.seq = .run i k →
    step s = .next t → t.seq = .run j k' →
    j = i ∧ t.trace.length + k = s.trace.length + k')

/-- A request returns one status when it completes, which is OK or INIT_ERROR, and none while it is
held or has faulted (10 R39, 60 R250, R254): in every state of its execution, however many steps and
answers lie between; and at each step that goes on with a request in flight, from every state. -/
def Obligations.OneStatusPerRequest : Prop :=
  (∀ (i : Instr) (s t : State), Runs i s t →
    (t.seq = .idle ∧ t.rsp = s.rsp ++ [t.status] ∧ (t.status = 0x00 ∨ t.status = 0xFF)) ∨
    ((∃ k, t.seq = .run i k) ∧ t.rsp = s.rsp ∧ t.status = s.status)) ∧
  (∀ (i : Instr) (k : Nat) (s t : State), s.seq = .run i k → step s = .next t →
    (t.seq = .idle ∧ t.rsp = s.rsp ++ [t.status] ∧ (t.status = 0x00 ∨ t.status = 0xFF)) ∨
    ((∃ k', t.seq = .run i k') ∧ t.rsp = s.rsp ∧ t.status = s.status))

/-- R198: the counter is in its range after reset and stays there; after k HEALTHY requests without
rst it is (c + k) mod HEAVY_CYCLE_NR and request k + 1 is strong iff that is 0; no other request
changes it, in any state of its execution. -/
def Obligations.WeakCycleCounterRotates : Prop :=
  State.reset.wcc < heavyCycleNr Config.params ∧
  (∀ s t : State, s.wcc < heavyCycleNr Config.params → step s = .next t →
    t.wcc < heavyCycleNr Config.params) ∧
  (∀ f : Nat → State, (f 0).wcc < heavyCycleNr Config.params →
    (∀ k, exec (.healthy false) (f k) = .next (f (k + 1))) →
    ∀ k, (f k).wcc = ((f 0).wcc + k) % heavyCycleNr Config.params ∧
      (f (k + 1)).lastLut =
        if ((f 0).wcc + k) % heavyCycleNr Config.params = 0 then .healthyStrong
        else .healthyWeak) ∧
  (∀ (i : Instr) (s t : State), (∀ rst, i ≠ .healthy rst) → Runs i s t → t.wcc = s.wcc)

/-- Only INIT, RESET, SLEEP, WAKE and GRAY change LIFE, and from ASLEEP only RESET, WAKE and GRAY
lead out, in any state of a request's execution (10 R51, 60 R267). -/
def Obligations.OnlyLifecycleRequestsChangeLife : Prop :=
  (∀ (i : Instr) (s t : State), Runs i s t →
    (∀ m n, i ≠ .init m n) → i ≠ .reset → i ≠ .sleep → (∀ m n, i ≠ .wake m n) →
    (∀ buf, i ≠ .gray buf) → t.life = s.life) ∧
  (∀ (i : Instr) (s t : State), Runs i s t → s.life = .asleep →
    i ≠ .reset → (∀ m n, i ≠ .wake m n) → (∀ buf, i ≠ .gray buf) → t.life = .asleep)
end

