-- ==== Sys2Proof/Laws/PerInstr.lean ====
section
/-! SUPPORT. Statements for every request as syntax, one lemma per constructor: the words the
encoder gives it are as many as its opcode says (spec/30_encoding.md R103). -/

namespace Sys2Proof.Laws.RequestWords

/-- The encoder gives a request exactly the words its OPC announces (R103). -/
def Statement (i : Instr) : Prop := (encode i).length = requestLength (opcOf (header i))

theorem opcOf_mkHeader (opc : Byte) (nb rc : Bool) (a b : Byte) :
    opcOf (mkHeader opc nb rc a b) = opc := by
  apply BitVec.eq_of_getLsbD_eq
  intro i hi
  have h1 : i < 9 := by omega
  have h2 : i < 16 := by omega
  have h3 : i < 24 := by omega
  have h4 : i < 32 := by omega
  simp [opcOf, mkHeader, hi, h1, h2, h3, h4]

theorem init (m n : Byte) : Statement (.init m n) := by
  simp [Statement, encode, extension, header, opcOf_mkHeader, requestLength]

theorem reset : Statement .reset := by
  simp [Statement, encode, extension, header, opcOf_mkHeader, requestLength]

theorem sleep : Statement .sleep := by
  simp [Statement, encode, extension, header, opcOf_mkHeader, requestLength]

theorem wake (m n : Byte) : Statement (.wake m n) := by
  simp [Statement, encode, extension, header, opcOf_mkHeader, requestLength]

theorem waitIdle : Statement .waitIdle := by
  simp [Statement, encode, extension, header, opcOf_mkHeader, requestLength]

theorem clear : Statement .clear := by
  simp [Statement, encode, extension, header, opcOf_mkHeader, requestLength]

theorem setWin (null : Bool) (ch : Byte) (x y w h : Half) (buf : Word) :
    Statement (.setWin null ch x y w h buf) := by
  simp [Statement, encode, extension, header, opcOf_mkHeader, requestLength]

theorem display (null : Bool) (buf : Word) : Statement (.display null buf) := by
  simp [Statement, encode, extension, header, opcOf_mkHeader, requestLength]

theorem quick : Statement .quick := by
  simp [Statement, encode, extension, header, opcOf_mkHeader, requestLength]

theorem healthy (rst : Bool) : Statement (.healthy rst) := by
  simp [Statement, encode, extension, header, opcOf_mkHeader, requestLength]

theorem shade (pass : Byte) : Statement (.shade pass) := by
  simp [Statement, encode, extension, header, opcOf_mkHeader, requestLength]

theorem gray (buf : Word) : Statement (.gray buf) := by
  simp [Statement, encode, extension, header, opcOf_mkHeader, requestLength]

end Sys2Proof.Laws.RequestWords
end

