-- ==== Sys2Proof/Laws/Encoding.lean ====
section
/-! SUPPORT. The header and pair fields read back what was put into them (spec/30_encoding.md R100,
R101). -/

namespace Sys2Proof

@[simp] theorem aOf_mkHeader (opc : Byte) (nb rc : Bool) (a b : Byte) :
    aOf (mkHeader opc nb rc a b) = a := by
  apply BitVec.eq_of_getLsbD_eq
  intro i hi
  interval_cases i <;> simp [aOf, mkHeader]

@[simp] theorem bOf_mkHeader (opc : Byte) (nb rc : Bool) (a b : Byte) :
    bOf (mkHeader opc nb rc a b) = b := by
  apply BitVec.eq_of_getLsbD_eq
  intro i hi
  interval_cases i <;> simp [bOf, mkHeader]

@[simp] theorem nbOf_mkHeader (opc : Byte) (nb rc : Bool) (a b : Byte) :
    nbOf (mkHeader opc nb rc a b) = nb := by simp [nbOf, mkHeader]

@[simp] theorem rcOf_mkHeader (opc : Byte) (nb rc : Bool) (a b : Byte) :
    rcOf (mkHeader opc nb rc a b) = rc := by simp [rcOf, mkHeader]

@[simp] theorem lowHalf_mkPair (a b : Half) : lowHalf (mkPair a b) = a := by
  apply BitVec.eq_of_getLsbD_eq
  intro i hi
  have : i < 32 := by omega
  simp [lowHalf, mkPair, *]

@[simp] theorem highHalf_mkPair (a b : Half) : highHalf (mkPair a b) = b := by
  apply BitVec.eq_of_getLsbD_eq
  intro i hi
  have : 16 + i < 32 := by omega
  simp [highHalf, mkPair, *]

@[simp] theorem mkPair_halves (w : Word) : mkPair (lowHalf w) (highHalf w) = w := by
  apply BitVec.eq_of_getLsbD_eq
  intro i hi
  by_cases h : i < 16
  · simp [lowHalf, highHalf, mkPair, *]
  · have : i - 16 < 16 := by omega
    have : 16 ≤ i := by omega
    simp [lowHalf, highHalf, mkPair, *]

/-- Every request takes at least its header (R103). -/
theorem requestLength_pos (opc : Byte) : 0 < requestLength opc := by
  simp only [requestLength]
  split
  · decide
  · split <;> decide

/-- A row is found by its OPC, or the OPC is in no row (R105). -/
theorem rowOf_cases (opc : Byte) :
    (rowOf opc = none ∧ ∀ r ∈ opTable, opcOf r.pattern ≠ opc) ∨
    ∃ r ∈ opTable, opcOf r.pattern = opc ∧ rowOf opc = some r := by
  cases h : rowOf opc with
  | none => exact .inl ⟨rfl, fun r hr => by simpa using List.find?_eq_none.1 h r hr⟩
  | some r =>
    exact .inr ⟨r, List.mem_of_find?_eq_some h, by simpa using List.find?_some h, rfl⟩

end Sys2Proof
end

