-- ==== Sys2Proof/Laws/State.lean ====
section
/-! SUPPORT. One lemma per state field per update operation, each by rfl, so that no proof unfolds
an update. -/

namespace Sys2Proof.Machine

section emitFields
variable (acts : List Action) (s : State)

@[simp] theorem emit_seq : (emit acts s).seq = seqAdvance acts.length s.seq := rfl
@[simp] theorem emit_todo : (emit acts s).todo = s.todo := rfl
@[simp] theorem emit_busOk : (emit acts s).busOk = s.busOk := rfl
@[simp] theorem emit_reqOk : (emit acts s).reqOk = s.reqOk := rfl
@[simp] theorem emit_m : (emit acts s).m = s.m := rfl
@[simp] theorem emit_n : (emit acts s).n = s.n := rfl
@[simp] theorem emit_mnValid : (emit acts s).mnValid = s.mnValid := rfl
@[simp] theorem emit_wcc : (emit acts s).wcc = s.wcc := rfl
@[simp] theorem emit_life : (emit acts s).life = s.life := rfl
@[simp] theorem emit_status : (emit acts s).status = s.status := rfl
@[simp] theorem emit_pv : (emit acts s).pv = s.pv := rfl
@[simp] theorem emit_maybeBusy : (emit acts s).maybeBusy = s.maybeBusy := rfl
@[simp] theorem emit_lastLut : (emit acts s).lastLut = s.lastLut := rfl
@[simp] theorem emit_fault : (emit acts s).fault = s.fault := rfl
@[simp] theorem emit_scratch : (emit acts s).scratch = s.scratch := rfl
@[simp] theorem emit_fb : (emit acts s).fb = s.fb := rfl
@[simp] theorem emit_fbBase : (emit acts s).fbBase = s.fbBase := rfl
@[simp] theorem emit_fbSize : (emit acts s).fbSize = s.fbSize := rfl
@[simp] theorem emit_req : (emit acts s).req = s.req := rfl
@[simp] theorem emit_rsp : (emit acts s).rsp = s.rsp := rfl
@[simp] theorem emit_trace : (emit acts s).trace = s.trace ++ acts := rfl
@[simp] theorem emit_raised : (emit acts s).raised = s.raised := rfl
@[simp] theorem emit_pollIn : (emit acts s).pollIn = s.pollIn := rfl
@[simp] theorem emit_initIn : (emit acts s).initIn = s.initIn := rfl
@[simp] theorem emit_pollDraws : (emit acts s).pollDraws = s.pollDraws := rfl
@[simp] theorem emit_initDraws : (emit acts s).initDraws = s.initDraws := rfl

end emitFields

section markPvFields
variable (hazard : Bool) (s : State)

@[simp] theorem markPv_seq : (markPv hazard s).seq = s.seq := rfl
@[simp] theorem markPv_todo : (markPv hazard s).todo = s.todo := rfl
@[simp] theorem markPv_busOk : (markPv hazard s).busOk = s.busOk := rfl
@[simp] theorem markPv_reqOk : (markPv hazard s).reqOk = s.reqOk := rfl
@[simp] theorem markPv_m : (markPv hazard s).m = s.m := rfl
@[simp] theorem markPv_n : (markPv hazard s).n = s.n := rfl
@[simp] theorem markPv_mnValid : (markPv hazard s).mnValid = s.mnValid := rfl
@[simp] theorem markPv_wcc : (markPv hazard s).wcc = s.wcc := rfl
@[simp] theorem markPv_life : (markPv hazard s).life = s.life := rfl
@[simp] theorem markPv_status : (markPv hazard s).status = s.status := rfl
@[simp] theorem markPv_pv : (markPv hazard s).pv = (s.pv || hazard) := rfl
@[simp] theorem markPv_maybeBusy : (markPv hazard s).maybeBusy = s.maybeBusy := rfl
@[simp] theorem markPv_lastLut : (markPv hazard s).lastLut = s.lastLut := rfl
@[simp] theorem markPv_fault : (markPv hazard s).fault = s.fault := rfl
@[simp] theorem markPv_scratch : (markPv hazard s).scratch = s.scratch := rfl
@[simp] theorem markPv_fb : (markPv hazard s).fb = s.fb := rfl
@[simp] theorem markPv_fbBase : (markPv hazard s).fbBase = s.fbBase := rfl
@[simp] theorem markPv_fbSize : (markPv hazard s).fbSize = s.fbSize := rfl
@[simp] theorem markPv_req : (markPv hazard s).req = s.req := rfl
@[simp] theorem markPv_rsp : (markPv hazard s).rsp = s.rsp := rfl
@[simp] theorem markPv_trace : (markPv hazard s).trace = s.trace := rfl
@[simp] theorem markPv_raised : (markPv hazard s).raised = s.raised := rfl
@[simp] theorem markPv_pollIn : (markPv hazard s).pollIn = s.pollIn := rfl
@[simp] theorem markPv_initIn : (markPv hazard s).initIn = s.initIn := rfl
@[simp] theorem markPv_pollDraws : (markPv hazard s).pollDraws = s.pollDraws := rfl
@[simp] theorem markPv_initDraws : (markPv hazard s).initDraws = s.initDraws := rfl

end markPvFields

section sendCommandFields
variable (inInit : Bool) (c : Byte) (s : State)

@[simp] theorem sendCommand_seq : (sendCommand inInit c s).seq = seqAdvance 1 s.seq := rfl
@[simp] theorem sendCommand_todo : (sendCommand inInit c s).todo = s.todo := rfl
@[simp] theorem sendCommand_busOk : (sendCommand inInit c s).busOk = s.busOk := rfl
@[simp] theorem sendCommand_reqOk : (sendCommand inInit c s).reqOk = s.reqOk := rfl
@[simp] theorem sendCommand_m : (sendCommand inInit c s).m = s.m := rfl
@[simp] theorem sendCommand_n : (sendCommand inInit c s).n = s.n := rfl
@[simp] theorem sendCommand_mnValid : (sendCommand inInit c s).mnValid = s.mnValid := rfl
@[simp] theorem sendCommand_wcc : (sendCommand inInit c s).wcc = s.wcc := rfl
@[simp] theorem sendCommand_life : (sendCommand inInit c s).life = s.life := rfl
@[simp] theorem sendCommand_status : (sendCommand inInit c s).status = s.status := rfl
@[simp] theorem sendCommand_pv : (sendCommand inInit c s).pv = (s.pv || commandHazard inInit s) := rfl
@[simp] theorem sendCommand_maybeBusy : (sendCommand inInit c s).maybeBusy = s.maybeBusy := rfl
@[simp] theorem sendCommand_lastLut : (sendCommand inInit c s).lastLut = s.lastLut := rfl
@[simp] theorem sendCommand_fault : (sendCommand inInit c s).fault = s.fault := rfl
@[simp] theorem sendCommand_scratch : (sendCommand inInit c s).scratch = s.scratch := rfl
@[simp] theorem sendCommand_fb : (sendCommand inInit c s).fb = s.fb := rfl
@[simp] theorem sendCommand_fbBase : (sendCommand inInit c s).fbBase = s.fbBase := rfl
@[simp] theorem sendCommand_fbSize : (sendCommand inInit c s).fbSize = s.fbSize := rfl
@[simp] theorem sendCommand_req : (sendCommand inInit c s).req = s.req := rfl
@[simp] theorem sendCommand_rsp : (sendCommand inInit c s).rsp = s.rsp := rfl
@[simp] theorem sendCommand_trace : (sendCommand inInit c s).trace = s.trace ++ [.cmd c] := rfl
@[simp] theorem sendCommand_raised : (sendCommand inInit c s).raised = s.raised := rfl
@[simp] theorem sendCommand_pollIn : (sendCommand inInit c s).pollIn = s.pollIn := rfl
@[simp] theorem sendCommand_initIn : (sendCommand inInit c s).initIn = s.initIn := rfl
@[simp] theorem sendCommand_pollDraws : (sendCommand inInit c s).pollDraws = s.pollDraws := rfl
@[simp] theorem sendCommand_initDraws : (sendCommand inInit c s).initDraws = s.initDraws := rfl

end sendCommandFields

section sendDataFields
variable (ds : List Byte) (s : State)

@[simp] theorem sendData_seq : (sendData ds s).seq = seqAdvance (ds.map Action.dat).length s.seq := rfl
@[simp] theorem sendData_todo : (sendData ds s).todo = s.todo := rfl
@[simp] theorem sendData_busOk : (sendData ds s).busOk = s.busOk := rfl
@[simp] theorem sendData_reqOk : (sendData ds s).reqOk = s.reqOk := rfl
@[simp] theorem sendData_m : (sendData ds s).m = s.m := rfl
@[simp] theorem sendData_n : (sendData ds s).n = s.n := rfl
@[simp] theorem sendData_mnValid : (sendData ds s).mnValid = s.mnValid := rfl
@[simp] theorem sendData_wcc : (sendData ds s).wcc = s.wcc := rfl
@[simp] theorem sendData_life : (sendData ds s).life = s.life := rfl
@[simp] theorem sendData_status : (sendData ds s).status = s.status := rfl
@[simp] theorem sendData_pv : (sendData ds s).pv = s.pv := rfl
@[simp] theorem sendData_maybeBusy : (sendData ds s).maybeBusy = s.maybeBusy := rfl
@[simp] theorem sendData_lastLut : (sendData ds s).lastLut = s.lastLut := rfl
@[simp] theorem sendData_fault : (sendData ds s).fault = s.fault := rfl
@[simp] theorem sendData_scratch : (sendData ds s).scratch = s.scratch := rfl
@[simp] theorem sendData_fb : (sendData ds s).fb = s.fb := rfl
@[simp] theorem sendData_fbBase : (sendData ds s).fbBase = s.fbBase := rfl
@[simp] theorem sendData_fbSize : (sendData ds s).fbSize = s.fbSize := rfl
@[simp] theorem sendData_req : (sendData ds s).req = s.req := rfl
@[simp] theorem sendData_rsp : (sendData ds s).rsp = s.rsp := rfl
@[simp] theorem sendData_trace : (sendData ds s).trace = s.trace ++ ds.map .dat := rfl
@[simp] theorem sendData_raised : (sendData ds s).raised = s.raised := rfl
@[simp] theorem sendData_pollIn : (sendData ds s).pollIn = s.pollIn := rfl
@[simp] theorem sendData_initIn : (sendData ds s).initIn = s.initIn := rfl
@[simp] theorem sendData_pollDraws : (sendData ds s).pollDraws = s.pollDraws := rfl
@[simp] theorem sendData_initDraws : (sendData ds s).initDraws = s.initDraws := rfl

end sendDataFields

section recordFaultFields
variable (r : Fault) (s : State)

@[simp] theorem recordFault_seq : (recordFault r s).seq = s.seq := rfl
@[simp] theorem recordFault_todo : (recordFault r s).todo = s.todo := rfl
@[simp] theorem recordFault_busOk : (recordFault r s).busOk = s.busOk := rfl
@[simp] theorem recordFault_reqOk : (recordFault r s).reqOk = s.reqOk := rfl
@[simp] theorem recordFault_m : (recordFault r s).m = s.m := rfl
@[simp] theorem recordFault_n : (recordFault r s).n = s.n := rfl
@[simp] theorem recordFault_mnValid : (recordFault r s).mnValid = s.mnValid := rfl
@[simp] theorem recordFault_wcc : (recordFault r s).wcc = s.wcc := rfl
@[simp] theorem recordFault_life : (recordFault r s).life = s.life := rfl
@[simp] theorem recordFault_status : (recordFault r s).status = s.status := rfl
@[simp] theorem recordFault_pv : (recordFault r s).pv = s.pv := rfl
@[simp] theorem recordFault_maybeBusy : (recordFault r s).maybeBusy = s.maybeBusy := rfl
@[simp] theorem recordFault_lastLut : (recordFault r s).lastLut = s.lastLut := rfl
@[simp] theorem recordFault_fault : (recordFault r s).fault = (match s.fault with | none => some r | some first => some first) := rfl
@[simp] theorem recordFault_scratch : (recordFault r s).scratch = s.scratch := rfl
@[simp] theorem recordFault_fb : (recordFault r s).fb = s.fb := rfl
@[simp] theorem recordFault_fbBase : (recordFault r s).fbBase = s.fbBase := rfl
@[simp] theorem recordFault_fbSize : (recordFault r s).fbSize = s.fbSize := rfl
@[simp] theorem recordFault_req : (recordFault r s).req = s.req := rfl
@[simp] theorem recordFault_rsp : (recordFault r s).rsp = s.rsp := rfl
@[simp] theorem recordFault_trace : (recordFault r s).trace = s.trace := rfl
@[simp] theorem recordFault_raised : (recordFault r s).raised = s.raised := rfl
@[simp] theorem recordFault_pollIn : (recordFault r s).pollIn = s.pollIn := rfl
@[simp] theorem recordFault_initIn : (recordFault r s).initIn = s.initIn := rfl
@[simp] theorem recordFault_pollDraws : (recordFault r s).pollDraws = s.pollDraws := rfl
@[simp] theorem recordFault_initDraws : (recordFault r s).initDraws = s.initDraws := rfl

end recordFaultFields

section busInitOpFields
variable (s : State)

@[simp] theorem busInitOp_seq : (busInitOp s).seq = seqAdvance 1 s.seq := rfl
@[simp] theorem busInitOp_todo : (busInitOp s).todo = s.todo := rfl
@[simp] theorem busInitOp_busOk : (busInitOp s).busOk = (nextAnswer Config.freeInit s.initIn s.initDraws).1 := rfl
@[simp] theorem busInitOp_reqOk : (busInitOp s).reqOk = (s.reqOk && (nextAnswer Config.freeInit s.initIn s.initDraws).1) := rfl
@[simp] theorem busInitOp_m : (busInitOp s).m = s.m := rfl
@[simp] theorem busInitOp_n : (busInitOp s).n = s.n := rfl
@[simp] theorem busInitOp_mnValid : (busInitOp s).mnValid = s.mnValid := rfl
@[simp] theorem busInitOp_wcc : (busInitOp s).wcc = s.wcc := rfl
@[simp] theorem busInitOp_life : (busInitOp s).life = s.life := rfl
@[simp] theorem busInitOp_status : (busInitOp s).status = s.status := rfl
@[simp] theorem busInitOp_pv : (busInitOp s).pv = s.pv := rfl
@[simp] theorem busInitOp_maybeBusy : (busInitOp s).maybeBusy = s.maybeBusy := rfl
@[simp] theorem busInitOp_lastLut : (busInitOp s).lastLut = s.lastLut := rfl
@[simp] theorem busInitOp_fault : (busInitOp s).fault = s.fault := rfl
@[simp] theorem busInitOp_scratch : (busInitOp s).scratch = s.scratch := rfl
@[simp] theorem busInitOp_fb : (busInitOp s).fb = s.fb := rfl
@[simp] theorem busInitOp_fbBase : (busInitOp s).fbBase = s.fbBase := rfl
@[simp] theorem busInitOp_fbSize : (busInitOp s).fbSize = s.fbSize := rfl
@[simp] theorem busInitOp_req : (busInitOp s).req = s.req := rfl
@[simp] theorem busInitOp_rsp : (busInitOp s).rsp = s.rsp := rfl
@[simp] theorem busInitOp_trace : (busInitOp s).trace = s.trace ++ [.busInit (nextAnswer Config.freeInit s.initIn s.initDraws).1] := rfl
@[simp] theorem busInitOp_raised : (busInitOp s).raised = s.raised := rfl
@[simp] theorem busInitOp_pollIn : (busInitOp s).pollIn = s.pollIn := rfl
@[simp] theorem busInitOp_initIn : (busInitOp s).initIn = (nextAnswer Config.freeInit s.initIn s.initDraws).2.1 := rfl
@[simp] theorem busInitOp_pollDraws : (busInitOp s).pollDraws = s.pollDraws := rfl
@[simp] theorem busInitOp_initDraws : (busInitOp s).initDraws = (nextAnswer Config.freeInit s.initIn s.initDraws).2.2 := rfl

end busInitOpFields

section panelIdleFields
variable (s : State)

@[simp] theorem panelIdle_seq : (panelIdle s).seq = s.seq := rfl
@[simp] theorem panelIdle_todo : (panelIdle s).todo = s.todo := rfl
@[simp] theorem panelIdle_busOk : (panelIdle s).busOk = s.busOk := rfl
@[simp] theorem panelIdle_reqOk : (panelIdle s).reqOk = s.reqOk := rfl
@[simp] theorem panelIdle_m : (panelIdle s).m = s.m := rfl
@[simp] theorem panelIdle_n : (panelIdle s).n = s.n := rfl
@[simp] theorem panelIdle_mnValid : (panelIdle s).mnValid = s.mnValid := rfl
@[simp] theorem panelIdle_wcc : (panelIdle s).wcc = s.wcc := rfl
@[simp] theorem panelIdle_life : (panelIdle s).life = s.life := rfl
@[simp] theorem panelIdle_status : (panelIdle s).status = s.status := rfl
@[simp] theorem panelIdle_pv : (panelIdle s).pv = s.pv := rfl
@[simp] theorem panelIdle_maybeBusy : (panelIdle s).maybeBusy = false := rfl
@[simp] theorem panelIdle_lastLut : (panelIdle s).lastLut = s.lastLut := rfl
@[simp] theorem panelIdle_fault : (panelIdle s).fault = s.fault := rfl
@[simp] theorem panelIdle_scratch : (panelIdle s).scratch = s.scratch := rfl
@[simp] theorem panelIdle_fb : (panelIdle s).fb = s.fb := rfl
@[simp] theorem panelIdle_fbBase : (panelIdle s).fbBase = s.fbBase := rfl
@[simp] theorem panelIdle_fbSize : (panelIdle s).fbSize = s.fbSize := rfl
@[simp] theorem panelIdle_req : (panelIdle s).req = s.req := rfl
@[simp] theorem panelIdle_rsp : (panelIdle s).rsp = s.rsp := rfl
@[simp] theorem panelIdle_trace : (panelIdle s).trace = s.trace := rfl
@[simp] theorem panelIdle_raised : (panelIdle s).raised = s.raised := rfl
@[simp] theorem panelIdle_pollIn : (panelIdle s).pollIn = s.pollIn := rfl
@[simp] theorem panelIdle_initIn : (panelIdle s).initIn = s.initIn := rfl
@[simp] theorem panelIdle_pollDraws : (panelIdle s).pollDraws = s.pollDraws := rfl
@[simp] theorem panelIdle_initDraws : (panelIdle s).initDraws = s.initDraws := rfl

end panelIdleFields

section resetOpFields
variable (s : State)

@[simp] theorem resetOp_seq : (resetOp s).seq = seqAdvance 4 s.seq := rfl
@[simp] theorem resetOp_todo : (resetOp s).todo = s.todo := rfl
@[simp] theorem resetOp_busOk : (resetOp s).busOk = s.busOk := rfl
@[simp] theorem resetOp_reqOk : (resetOp s).reqOk = s.reqOk := rfl
@[simp] theorem resetOp_m : (resetOp s).m = s.m := rfl
@[simp] theorem resetOp_n : (resetOp s).n = s.n := rfl
@[simp] theorem resetOp_mnValid : (resetOp s).mnValid = s.mnValid := rfl
@[simp] theorem resetOp_wcc : (resetOp s).wcc = s.wcc := rfl
@[simp] theorem resetOp_life : (resetOp s).life = .uninit := rfl
@[simp] theorem resetOp_status : (resetOp s).status = s.status := rfl
@[simp] theorem resetOp_pv : (resetOp s).pv = s.pv := rfl
@[simp] theorem resetOp_maybeBusy : (resetOp s).maybeBusy = false := rfl
@[simp] theorem resetOp_lastLut : (resetOp s).lastLut = .none := rfl
@[simp] theorem resetOp_fault : (resetOp s).fault = s.fault := rfl
@[simp] theorem resetOp_scratch : (resetOp s).scratch = s.scratch := rfl
@[simp] theorem resetOp_fb : (resetOp s).fb = s.fb := rfl
@[simp] theorem resetOp_fbBase : (resetOp s).fbBase = s.fbBase := rfl
@[simp] theorem resetOp_fbSize : (resetOp s).fbSize = s.fbSize := rfl
@[simp] theorem resetOp_req : (resetOp s).req = s.req := rfl
@[simp] theorem resetOp_rsp : (resetOp s).rsp = s.rsp := rfl
@[simp] theorem resetOp_trace : (resetOp s).trace = s.trace ++ [.pin .low, .delay 200, .pin .high, .delay 200] := rfl
@[simp] theorem resetOp_raised : (resetOp s).raised = s.raised := rfl
@[simp] theorem resetOp_pollIn : (resetOp s).pollIn = s.pollIn := rfl
@[simp] theorem resetOp_initIn : (resetOp s).initIn = s.initIn := rfl
@[simp] theorem resetOp_pollDraws : (resetOp s).pollDraws = s.pollDraws := rfl
@[simp] theorem resetOp_initDraws : (resetOp s).initDraws = s.initDraws := rfl

end resetOpFields

section storeCoeffsOpFields
variable (cm cn : Byte) (s : State)

@[simp] theorem storeCoeffsOp_seq : (storeCoeffsOp cm cn s).seq = s.seq := rfl
@[simp] theorem storeCoeffsOp_todo : (storeCoeffsOp cm cn s).todo = s.todo := rfl
@[simp] theorem storeCoeffsOp_busOk : (storeCoeffsOp cm cn s).busOk = s.busOk := rfl
@[simp] theorem storeCoeffsOp_reqOk : (storeCoeffsOp cm cn s).reqOk = s.reqOk := rfl
@[simp] theorem storeCoeffsOp_m : (storeCoeffsOp cm cn s).m = cm := rfl
@[simp] theorem storeCoeffsOp_n : (storeCoeffsOp cm cn s).n = cn := rfl
@[simp] theorem storeCoeffsOp_mnValid : (storeCoeffsOp cm cn s).mnValid = true := rfl
@[simp] theorem storeCoeffsOp_wcc : (storeCoeffsOp cm cn s).wcc = s.wcc := rfl
@[simp] theorem storeCoeffsOp_life : (storeCoeffsOp cm cn s).life = lifeAfterInit s.life := rfl
@[simp] theorem storeCoeffsOp_status : (storeCoeffsOp cm cn s).status = s.status := rfl
@[simp] theorem storeCoeffsOp_pv : (storeCoeffsOp cm cn s).pv = s.pv := rfl
@[simp] theorem storeCoeffsOp_maybeBusy : (storeCoeffsOp cm cn s).maybeBusy = s.maybeBusy := rfl
@[simp] theorem storeCoeffsOp_lastLut : (storeCoeffsOp cm cn s).lastLut = s.lastLut := rfl
@[simp] theorem storeCoeffsOp_fault : (storeCoeffsOp cm cn s).fault = s.fault := rfl
@[simp] theorem storeCoeffsOp_scratch : (storeCoeffsOp cm cn s).scratch = s.scratch := rfl
@[simp] theorem storeCoeffsOp_fb : (storeCoeffsOp cm cn s).fb = s.fb := rfl
@[simp] theorem storeCoeffsOp_fbBase : (storeCoeffsOp cm cn s).fbBase = s.fbBase := rfl
@[simp] theorem storeCoeffsOp_fbSize : (storeCoeffsOp cm cn s).fbSize = s.fbSize := rfl
@[simp] theorem storeCoeffsOp_req : (storeCoeffsOp cm cn s).req = s.req := rfl
@[simp] theorem storeCoeffsOp_rsp : (storeCoeffsOp cm cn s).rsp = s.rsp := rfl
@[simp] theorem storeCoeffsOp_trace : (storeCoeffsOp cm cn s).trace = s.trace := rfl
@[simp] theorem storeCoeffsOp_raised : (storeCoeffsOp cm cn s).raised = s.raised := rfl
@[simp] theorem storeCoeffsOp_pollIn : (storeCoeffsOp cm cn s).pollIn = s.pollIn := rfl
@[simp] theorem storeCoeffsOp_initIn : (storeCoeffsOp cm cn s).initIn = s.initIn := rfl
@[simp] theorem storeCoeffsOp_pollDraws : (storeCoeffsOp cm cn s).pollDraws = s.pollDraws := rfl
@[simp] theorem storeCoeffsOp_initDraws : (storeCoeffsOp cm cn s).initDraws = s.initDraws := rfl

end storeCoeffsOpFields

section completeFields
variable (s : State)

@[simp] theorem complete_seq : (complete s).seq = .idle := rfl
@[simp] theorem complete_todo : (complete s).todo = [] := rfl
@[simp] theorem complete_busOk : (complete s).busOk = true := rfl
@[simp] theorem complete_reqOk : (complete s).reqOk = true := rfl
@[simp] theorem complete_m : (complete s).m = s.m := rfl
@[simp] theorem complete_n : (complete s).n = s.n := rfl
@[simp] theorem complete_mnValid : (complete s).mnValid = s.mnValid := rfl
@[simp] theorem complete_wcc : (complete s).wcc = s.wcc := rfl
@[simp] theorem complete_life : (complete s).life = s.life := rfl
@[simp] theorem complete_status : (complete s).status = completionStatus s.reqOk := rfl
@[simp] theorem complete_pv : (complete s).pv = s.pv := rfl
@[simp] theorem complete_maybeBusy : (complete s).maybeBusy = s.maybeBusy := rfl
@[simp] theorem complete_lastLut : (complete s).lastLut = s.lastLut := rfl
@[simp] theorem complete_fault : (complete s).fault = s.fault := rfl
@[simp] theorem complete_scratch : (complete s).scratch = s.scratch := rfl
@[simp] theorem complete_fb : (complete s).fb = s.fb := rfl
@[simp] theorem complete_fbBase : (complete s).fbBase = s.fbBase := rfl
@[simp] theorem complete_fbSize : (complete s).fbSize = s.fbSize := rfl
@[simp] theorem complete_req : (complete s).req = s.req := rfl
@[simp] theorem complete_rsp : (complete s).rsp = s.rsp ++ [completionStatus s.reqOk] := rfl
@[simp] theorem complete_trace : (complete s).trace = s.trace := rfl
@[simp] theorem complete_raised : (complete s).raised = s.raised := rfl
@[simp] theorem complete_pollIn : (complete s).pollIn = s.pollIn := rfl
@[simp] theorem complete_initIn : (complete s).initIn = s.initIn := rfl
@[simp] theorem complete_pollDraws : (complete s).pollDraws = s.pollDraws := rfl
@[simp] theorem complete_initDraws : (complete s).initDraws = s.initDraws := rfl

end completeFields

section takeUpFields
variable (i : Instr) (s : State)

@[simp] theorem takeUp_seq : (takeUp i s).seq = .run i 0 := rfl
@[simp] theorem takeUp_todo : (takeUp i s).todo = [] := rfl
@[simp] theorem takeUp_busOk : (takeUp i s).busOk = true := rfl
@[simp] theorem takeUp_reqOk : (takeUp i s).reqOk = true := rfl
@[simp] theorem takeUp_m : (takeUp i s).m = s.m := rfl
@[simp] theorem takeUp_n : (takeUp i s).n = s.n := rfl
@[simp] theorem takeUp_mnValid : (takeUp i s).mnValid = s.mnValid := rfl
@[simp] theorem takeUp_wcc : (takeUp i s).wcc = s.wcc := rfl
@[simp] theorem takeUp_life : (takeUp i s).life = s.life := rfl
@[simp] theorem takeUp_status : (takeUp i s).status = s.status := rfl
@[simp] theorem takeUp_pv : (takeUp i s).pv = s.pv := rfl
@[simp] theorem takeUp_maybeBusy : (takeUp i s).maybeBusy = s.maybeBusy := rfl
@[simp] theorem takeUp_lastLut : (takeUp i s).lastLut = s.lastLut := rfl
@[simp] theorem takeUp_fault : (takeUp i s).fault = s.fault := rfl
@[simp] theorem takeUp_scratch : (takeUp i s).scratch = s.scratch := rfl
@[simp] theorem takeUp_fb : (takeUp i s).fb = s.fb := rfl
@[simp] theorem takeUp_fbBase : (takeUp i s).fbBase = s.fbBase := rfl
@[simp] theorem takeUp_fbSize : (takeUp i s).fbSize = s.fbSize := rfl
@[simp] theorem takeUp_req : (takeUp i s).req = s.req := rfl
@[simp] theorem takeUp_rsp : (takeUp i s).rsp = s.rsp := rfl
@[simp] theorem takeUp_trace : (takeUp i s).trace = s.trace := rfl
@[simp] theorem takeUp_raised : (takeUp i s).raised = s.raised := rfl
@[simp] theorem takeUp_pollIn : (takeUp i s).pollIn = s.pollIn := rfl
@[simp] theorem takeUp_initIn : (takeUp i s).initIn = s.initIn := rfl
@[simp] theorem takeUp_pollDraws : (takeUp i s).pollDraws = s.pollDraws := rfl
@[simp] theorem takeUp_initDraws : (takeUp i s).initDraws = s.initDraws := rfl

end takeUpFields

section raiseIllegalFields
variable (h : Word) (s : State)

@[simp] theorem raiseIllegal_seq : (raiseIllegal h s).seq = s.seq := rfl
@[simp] theorem raiseIllegal_todo : (raiseIllegal h s).todo = s.todo := rfl
@[simp] theorem raiseIllegal_busOk : (raiseIllegal h s).busOk = s.busOk := rfl
@[simp] theorem raiseIllegal_reqOk : (raiseIllegal h s).reqOk = s.reqOk := rfl
@[simp] theorem raiseIllegal_m : (raiseIllegal h s).m = s.m := rfl
@[simp] theorem raiseIllegal_n : (raiseIllegal h s).n = s.n := rfl
@[simp] theorem raiseIllegal_mnValid : (raiseIllegal h s).mnValid = s.mnValid := rfl
@[simp] theorem raiseIllegal_wcc : (raiseIllegal h s).wcc = s.wcc := rfl
@[simp] theorem raiseIllegal_life : (raiseIllegal h s).life = s.life := rfl
@[simp] theorem raiseIllegal_status : (raiseIllegal h s).status = statusIllegal := rfl
@[simp] theorem raiseIllegal_pv : (raiseIllegal h s).pv = s.pv := rfl
@[simp] theorem raiseIllegal_maybeBusy : (raiseIllegal h s).maybeBusy = s.maybeBusy := rfl
@[simp] theorem raiseIllegal_lastLut : (raiseIllegal h s).lastLut = s.lastLut := rfl
@[simp] theorem raiseIllegal_fault : (raiseIllegal h s).fault = s.fault := rfl
@[simp] theorem raiseIllegal_scratch : (raiseIllegal h s).scratch = s.scratch := rfl
@[simp] theorem raiseIllegal_fb : (raiseIllegal h s).fb = s.fb := rfl
@[simp] theorem raiseIllegal_fbBase : (raiseIllegal h s).fbBase = s.fbBase := rfl
@[simp] theorem raiseIllegal_fbSize : (raiseIllegal h s).fbSize = s.fbSize := rfl
@[simp] theorem raiseIllegal_req : (raiseIllegal h s).req = s.req := rfl
@[simp] theorem raiseIllegal_rsp : (raiseIllegal h s).rsp = s.rsp ++ [statusIllegal] := rfl
@[simp] theorem raiseIllegal_trace : (raiseIllegal h s).trace = s.trace := rfl
@[simp] theorem raiseIllegal_raised : (raiseIllegal h s).raised = s.raised ++ [h] := rfl
@[simp] theorem raiseIllegal_pollIn : (raiseIllegal h s).pollIn = s.pollIn := rfl
@[simp] theorem raiseIllegal_initIn : (raiseIllegal h s).initIn = s.initIn := rfl
@[simp] theorem raiseIllegal_pollDraws : (raiseIllegal h s).pollDraws = s.pollDraws := rfl
@[simp] theorem raiseIllegal_initDraws : (raiseIllegal h s).initDraws = s.initDraws := rfl

end raiseIllegalFields

section consumeFields
variable (rest : List Word) (s : State)

@[simp] theorem consume_seq : (consume rest s).seq = s.seq := rfl
@[simp] theorem consume_todo : (consume rest s).todo = s.todo := rfl
@[simp] theorem consume_busOk : (consume rest s).busOk = s.busOk := rfl
@[simp] theorem consume_reqOk : (consume rest s).reqOk = s.reqOk := rfl
@[simp] theorem consume_m : (consume rest s).m = s.m := rfl
@[simp] theorem consume_n : (consume rest s).n = s.n := rfl
@[simp] theorem consume_mnValid : (consume rest s).mnValid = s.mnValid := rfl
@[simp] theorem consume_wcc : (consume rest s).wcc = s.wcc := rfl
@[simp] theorem consume_life : (consume rest s).life = s.life := rfl
@[simp] theorem consume_status : (consume rest s).status = s.status := rfl
@[simp] theorem consume_pv : (consume rest s).pv = s.pv := rfl
@[simp] theorem consume_maybeBusy : (consume rest s).maybeBusy = s.maybeBusy := rfl
@[simp] theorem consume_lastLut : (consume rest s).lastLut = s.lastLut := rfl
@[simp] theorem consume_fault : (consume rest s).fault = s.fault := rfl
@[simp] theorem consume_scratch : (consume rest s).scratch = s.scratch := rfl
@[simp] theorem consume_fb : (consume rest s).fb = s.fb := rfl
@[simp] theorem consume_fbBase : (consume rest s).fbBase = s.fbBase := rfl
@[simp] theorem consume_fbSize : (consume rest s).fbSize = s.fbSize := rfl
@[simp] theorem consume_req : (consume rest s).req = rest := rfl
@[simp] theorem consume_rsp : (consume rest s).rsp = s.rsp := rfl
@[simp] theorem consume_trace : (consume rest s).trace = s.trace := rfl
@[simp] theorem consume_raised : (consume rest s).raised = s.raised := rfl
@[simp] theorem consume_pollIn : (consume rest s).pollIn = s.pollIn := rfl
@[simp] theorem consume_initIn : (consume rest s).initIn = s.initIn := rfl
@[simp] theorem consume_pollDraws : (consume rest s).pollDraws = s.pollDraws := rfl
@[simp] theorem consume_initDraws : (consume rest s).initDraws = s.initDraws := rfl

end consumeFields

end Sys2Proof.Machine
end

