-- ==== Sys2Proof/Laws/Run.lean ====
section
/-! SUPPORT. One lemma per shared operation saying what it does, cited instead of unfolding it:
emission, the answers, the reads, and the run of an expansion. -/

namespace Sys2Proof.Machine

open Sys2Proof.Safety

/-! ## Emission -/

@[simp] theorem seqAdvance_zero (q : Seq) : seqAdvance 0 q = q := by cases q <;> rfl

@[simp] theorem seqAdvance_idle (n : Nat) : seqAdvance n .idle = .idle := rfl

@[simp] theorem seqAdvance_run (n k : Nat) (i : Instr) :
    seqAdvance n (.run i k) = .run i (k + n) := rfl

@[simp] theorem seqAdvance_seqAdvance (a b : Nat) (q : Seq) :
    seqAdvance b (seqAdvance a q) = seqAdvance (a + b) q := by
  cases q <;> simp [Nat.add_assoc]

@[simp] theorem emit_nil (s : State) : emit [] s = s := by simp [emit]

@[simp] theorem emit_emit (a b : List Action) (s : State) :
    emit b (emit a s) = emit (a ++ b) s := by simp [emit]

theorem sendData_eq (ds : List Byte) (s : State) : sendData ds s = emit (ds.map .dat) s := rfl

/-! ## Running lists of micro-operations -/

/-- An expansion runs piece by piece. -/
theorem runMicros_append (P : Config.Params) (xs ys : List Micro) (s : State) :
    runMicros P (xs ++ ys) s =
      match runMicros P xs s with
      | .done s' => runMicros P ys s'
      | .held s' todo => .held s' (todo ++ ys)
      | .stopped s' todo => .stopped s' (todo ++ ys) := by
  induction xs generalizing s with
  | nil => rfl
  | cons op rest ih =>
    simp only [List.cons_append, runMicros]
    cases runMicro P op s <;> simp [ih]

theorem runMicros_append_done {P : Config.Params} {xs : List Micro} {s s' : State}
    (h : runMicros P xs s = .done s') (ys : List Micro) :
    runMicros P (xs ++ ys) s = runMicros P ys s' := by
  rw [runMicros_append, h]

theorem runMicros_cons_go {P : Config.Params} {op : Micro} {s s' : State}
    (h : runMicro P op s = .go s') (rest : List Micro) :
    runMicros P (op :: rest) s = runMicros P rest s' := by
  simp [runMicros, h]

theorem runMicros_cons_hold {P : Config.Params} {op : Micro} {s s' : State}
    (h : runMicro P op s = .hold s') (rest : List Micro) :
    runMicros P (op :: rest) s = .held s' (op :: rest) := by
  simp [runMicros, h]

theorem runMicros_cons_stop {P : Config.Params} {op : Micro} {s s' : State}
    (h : runMicro P op s = .stop s') (rest : List Micro) :
    runMicros P (op :: rest) s = .stopped s' (op :: rest) := by
  simp [runMicros, h]

/-- A guarded expansion does nothing while the last BUSINIT failed. -/
theorem runMicros_ifUp_down (P : Config.Params) (xs : List Micro) (s : State)
    (h : s.busOk = false) : runMicros P (xs.map .ifUp) s = .done s := by
  induction xs with
  | nil => rfl
  | cons op rest ih => simp [runMicros, runMicro, h, ih]

/-- The micro-operation asks for no BUSINIT answer. -/
def asksNoBus : Micro → Bool
  | .busInit => false
  | .ifUp op => asksNoBus op
  | _ => true

/-- The state a micro-operation leaves. -/
def microState : MicroEnd → State
  | .go s => s
  | .hold s => s
  | .stop s => s

@[simp] theorem microState_go (s : State) : microState (.go s) = s := rfl
@[simp] theorem microState_hold (s : State) : microState (.hold s) = s := rfl
@[simp] theorem microState_stop (s : State) : microState (.stop s) = s := rfl

/-- The state a run leaves, before it is settled. -/
def runState : RunEnd → State
  | .done s => s
  | .held s _ => s
  | .stopped s _ => s

@[simp] theorem runState_done (s : State) : runState (.done s) = s := rfl
@[simp] theorem runState_held (s : State) (todo : List Micro) : runState (.held s todo) = s := rfl
@[simp] theorem runState_stopped (s : State) (todo : List Micro) :
    runState (.stopped s todo) = s := rfl

/-- A run whose first step goes on. -/
theorem core_run_next {s t : State} (h : step s = .next t) (n : Nat) :
    core.run (n + 1) s = core.run n t := by
  have : core.step s = .next t := h
  simp only [Host.Core.run, this]

/-- A run in two pieces. -/
theorem core_run_add {s t u : State} {k n : Nat} (h : core.run k s = .next t)
    (h' : core.run n t = .next u) : core.run (k + n) s = .next u := by
  induction k generalizing s with
  | zero =>
    injection h with h
    subst h
    simpa using h'
  | succ k ih =>
    rw [Nat.succ_add]
    simp only [Host.Core.run] at h ⊢
    cases hs : core.step s with
    | next s' =>
      simp only [hs] at h ⊢
      exact ih h
    | fault r => simp [hs] at h
    | refused r => simp [hs] at h

/-- The fairness premise of a run is one of each run that goes on from it. -/
theorem fairRun_next {s t : State} (h : FairRun s) (hs : step s = .next t) : FairRun t :=
  fun k u hu => h (k + 1) u ((core_run_next hs k).trans hu)

theorem fairRun_run {s t : State} {k : Nat} (h : FairRun s) (hs : core.run k s = .next t) :
    FairRun t :=
  fun n u hu => h (k + n) u (core_run_add hs hu)

/-- A panel that never stays busy for ever is fair in every run. -/
theorem fairRun_of_free (h : ∀ n, ∃ k, Config.freeBusy (n + k) = false) (s : State) : FairRun s :=
  fun _ u _ _ _ => .inr (h u.pollDraws)

/-! ## Answers -/

theorem waitActions_succ (q : Nat) :
    waitActions (q + 1) = [.poll true, .delay 1] ++ waitActions q := by
  simp [waitActions, List.replicate_succ]

theorem waitBusy_listed (q : Nat) (ps : List Bool) (s : State) :
    waitBusy (List.replicate q true ++ false :: ps) s =
      .go (panelIdle (emit (waitActions q) { s with pollIn := ps })) := by
  induction q generalizing s with
  | zero => simp [waitBusy, waitActions]
  | succ q ih =>
    simp only [List.replicate_succ, List.cons_append, waitBusy, ih]
    rw [waitActions_succ, ← emit_emit]
    rfl

/-- WaitBusy with listed answers: it polls them through and the panel is idle (40 R134). -/
theorem runMicro_waitBusy {P : Config.Params} {q : Nat} {ps : List Bool} {s : State}
    (h : s.pollIn = pollsOf [q] ++ ps) :
    runMicro P .waitBusy s =
      .go (panelIdle (emit (waitActions q) { s with pollIn := ps })) := by
  simp only [runMicro, h, pollsOf]
  simpa using waitBusy_listed q ps s

/-- WaitBusy with busy answers alone listed: the next one is a free draw, and a busy draw holds
(40 R134, 60 R258). -/
theorem waitBusy_unlisted (q : Nat) (s : State) :
    waitBusy (List.replicate q true) s =
      if Config.freeBusy s.pollDraws then
        .hold (emit (List.replicate (q + 1) [Action.poll true, .delay 1]).flatten
          { s with pollIn := [], pollDraws := s.pollDraws + 1 })
      else
        .go (panelIdle (emit (waitActions q)
          { s with pollIn := [], pollDraws := s.pollDraws + 1 })) := by
  induction q generalizing s with
  | zero => rfl
  | succ q ih =>
    simp only [List.replicate_succ, waitBusy, ih]
    cases hb : Config.freeBusy s.pollDraws
    · simp only [emit_pollDraws, hb, Bool.false_eq_true, if_false]
      rw [waitActions_succ, ← emit_emit]
      rfl
    · simp only [emit_pollDraws, hb, if_true]
      refine congrArg MicroEnd.hold ?_
      apply State.ext <;> simp
      exact congrArg (seqAdvance · s.seq) (by omega)

/-- A listed not-busy answer comes after some busy ones, or every listed answer is busy. -/
theorem polls_cases (l : List Bool) :
    (∃ q ps, l = pollsOf [q] ++ ps) ∨ ∃ q, l = List.replicate q true := by
  induction l with
  | nil => exact .inr ⟨0, rfl⟩
  | cons b l ih =>
    cases b
    · exact .inl ⟨0, l, rfl⟩
    · obtain ⟨q, ps, rfl⟩ | ⟨q, rfl⟩ := ih
      · exact .inl ⟨q + 1, ps, by simp [pollsOf, List.replicate_succ]⟩
      · exact .inr ⟨q + 1, rfl⟩

theorem nextAnswer_listed (free : Nat → Bool) (b : Bool) (rest : List Bool) (d : Nat) :
    nextAnswer free (b :: rest) d = (b, rest, d) := rfl

/-- BUSINIT with a listed answer (40 R138). -/
theorem busInitOp_listed {b : Bool} {rest : List Bool} {s : State} (h : s.initIn = b :: rest) :
    busInitOp s =
      emit [.busInit b] { s with initIn := rest, busOk := b, reqOk := s.reqOk && b } := by
  simp [busInitOp, h, nextAnswer]

/-! ## Reads -/

theorem sendReads_ok (bs : List Byte) (s : State) :
    sendReads (bs.map .ok) s = .go (sendData bs s) := by
  induction bs generalizing s with
  | nil => simp [sendReads, sendData_eq]
  | cons b rest ih => simp [sendReads, ih, sendData_eq]

/-- A faulting read stops the sequencer after the bytes before it (60 R255). -/
theorem sendReads_error (bs : List Byte) (r : Fault) (rest : List (Except Fault Byte))
    (s : State) :
    sendReads (bs.map .ok ++ .error r :: rest) s = .stop (recordFault r (sendData bs s)) := by
  induction bs generalizing s with
  | nil => simp [sendReads, sendData_eq]
  | cons b bs ih => simp [sendReads, ih, sendData_eq]

theorem gather_ok (bs : List Byte) : gather (bs.map .ok) = .ok bs := by
  induction bs with
  | nil => rfl
  | cons b bs ih => simp [gather, ih]

theorem memRead_ok {s : State} {a n i : Nat} (h : Readable s a n) (hi : i < n) :
    memRead s (a + i) = .ok (memGet s.fb (a + i)) := by
  obtain ⟨h1, h2, h3⟩ := h
  have : inWindow s (a + i) = true := by
    simp only [inWindow, Bool.and_eq_true, decide_eq_true_eq]
    omega
  simp [memRead, this]

theorem readable_sub {s : State} {a n b k : Nat} (h : Readable s a n) (hb : b + k ≤ n) :
    Readable s (a + b) k := by
  obtain ⟨h1, h2, h3⟩ := h
  exact ⟨by omega, by omega, by omega⟩

theorem memReads_ok {s : State} {a n : Nat} (h : Readable s a n) :
    (List.range n).map (fun i => memRead s (a + i)) = (fbBytes s a n).map .ok := by
  simp only [fbBytes, List.map_map]
  exact List.map_congr_left fun i hi => memRead_ok h (List.mem_range.1 hi)

/-- The frame data of a readable buffer (20 R75). -/
theorem runMicro_frame {P : Config.Params} {s : State} {a n : Nat} (h : Readable s a n) :
    runMicro P (.frame a n) s = .go (sendData (fbBytes s a n) s) := by
  simp only [runMicro, memReads_ok h, sendReads_ok]

/-- No frame data is no read, wherever the buffer lies (42 R171). -/
theorem runMicro_frame_none (P : Config.Params) (s : State) (a : Nat) :
    runMicro P (.frame a 0) s = .go (sendData (fbBytes s a 0) s) := by
  simp [runMicro, sendReads, fbBytes, sendData_eq]

theorem memRead_error {s : State} {a : Nat} (h : inWindow s a = false) :
    memRead s a = .error (.fbOutOfRange a) := by simp [memRead, h]

theorem memRead_window {s : State} {a : Nat} (h : inWindow s a = true) :
    memRead s a = .ok (memGet s.fb a) := by simp [memRead, h]

/-- SendLut never reads past a table (20 R72). -/
theorem lutByte_ok {P : Config.Params} {v : Variant} {t : Table} {ov : Overrides} {i : Nat}
    (h : i < lutLen t) :
    lutByte P v t ov i = .ok ((overrideAt ov t i).getD (P.lutRom (romAddr v t i))) := by
  simp only [lutByte]
  cases overrideAt ov t i <;> simp [lutRead, h]

/-- One table's data bytes (45 R241). -/
theorem runMicro_lut (P : Config.Params) (v : Variant) (t : Table) (ov : Overrides) (s : State) :
    runMicro P (.lut v t ov) s = .go (sendData (lutBytes P v ov t) s) := by
  have : (List.range (lutLen t)).map (lutByte P v t ov) = (lutBytes P v ov t).map .ok := by
    simp only [lutBytes, List.map_map]
    exact List.map_congr_left fun i hi => lutByte_ok (List.mem_range.1 hi)
  simp only [runMicro, this, sendReads_ok]

theorem groupSamples_ok {s : State} {a g : Nat} (h : Readable s (a + 8 * g) 8) :
    groupSamples s a g = .ok (fbBytes s (a + 8 * g) 8) := by
  simp only [groupSamples, memReads_ok h, gather_ok]

/-- Packing groups of a readable row changes the scratch row alone. -/
theorem packGroups_ok {a t : Nat} (gs : List Nat) (s : State)
    (h : ∀ g ∈ gs, Readable s (a + 8 * g) 8) :
    packGroups a t gs s = .go { s with
      scratch := gs.foldl
        (fun v g => v.setIfInBounds g (pack8 t (fbBytes s (a + 8 * g) 8))) s.scratch } := by
  induction gs generalizing s with
  | nil => simp [packGroups]
  | cons g gs ih =>
    simp only [packGroups, groupSamples_ok (h g (by simp)), List.foldl_cons]
    rw [ih]
    · rfl
    · intro g' hg'
      exact h g' (by simp [hg'])

theorem foldl_setIfInBounds {n : Nat} (f : Nat → Byte) (k : Nat) (v : Vector Byte n) (i : Nat)
    (hi : i < n) :
    ((List.range k).foldl (fun v g => v.setIfInBounds g (f g)) v)[i] =
      if i < k then f i else v[i] := by
  induction k with
  | zero => simp
  | succ k ih =>
    rw [List.range_succ, List.foldl_append]
    simp only [List.foldl_cons, List.foldl_nil, Vector.getElem_setIfInBounds, ih]
    by_cases h : k = i
    · subst h; simp
    · by_cases h2 : i < k
      · simp [h, h2, Nat.lt_succ_of_lt h2]
      · simp [h, h2, show ¬ i < k + 1 by omega]

/-- Packing a readable source row leaves the packed row in the scratch row (44 R223). -/
theorem runMicro_pack {P : Config.Params} {s : State} {a t : Nat} (h : Readable s a 400) :
    ∃ v : Vector Byte 50, v.toList = packedRow s a t ∧
      runMicro P (.pack a t) s = .go { s with scratch := v } := by
  refine ⟨_, ?_, packGroups_ok (List.range (width / 8)) s fun g hg => ?_⟩
  · apply List.ext_getElem
    · simp [packedRow]
    · intro i h1 h2
      have hi : i < 50 := by simpa using h1
      rw [Vector.getElem_toList, foldl_setIfInBounds (fun g => pack8 t (fbBytes s (a + 8 * g) 8))]
      simp [packedRow, width, hi]
  · have : g < 50 := by simpa [width] using hg
    exact readable_sub h (by omega)

/-! ## Holds and stops -/

theorem sendReads_ne_hold (rs : List (Except Fault Byte)) (s u : State) :
    sendReads rs s ≠ .hold u := by
  induction rs generalizing s with
  | nil => simp [sendReads]
  | cons r rs ih => cases r <;> simp [sendReads, ih]

theorem packGroups_ne_hold (a t : Nat) (gs : List Nat) (s u : State) :
    packGroups a t gs s ≠ .hold u := by
  induction gs generalizing s with
  | nil => simp [packGroups]
  | cons g gs ih =>
    simp only [packGroups]
    cases groupSamples s a g <;> simp [ih]

/-- Only a WaitBusy holds, after a busy free draw, with no listed answer left (60 R258). -/
theorem runMicro_hold {P : Config.Params} {op : Micro} {s u : State}
    (h : runMicro P op s = .hold u) :
    isWait op = true ∧ (runMicro P .waitBusy s = .hold u) ∧
      (∀ t, t.busOk = s.busOk → runMicro P op t = runMicro P .waitBusy t) := by
  induction op generalizing s with
  | waitBusy => exact ⟨rfl, h, fun _ _ => rfl⟩
  | frame a n => exact absurd h (sendReads_ne_hold _ _ _)
  | lut v t ov => exact absurd h (sendReads_ne_hold _ _ _)
  | pack a t => exact absurd h (packGroups_ne_hold _ _ _ _ _)
  | ifUp op ih =>
    cases hb : s.busOk
    · simp [runMicro, hb] at h
    · simp only [runMicro, hb, if_true] at h
      obtain ⟨h1, h2, h3⟩ := ih h
      exact ⟨h1, h2, fun t ht => by
        simp only [runMicro, ht, if_true]
        exact h3 t (ht.trans hb.symm)⟩
  | _ => simp [runMicro] at h

theorem recordFault_ne (r : Fault) (s : State) : (recordFault r s).fault ≠ none := by
  cases hf : s.fault <;> simp [recordFault, hf]

theorem sendReads_stop (rs : List (Except Fault Byte)) (s u : State)
    (h : sendReads rs s = .stop u) : u.fault ≠ none := by
  induction rs generalizing s with
  | nil => simp [sendReads] at h
  | cons r rs ih =>
    cases r with
    | ok b => exact ih _ h
    | error r =>
      injection h with h
      subst h
      exact recordFault_ne r s

theorem packGroups_stop (a t : Nat) (gs : List Nat) (s u : State)
    (h : packGroups a t gs s = .stop u) : u.fault ≠ none := by
  induction gs generalizing s with
  | nil => simp [packGroups] at h
  | cons g gs ih =>
    simp only [packGroups] at h
    cases hg : groupSamples s a g with
    | ok ss => rw [hg] at h; exact ih _ h
    | error r =>
      rw [hg] at h
      injection h with h
      subst h
      exact recordFault_ne r s

theorem waitBusy_ne_stop (ps : List Bool) (s u : State) : waitBusy ps s ≠ .stop u := by
  obtain ⟨q, l, rfl⟩ | ⟨q, rfl⟩ := polls_cases ps
  · have := waitBusy_listed q l s
    simp [pollsOf, this]
  · rw [waitBusy_unlisted]
    split <;> simp

/-- A stop has recorded a fault (60 R254). -/
theorem runMicro_stop {P : Config.Params} {op : Micro} {s u : State}
    (h : runMicro P op s = .stop u) : u.fault ≠ none := by
  induction op generalizing s with
  | waitBusy => exact absurd h (waitBusy_ne_stop _ _ _)
  | frame a n => exact sendReads_stop _ _ _ h
  | lut v t ov => exact sendReads_stop _ _ _ h
  | pack a t => exact packGroups_stop _ _ _ _ _ h
  | ifUp op ih =>
    simp only [runMicro] at h
    split at h
    · exact ih h
    · simp at h
  | _ => simp [runMicro] at h

/-! ## Reads that leave the window (60 R255) -/

theorem readable_of_window {s : State} {a n : Nat} (hn : 0 < n)
    (h : ∀ i < n, inWindow s (a + i) = true) : Readable s a n := by
  have h0 := h 0 hn
  have h1 := h (n - 1) (by omega)
  simp only [inWindow, Bool.and_eq_true, decide_eq_true_eq] at h0 h1
  exact ⟨by omega, by omega, by omega⟩

theorem memReads_split {s : State} {a n j : Nat} (hj : j < n)
    (hin : ∀ i < j, inWindow s (a + i) = true) (hout : inWindow s (a + j) = false) :
    ∃ rest, (List.range n).map (fun i => memRead s (a + i)) =
      (fbBytes s a j).map .ok ++ .error (.fbOutOfRange (a + j)) :: rest := by
  obtain ⟨k, rfl⟩ : ∃ k, n = j + (k + 1) := ⟨n - j - 1, by omega⟩
  have hpre : (List.range j).map (fun i => memRead s (a + i)) = (fbBytes s a j).map .ok := by
    simp only [fbBytes, List.map_map]
    exact List.map_congr_left fun i hi => memRead_window (hin i (List.mem_range.1 hi))
  exact ⟨_, by
    rw [List.range_add, List.range_succ_eq_map, List.map_append, hpre, List.map_cons, List.map_cons,
      Nat.add_zero, memRead_error hout]⟩

/-- The frame data of a buffer whose byte j is the first one outside the window. -/
theorem runMicro_frame_fault {P : Config.Params} {s : State} {a n j : Nat} (hj : j < n)
    (hin : ∀ i < j, inWindow s (a + i) = true) (hout : inWindow s (a + j) = false) :
    runMicro P (.frame a n) s =
      .stop (recordFault (.fbOutOfRange (a + j)) (sendData (fbBytes s a j) s)) := by
  obtain ⟨rest, hs⟩ := memReads_split hj hin hout
  simp only [runMicro, hs, sendReads_error]

theorem gather_error (bs : List Byte) (r : Fault) (rest : List (Except Fault Byte)) :
    gather (bs.map .ok ++ .error r :: rest) = .error r := by
  induction bs with
  | nil => rfl
  | cons b bs ih => simp [gather, ih]

/-- Packing stops at the first sample outside the window, before anything of the row is sent. -/
theorem packGroups_fault {a t : Nat} (n g : Nat) {j : Nat} {s : State} (hg : 8 * g ≤ j)
    (hj : j < 8 * (g + n)) (hin : ∀ i < j, inWindow s (a + i) = true)
    (hout : inWindow s (a + j) = false) :
    ∃ v, packGroups a t (List.range' g n) s =
      .stop (recordFault (.fbOutOfRange (a + j)) { s with scratch := v }) := by
  induction n generalizing g s with
  | zero => omega
  | succ n ih =>
    rw [List.range'_succ]
    by_cases h : 8 * g + 8 ≤ j
    · have hr : Readable s (a + 8 * g) 8 := readable_of_window (by decide) fun i hi => by
        rw [Nat.add_assoc]; exact hin _ (by omega)
      obtain ⟨v, hv⟩ := ih (g + 1) (s := { s with
        scratch := s.scratch.setIfInBounds g (pack8 t (fbBytes s (a + 8 * g) 8)) })
        (by omega) (by omega) hin hout
      exact ⟨v, by simp only [packGroups, groupSamples_ok hr]; exact hv⟩
    · obtain ⟨rest, hs⟩ := memReads_split (s := s) (a := a + 8 * g) (n := 8) (j := j - 8 * g)
        (by omega) (fun i hi => by rw [Nat.add_assoc]; exact hin _ (by omega))
        (by rw [Nat.add_assoc, Nat.add_sub_cancel' hg]; exact hout)
      refine ⟨s.scratch, ?_⟩
      have hgs : groupSamples s a g = .error (.fbOutOfRange (a + j)) := by
        rw [groupSamples, hs, gather_error, Nat.add_assoc, Nat.add_sub_cancel' hg]
      simp only [packGroups, hgs]

/-- Packing a source row whose sample j is the first one outside the window (44 R223). -/
theorem runMicro_pack_fault {P : Config.Params} {s : State} {a t j : Nat} (hj : j < 400)
    (hin : ∀ i < j, inWindow s (a + i) = true) (hout : inWindow s (a + j) = false) :
    ∃ v, runMicro P (.pack a t) s =
      .stop (recordFault (.fbOutOfRange (a + j)) { s with scratch := v }) := by
  simp only [runMicro, List.range_eq_range']
  exact packGroups_fault _ 0 (Nat.zero_le j) (by simp [width, hj]) hin hout

end Sys2Proof.Machine
end

