-- ==== Sys2Proof/Laws/Flags.lean ====
section
/-! SUPPORT. The precondition conditions (spec/70_reset_and_hazards.md) as decisions of one plain
proposition each. -/

namespace Sys2Proof.Machine

open Sys2Proof.Safety

/-- The validity predicate of a window (70 R289). -/
theorem windowValid_eq (x y w h : Nat) :
    windowValid x y w h = decide (x % 8 = 0 ∧ 0 < w ∧ 0 < h ∧ w % 8 = 0 ∧
      x + w ≤ 400 ∧ y + h ≤ 300) := by
  rw [Bool.eq_iff_iff]
  simp only [windowValid, Bool.and_eq_true, decide_eq_true_eq, beq_iff_eq, and_assoc]
  rfl

/-- The condition on a SETWIN's operands (70 R289, R290). -/
theorem windowHazard_eq (x y w h : Nat) :
    windowHazard x y w h = (decide (256 ≤ x) ||
      decide (¬ (x % 8 = 0 ∧ 0 < w ∧ 0 < h ∧ w % 8 = 0 ∧ x + w ≤ 400 ∧ y + h ≤ 300))) := by
  rw [windowHazard, windowValid_eq, Bool.or_comm, decide_not]

/-- The condition on a SHADE's pass (70 R291). -/
theorem passHazard_eq (pass : Nat) : passHazard pass = decide (8 ≤ pass) := rfl

/-- The shade clock (70 R287). -/
theorem atShadeClock_eq (s : State) :
    atShadeClock s = decide (s.mnValid = true ∧ s.m = 5 ∧ s.n = 1) := by
  rw [Bool.eq_iff_iff]
  simp [atShadeClock, and_assoc]

/-- The condition on a command outside an Init sub-sequence (70 R284, R285, R288). -/
theorem commandHazard_outside (s : State) : commandHazard false s = notListening s := by
  simp only [commandHazard, notListening]
  cases s.maybeBusy <;> cases s.life <;> rfl

/-- The condition on a command of an Init sub-sequence (70 R285, R288). -/
theorem commandHazard_inside (s : State) :
    commandHazard true s = (s.maybeBusy || s.life == .asleep) := by
  simp only [commandHazard]
  cases s.maybeBusy <;> cases s.life <;> rfl

end Sys2Proof.Machine
end

