-- ==== Sys2Proof/Laws/Update.lean ====
section
/-! SUPPORT. What a run can do, said once: every micro-operation, and so every run of an expansion,
is a chain of the primitive updates below. A property that each update keeps is kept by a run. -/

namespace Sys2Proof.Machine

/-- The primitive updates of a micro-operation. -/
inductive Update (P : Config.Params) : State → State → Prop where
  | emit (acts : List Action) (s : State) : Update P s (emit acts s)
  | markPv (hazard : Bool) (s : State) : Update P s (markPv hazard s)
  | recordFault (r : Fault) (s : State) : Update P s (recordFault r s)
  | polled (left : List Bool) (draws : Nat) (s : State) :
      Update P s { s with pollIn := left, pollDraws := draws }
  | busAnswered (ok : Bool) (left : List Bool) (draws : Nat) (s : State) :
      Update P s { s with initIn := left, initDraws := draws, busOk := ok, reqOk := s.reqOk && ok }
  | panelIdle (s : State) : Update P s (panelIdle s)
  | resetOp (s : State) : Update P s (resetOp s)
  | storeCoeffs (m n : Byte) (s : State) : Update P s (storeCoeffsOp m n s)
  | fallAsleep (s : State) : Update P s { s with life := .asleep }
  | tagLut (t : LutTag) (s : State) : Update P s { s with lastLut := t }
  | advanceWcc (s : State) : Update P s { s with wcc := nextWcc (heavyCycleNr P) s.wcc }
  | markBusy (s : State) : Update P s { s with maybeBusy := true }
  | scratch (r : Vector Byte 50) (s : State) : Update P s { s with scratch := r }

/-- A chain of primitive updates. -/
abbrev Updates (P : Config.Params) : State → State → Prop := Relation.ReflTransGen (Update P)

variable {P : Config.Params}

theorem Updates.one {s t : State} (h : Update P s t) : Updates P s t := .single h

theorem Updates.keep {p : State → Prop} (hp : ∀ s t, Update P s t → p s → p t) {s t : State}
    (h : Updates P s t) (hs : p s) : p t := by
  induction h with
  | refl => exact hs
  | tail _ hu ih => exact hp _ _ hu ih

/-- A reflexive and transitive relation that each update meets holds across a chain. -/
theorem Updates.rel {R : State → State → Prop} (refl : ∀ s, R s s)
    (trans : ∀ a b c, R a b → R b c → R a c) (hR : ∀ s t, Update P s t → R s t) {s t : State}
    (h : Updates P s t) : R s t := by
  induction h with
  | refl => exact refl _
  | tail _ hu ih => exact trans _ _ _ ih (hR _ _ hu)

theorem sendCommand_updates (b : Bool) (c : Byte) (s : State) :
    Updates P s (sendCommand b c s) :=
  (Updates.one (.markPv (commandHazard b s) s)).tail (.emit [.cmd c] _)

theorem sendReads_updates (rs : List (Except Fault Byte)) (s : State) :
    Updates P s (microState (sendReads rs s)) := by
  induction rs generalizing s with
  | nil => exact .refl
  | cons r rs ih =>
    cases r with
    | ok b => exact .trans (Updates.one (.emit _ s)) (ih _)
    | error r => exact Updates.one (.recordFault r s)

theorem packGroups_updates (a t : Nat) (gs : List Nat) (s : State) :
    Updates P s (microState (packGroups a t gs s)) := by
  induction gs generalizing s with
  | nil => exact .refl
  | cons g gs ih =>
    simp only [packGroups]
    cases groupSamples s a g with
    | ok ss => exact .trans (Updates.one (.scratch _ s)) (ih _)
    | error r => exact Updates.one (.recordFault r s)

theorem waitBusy_updates (polls : List Bool) (s : State) :
    Updates P s (microState (waitBusy polls s)) := by
  induction polls generalizing s with
  | nil =>
    simp only [waitBusy]
    split
    · exact (Updates.one (.polled [] (s.pollDraws + 1) s)).tail (.emit _ _)
    · exact ((Updates.one (.polled [] (s.pollDraws + 1) s)).tail (.emit _ _)).tail (.panelIdle _)
  | cons b rest ih =>
    cases b with
    | true => exact .trans (Updates.one (.emit _ s)) (ih _)
    | false =>
      exact ((Updates.one (.polled rest s.pollDraws s)).tail (.emit _ _)).tail (.panelIdle _)

/-- Every micro-operation is a chain of updates. -/
theorem runMicro_updates (P : Config.Params) (op : Micro) (s : State) :
    Updates P s (microState (runMicro P op s)) := by
  induction op with
  | cmd c => exact sendCommand_updates _ _ _
  | initCmd c => exact sendCommand_updates _ _ _
  | dat ds => exact Updates.one (.emit _ s)
  | frame a n => exact sendReads_updates _ _
  | lut v t ov => exact sendReads_updates _ _
  | pack a t => exact packGroups_updates _ _ _ _
  | row => exact Updates.one (.emit _ s)
  | delay n => exact Updates.one (.emit _ s)
  | busInit =>
    exact (Updates.one (.busAnswered (nextAnswer Config.freeInit s.initIn s.initDraws).1
      (nextAnswer Config.freeInit s.initIn s.initDraws).2.1
      (nextAnswer Config.freeInit s.initIn s.initDraws).2.2 s)).tail (.emit _ _)
  | waitBusy => exact waitBusy_updates _ _
  | resetSeq => exact Updates.one (.resetOp s)
  | storeCoeffs m n => exact Updates.one (.storeCoeffs m n s)
  | fallAsleep => exact Updates.one (.fallAsleep s)
  | shadeClock => exact Updates.one (.markPv _ s)
  | tagLut t => exact Updates.one (.tagLut t s)
  | advanceWcc => exact Updates.one (.advanceWcc s)
  | markBusy => exact Updates.one (.markBusy s)
  | ifUp op ih =>
    simp only [runMicro]
    split
    · exact ih
    · exact .refl

/-- Every run is a chain of updates. -/
theorem runMicros_updates (P : Config.Params) (ops : List Micro) (s : State) :
    Updates P s (runState (runMicros P ops s)) := by
  induction ops generalizing s with
  | nil => exact .refl
  | cons op rest ih =>
    have h := runMicro_updates P op s
    simp only [runMicros]
    cases hop : runMicro P op s with
    | go s' => exact .trans (by simpa [hop, microState] using h) (ih s')
    | hold s' => simpa [hop, microState, runState] using h
    | stop s' => simpa [hop, microState, runState] using h

/-! ## What a chain of updates keeps -/

/-- What no micro-operation touches: the frame-buffer space, the request and status ports, STATUS
and the rest of the expansion. -/
structure Untouched (s t : State) : Prop where
  fb : t.fb = s.fb
  fbBase : t.fbBase = s.fbBase
  fbSize : t.fbSize = s.fbSize
  req : t.req = s.req
  rsp : t.rsp = s.rsp
  raised : t.raised = s.raised
  status : t.status = s.status
  todo : t.todo = s.todo

theorem Updates.untouched {s t : State} (h : Updates P s t) : Untouched s t := by
  refine h.rel (fun s => ⟨rfl, rfl, rfl, rfl, rfl, rfl, rfl, rfl⟩) ?_ ?_
  · intro a b c h1 h2
    exact ⟨h2.fb.trans h1.fb, h2.fbBase.trans h1.fbBase, h2.fbSize.trans h1.fbSize,
      h2.req.trans h1.req, h2.rsp.trans h1.rsp, h2.raised.trans h1.raised,
      h2.status.trans h1.status, h2.todo.trans h1.todo⟩
  · intro s t hu
    cases hu <;> exact ⟨rfl, rfl, rfl, rfl, rfl, rfl, rfl, rfl⟩

/-- The trace only grows, and the position counts the actions (10 R32). -/
theorem Updates.emitted {s t : State} (h : Updates P s t) :
    ∃ acts, t.trace = s.trace ++ acts ∧ t.seq = seqAdvance acts.length s.seq := by
  refine h.rel (R := fun s t => ∃ acts, t.trace = s.trace ++ acts ∧
    t.seq = seqAdvance acts.length s.seq) (fun s => ⟨[], by simp⟩) ?_ ?_
  · rintro a b c ⟨x, hx, hx'⟩ ⟨y, hy, hy'⟩
    exact ⟨x ++ y, by simp [hy, hx], by simp [hy', hx']⟩
  · intro s t hu
    cases hu
    case emit acts => exact ⟨acts, rfl, rfl⟩
    case resetOp => exact ⟨[.pin .low, .delay 200, .pin .high, .delay 200], rfl, rfl⟩
    all_goals exact ⟨[], by simp, by simp⟩

theorem Updates.pv {s t : State} (h : Updates P s t) (hs : s.pv = true) : t.pv = true := by
  refine h.keep (p := fun s => s.pv = true) ?_ hs
  intro s t hu hs
  cases hu <;> simp [hs]

theorem Updates.mnValid {s t : State} (h : Updates P s t) (hs : s.mnValid = true) :
    t.mnValid = true := by
  refine h.keep (p := fun s => s.mnValid = true) ?_ hs
  intro s t hu hs
  cases hu <;> simp [hs]

theorem Updates.fault {s t : State} {r : Fault} (h : Updates P s t) (hs : s.fault = some r) :
    t.fault = some r := by
  refine h.keep (p := fun s => s.fault = some r) ?_ hs
  intro s t hu hs
  cases hu <;> simp [hs]

theorem lifeAfterInit_ne (l : Life) : lifeAfterInit l ≠ .resetting := by cases l <;> decide

theorem Updates.life {s t : State} (h : Updates P s t) (hs : s.life ≠ .resetting) :
    t.life ≠ .resetting := by
  refine h.keep (p := fun s => s.life ≠ .resetting) ?_ hs
  intro s t hu hs
  cases hu <;> simp [hs, lifeAfterInit_ne]

theorem nextWcc_lt (P : Config.Params) (c : Nat) : nextWcc (heavyCycleNr P) c < heavyCycleNr P :=
  Nat.mod_lt _ (Nat.succ_pos _)

theorem Updates.wcc {s t : State} (h : Updates P s t) (hs : s.wcc < heavyCycleNr P) :
    t.wcc < heavyCycleNr P := by
  refine h.keep (p := fun s => s.wcc < heavyCycleNr P) ?_ hs
  intro s t hu hs
  cases hu <;> simp [hs, nextWcc_lt]

/-! ## The end of a run -/

/-- The two ways a step leaves a run: completed with a status, or held or stopped with the rest of
its expansion and no status (10 R32, 60 R254, R258). -/
theorem settle_cases (P : Config.Params) (ops : List Micro) (s : State) :
    (∃ u, runMicros P ops s = .done u ∧ Updates P s u ∧ settle (runMicros P ops s) = complete u) ∨
    (∃ u todo, Updates P s u ∧ settle (runMicros P ops s) = { u with todo := todo }) := by
  have h := runMicros_updates P ops s
  cases hr : runMicros P ops s with
  | done u => exact .inl ⟨u, rfl, by simpa [hr, runState] using h, rfl⟩
  | held u todo => exact .inr ⟨u, todo, by simpa [hr, runState] using h, rfl⟩
  | stopped u todo => exact .inr ⟨u, todo, by simpa [hr, runState] using h, rfl⟩

end Sys2Proof.Machine
end

