-- ==== Sys2Proof/Laws/Sequences.lean ====
section
/-! SUPPORT. One lemma per sub-sequence of the spec (SendLut, InitSeq, WinSeq, PassSeq, ...): what
its run leaves, with the answers listed that it asks for. -/

namespace Sys2Proof.Machine

open Sys2Proof.Safety

variable {P : Config.Params}

/-! ## Marks and emission commute -/

@[simp] theorem commandHazard_emit (b : Bool) (acts : List Action) (s : State) :
    commandHazard b (emit acts s) = commandHazard b s := rfl

@[simp] theorem commandHazard_markPv (b h : Bool) (s : State) :
    commandHazard b (markPv h s) = commandHazard b s := rfl

@[simp] theorem atShadeClock_emit (acts : List Action) (s : State) :
    atShadeClock (emit acts s) = atShadeClock s := rfl

@[simp] theorem atShadeClock_markPv (h : Bool) (s : State) :
    atShadeClock (markPv h s) = atShadeClock s := rfl

@[simp] theorem markPv_emit (h : Bool) (acts : List Action) (s : State) :
    markPv h (emit acts s) = emit acts (markPv h s) := rfl

@[simp] theorem markPv_markPv (h k : Bool) (s : State) :
    markPv k (markPv h s) = markPv (h || k) s := by simp [markPv, Bool.or_assoc]

@[simp] theorem markPv_false (s : State) : markPv false s = s := by simp [markPv]

theorem sendCommand_eq (b : Bool) (c : Byte) (s : State) :
    sendCommand b c s = emit [.cmd c] (markPv (commandHazard b s) s) := rfl

/-! ## Send -/

/-- `Send(c, ds)` (40 R133). -/
theorem runMicros_send (c : Byte) (ds : List Byte) (s : State) :
    runMicros P (send c ds) s =
      .done (emit (sendActions c ds) (markPv (commandHazard false s) s)) := by
  simp [runMicros, runMicro, send, sendCommand_eq, sendData_eq, sendActions]

/-- `Send(c, ds)` inside an Init sub-sequence (40 R133, 70 R284). -/
theorem runMicros_initSend (c : Byte) (ds : List Byte) (s : State) :
    runMicros P (initSend c ds) s =
      .done (emit (sendActions c ds) (markPv (commandHazard true s) s)) := by
  simp [runMicros, runMicro, initSend, sendCommand_eq, sendData_eq, sendActions]

/-! ## SendLut -/

/-- One table (45 R241). -/
theorem runMicros_sendTable (v : Variant) (ov : Overrides) (t : Table) (s : State) :
    runMicros P (sendTable P v ov t) s =
      .done (emit (sendActions (lutCmd P t) (lutBytes P v ov t))
        (markPv (commandHazard false s) s)) := by
  refine (runMicros_cons_go rfl _).trans ((runMicros_cons_go (runMicro_lut _ _ _ _ _) _).trans ?_)
  simp [runMicros, sendCommand_eq, sendData_eq, sendActions]

theorem runMicros_sendTables (v : Variant) (ov : Overrides) (ts : List Table) (s : State) :
    runMicros P (ts.flatMap (sendTable P v ov)) s =
      .done (emit (ts.flatMap fun t => sendActions (lutCmd P t) (lutBytes P v ov t))
        (markPv (!ts.isEmpty && commandHazard false s) s)) := by
  induction ts generalizing s with
  | nil => simp [runMicros]
  | cons t ts ih =>
    simp only [List.flatMap_cons]
    rw [runMicros_append_done (runMicros_sendTable v ov t s), ih]
    cases h : commandHazard false s <;> simp [h]

/-- Sending this variant's LUTs violates the clock precondition (70 R287). -/
def lutClockHazard (v : Variant) (s : State) : Bool :=
  match v with
  | .full => false
  | .quick => false
  | .shade => !atShadeClock s

/-- `SendLut(v, ov)` (45 R241). -/
theorem runMicros_sendLut (v : Variant) (ov : Overrides) (s : State) :
    runMicros P (sendLut P v ov) s =
      .done { emit (lutActions P v ov) (markPv (lutClockHazard v s || commandHazard false s) s) with
        lastLut := lutTag v ov } := by
  have hc : runMicros P (clockCheck v) s = .done (markPv (lutClockHazard v s) s) := by
    cases v <;> simp [clockCheck, runMicros, runMicro, lutClockHazard]
  simp only [sendLut, List.append_assoc]
  rw [runMicros_append_done hc, runMicros_append_done (runMicros_sendTables v ov tables _)]
  simp [runMicros, runMicro, lutActions, tables]

/-! ## Guarded runs -/

theorem runMicro_busOk {op : Micro} (hop : asksNoBus op = true) (s : State) :
    (microState (runMicro P op s)).busOk = s.busOk := by
  have hreads : ∀ (rs : List (Except Fault Byte)) (s : State),
      (microState (sendReads rs s)).busOk = s.busOk := by
    intro rs
    induction rs with
    | nil => intro s; rfl
    | cons r rs ih =>
      intro s
      cases r with
      | ok b => exact ih _
      | error r => rfl
  have hpack : ∀ (a t : Nat) (gs : List Nat) (s : State),
      (microState (packGroups a t gs s)).busOk = s.busOk := by
    intro a t gs
    induction gs with
    | nil => intro s; rfl
    | cons g gs ih =>
      intro s
      simp only [packGroups]
      cases groupSamples s a g with
      | ok ss => exact ih _
      | error r => rfl
  have hwait : ∀ (ps : List Bool) (s : State),
      (microState (waitBusy ps s)).busOk = s.busOk := by
    intro ps
    induction ps with
    | nil => intro s; simp only [waitBusy]; split <;> rfl
    | cons b ps ih =>
      intro s
      cases b with
      | true => exact ih _
      | false => rfl
  induction op generalizing s with
  | busInit => simp [asksNoBus] at hop
  | frame a n => exact hreads _ _
  | lut v t ov => exact hreads _ _
  | pack a t => exact hpack _ _ _ _
  | waitBusy => exact hwait _ _
  | ifUp op ih =>
    simp only [runMicro]
    split
    · exact ih hop s
    · rfl
  | _ => rfl

/-- A guarded expansion runs as the expansion itself while the last BUSINIT was ok. -/
theorem runMicros_ifUp_up (xs : List Micro) (s : State) (hxs : ∀ op ∈ xs, asksNoBus op = true)
    (h : s.busOk = true) :
    runMicros P (xs.map .ifUp) s =
      match runMicros P xs s with
      | .done s' => .done s'
      | .held s' todo => .held s' (todo.map .ifUp)
      | .stopped s' todo => .stopped s' (todo.map .ifUp) := by
  induction xs generalizing s with
  | nil => rfl
  | cons op rest ih =>
    have hb := runMicro_busOk (P := P) (hxs op (by simp)) s
    simp only [List.map_cons, runMicros, runMicro, h, if_true]
    cases hop : runMicro P op s with
    | go s' =>
      simp only [hop, microState] at hb
      exact ih s' (fun o ho => hxs o (by simp [ho])) (hb.trans h)
    | hold s' => rfl
    | stop s' => rfl

theorem runMicros_ifUp_done {xs : List Micro} {s s' : State}
    (hxs : ∀ op ∈ xs, asksNoBus op = true) (h : s.busOk = true)
    (hr : runMicros P xs s = .done s') : runMicros P (xs.map .ifUp) s = .done s' := by
  rw [runMicros_ifUp_up xs s hxs h, hr]

/-! ## InitSeq -/

theorem initBody_asksNoBus (m n : Byte) : ∀ op ∈ initBody P m n, asksNoBus op = true := by
  simp [initBody, initSend, asksNoBus]

/-- The rest of an Init sub-sequence after an ok BUSINIT (41 R150). -/
theorem runMicros_initBody {m n : Byte} {q : Nat} {ps : List Bool} {s : State}
    (h : s.pollIn = pollsOf [q] ++ ps) :
    runMicros P (initBody P m n) s =
      .done { emit (sendActions cmdPowerSetting P.seqData.pwr ++
          sendActions P.codes.boosterSoftStart P.seqData.boost ++ [.cmd P.codes.powerOn] ++
          waitActions q ++ sendActions P.codes.panelSetting P.seqData.panel ++
          sendActions P.codes.pllControl [pll m n]) s with
        m := m, n := n, mnValid := true, life := lifeAfterInit s.life, maybeBusy := false,
        pollIn := ps, pv := s.pv || s.maybeBusy || s.life == .asleep } := by
  simp only [initBody, List.append_assoc, List.cons_append, List.nil_append]
  refine (runMicros_append_done (runMicros_initSend _ _ _) _).trans ?_
  refine (runMicros_append_done (runMicros_initSend _ _ _) _).trans ?_
  refine (runMicros_cons_go rfl _).trans ?_
  refine (runMicros_cons_go (runMicro_waitBusy (q := q) (ps := ps) (by exact h)) _).trans ?_
  refine (runMicros_append_done (runMicros_initSend _ _ _) _).trans ?_
  refine (runMicros_append_done (runMicros_initSend _ _ _) _).trans ?_
  refine (runMicros_cons_go rfl _).trans (congrArg RunEnd.done ?_)
  apply State.ext <;> simp [commandHazard]
  case seq => congr 1; omega
  case pv => cases s.pv <;> cases s.maybeBusy <;> cases s.life <;> rfl

/-- An Init sub-sequence that succeeds (41 R150). -/
theorem runMicros_initSeq {m n : Byte} {q : Nat} {is ps : List Bool} {s : State}
    (hi : s.initIn = true :: is) (hp : s.pollIn = pollsOf [q] ++ ps) :
    runMicros P (initSeq P m n) s =
      .done { emit (initActions P m n q) s with
        m := m, n := n, mnValid := true, life := lifeAfterInit s.life, maybeBusy := false,
        initIn := is, busOk := true, pollIn := ps,
        pv := s.pv || s.maybeBusy || s.life == .asleep } := by
  refine (runMicros_cons_go rfl _).trans ?_
  rw [busInitOp_listed hi]
  refine (runMicros_ifUp_done (initBody_asksNoBus m n) rfl
    (runMicros_initBody (q := q) (ps := ps) (by exact hp))).trans (congrArg RunEnd.done ?_)
  apply State.ext <;> simp [initActions, Nat.add_comm]

/-- An Init sub-sequence whose BUSINIT fails (41 R150). -/
theorem runMicros_initSeq_fail {m n : Byte} {is : List Bool} {s : State}
    (hi : s.initIn = false :: is) :
    runMicros P (initSeq P m n) s =
      .done { emit [.busInit false] s with initIn := is, busOk := false, reqOk := false } := by
  refine (runMicros_cons_go rfl _).trans ?_
  rw [busInitOp_listed hi]
  refine (runMicros_ifUp_down _ _ _ rfl).trans (congrArg RunEnd.done ?_)
  apply State.ext <;> simp

/-! ## Windows -/

/-- A window whose data micro-operation sends `data` (42 R173). -/
theorem runMicros_winSeq {op : Micro} {data : List Byte} {x y w h : Nat} {ch : Channel} {s : State}
    (hop : ∀ acts : List Action, ∀ hz : Bool, runMicro P op (emit acts (markPv hz s)) =
      .go (sendData data (emit acts (markPv hz s)))) :
    runMicros P (winSeq P op x y w h ch) s =
      .done (emit (windowActions P data x y w h ch) (markPv (commandHazard false s) s)) := by
  have hcmd : ∀ c (t : State), runMicro P (.cmd c) t =
      .go (emit [.cmd c] (markPv (commandHazard false t) t)) := fun _ _ => rfl
  cases hpw : P.pwInOut
  · simp only [winSeq, hpw, windowActions]
    simp only [Bool.false_eq_true, if_false, List.nil_append, List.append_nil]
    rw [runMicros_append_done (runMicros_send _ _ _), runMicros_cons_go (hcmd _ _)]
    simp only [commandHazard_emit, commandHazard_markPv, markPv_emit, markPv_markPv, emit_emit,
      Bool.or_self]
    rw [runMicros_cons_go (hop _ _)]
    simp [runMicros, sendData_eq, sendActions]
  · simp only [winSeq, hpw, windowActions, if_true, List.append_assoc]
    simp only [List.cons_append, List.nil_append]
    rw [runMicros_cons_go (hcmd _ _), runMicros_append_done (runMicros_send _ _ _),
      runMicros_cons_go (hcmd _ _)]
    simp only [commandHazard_emit, commandHazard_markPv, markPv_emit, markPv_markPv, emit_emit,
      Bool.or_self]
    rw [runMicros_cons_go (hop _ _), runMicros_cons_go (hcmd _ _)]
    simp [runMicros, sendData_eq, sendActions]

/-! ## Refreshes -/

/-- A LUT set, the refresh command and the wait (43 R190). -/
theorem runMicros_blockingRefresh {v : Variant} {q : Nat} {ps : List Bool} {s : State}
    (h : s.pollIn = pollsOf [q] ++ ps) :
    runMicros P (blockingRefresh P v) s =
      .done { emit (refreshActions P v .none ++ waitActions q)
          (markPv (lutClockHazard v s || commandHazard false s) s) with
        lastLut := lutTag v .none, maybeBusy := false, pollIn := ps } := by
  refine (runMicros_append_done (runMicros_sendLut _ _ _) _).trans ?_
  refine (runMicros_cons_go rfl _).trans ?_
  refine (runMicros_cons_go (runMicro_waitBusy (q := q) (ps := ps) (by exact h)) _).trans
    (congrArg RunEnd.done ?_)
  apply State.ext <;> simp [refreshActions, commandHazard, cmdDisplayRefresh]
  case seq => congr 1; omega
  case pv => cases s.pv <;> cases s.maybeBusy <;> cases s.life <;> simp

/-- `ShadeSeq(pass)` (43 R199). -/
theorem runMicros_shadeSeq (pass : Nat) (s : State) :
    runMicros P (shadeSeq P pass) s =
      .done { emit (refreshActions P .shade (.shade pass))
          (markPv (!atShadeClock s || commandHazard false s) s) with
        lastLut := .shade, maybeBusy := true } := by
  refine (runMicros_append_done (runMicros_sendLut _ _ _) _).trans ?_
  refine (runMicros_cons_go rfl _).trans ((runMicros_cons_go rfl _).trans
    (congrArg RunEnd.done ?_))
  apply State.ext <;> simp [refreshActions, commandHazard, cmdDisplayRefresh, lutClockHazard, lutTag]
  cases s.pv <;> cases s.maybeBusy <;> cases s.life <;> simp

/-! ## Grayscale passes -/

/-- What the passes read is the frame-buffer space alone. -/
theorem packedRow_congr {s t : State} (h : t.fb = s.fb) (a k : Nat) :
    packedRow t a k = packedRow s a k := by simp [packedRow, fbBytes, h]

theorem rowsActions_congr {s t : State} (h : t.fb = s.fb) (buf p k : Nat) :
    rowsActions P t buf p k = rowsActions P s buf p k := by simp [rowsActions, packedRow_congr h]

theorem passActions_congr {s t : State} (h : t.fb = s.fb) (buf p q : Nat) :
    passActions P t buf p q = passActions P s buf p q := by
  simp [passActions, rowsActions_congr h]

theorem passesActions_congr {s t : State} (h : t.fb = s.fb) (buf p : Nat) (qs : List Nat) :
    passesActions P t buf p qs = passesActions P s buf p qs := by
  induction qs generalizing p with
  | nil => rfl
  | cons q qs ih => simp [passesActions, passActions_congr h, ih]

/-- One row of a pass (44 R224). -/
theorem runMicros_grayRow {buf p y : Nat} {s : State} (h : Readable s (buf + y * 400) 400) :
    ∃ v, runMicros P (grayRow P buf p y) s =
      .done { emit (windowActions P (packedRow s (buf + y * 400) (threshold p)) 0 y 400 1
          P.grayChannel) (markPv (commandHazard false s) s) with scratch := v } := by
  obtain ⟨v, hv, hr⟩ := runMicro_pack (P := P) (t := threshold p) h
  refine ⟨v, ?_⟩
  simp only [grayRow, width]
  rw [runMicros_cons_go hr, runMicros_winSeq (data := v.toList) (fun _ _ => rfl), hv]
  rfl

theorem runMicros_grayRows {buf p : Nat} (ys : List Nat) {s : State}
    (h : ∀ y ∈ ys, Readable s (buf + y * 400) 400) :
    ∃ v, runMicros P (ys.flatMap (grayRow P buf p)) s =
      .done { emit (ys.flatMap fun y =>
          windowActions P (packedRow s (buf + y * 400) (threshold p)) 0 y 400 1 P.grayChannel)
        (markPv (!ys.isEmpty && commandHazard false s) s) with scratch := v } := by
  induction ys generalizing s with
  | nil => exact ⟨s.scratch, by simp [runMicros]⟩
  | cons y ys ih =>
    obtain ⟨v, hv⟩ := runMicros_grayRow (P := P) (p := p) (h y (by simp))
    obtain ⟨v', hv'⟩ := ih (s := { emit (windowActions P
        (packedRow s (buf + y * 400) (threshold p)) 0 y 400 1 P.grayChannel)
        (markPv (commandHazard false s) s) with scratch := v })
      (fun z hz => h z (by simp [hz]))
    refine ⟨v', (runMicros_append_done hv _).trans (hv'.trans (congrArg RunEnd.done ?_))⟩
    apply State.ext <;> simp [packedRow, fbBytes, commandHazard]
    cases s.pv <;> cases s.maybeBusy <;> cases s.life <;> simp

/-- One pass at the shade clock (44 R224). -/
theorem runMicros_passSeq {buf p q : Nat} {ps : List Bool} {s : State}
    (h : Readable s buf 120000) (hq : s.pollIn = pollsOf [q] ++ ps) (hc : atShadeClock s = true) :
    ∃ v, runMicros P (passSeq P buf p) s =
      .done { emit (passActions P s buf p q) (markPv (commandHazard false s) s) with
        scratch := v, lastLut := .shade, maybeBusy := false, pollIn := ps } := by
  obtain ⟨v, hv⟩ := runMicros_grayRows (P := P) (p := p) (List.range height)
    (fun y hy => readable_sub (b := y * 400) (k := 400) h (by
      have := List.mem_range.1 hy; simp only [height] at this; omega))
  simp only [passSeq, List.append_assoc]
  refine ⟨v, (runMicros_append_done hv _).trans ?_⟩
  refine (runMicros_append_done (runMicros_shadeSeq _ _) _).trans ?_
  refine (runMicros_cons_go (runMicro_waitBusy (q := q) (ps := ps) (by exact hq)) _).trans
    (congrArg RunEnd.done ?_)
  simp only [atShadeClock, Bool.and_eq_true, beq_iff_eq] at hc
  apply State.ext <;> simp [passActions, rowsActions, commandHazard, atShadeClock, hc,
    height, Nat.add_assoc]
  cases s.pv <;> cases s.maybeBusy <;> cases s.life <;> simp

/-! ## What the expansions are made of -/

theorem mem_sendLut {v : Variant} {ov : Overrides} {op : Micro} (h : op ∈ sendLut P v ov) :
    op = .shadeClock ∨ (∃ c, op = .cmd c) ∨ (∃ t, op = .lut v t ov) ∨ ∃ t, op = .tagLut t := by
  cases v <;> simp [sendLut, sendTable, clockCheck, tables] at h <;> aesop

theorem mem_winSeq {data : Micro} {x y w hh : Nat} {ch : Channel} {op : Micro}
    (h : op ∈ winSeq P data x y w hh ch) :
    op = data ∨ (∃ c, op = .cmd c) ∨ ∃ ds, op = .dat ds := by
  cases hp : P.pwInOut <;> simp [winSeq, send, hp] at h <;> aesop

theorem mem_passSeq {buf p : Nat} {op : Micro} (h : op ∈ passSeq P buf p) :
    (∃ a t, op = .pack a t) ∨ op = .row ∨ (∃ c, op = .cmd c) ∨ (∃ ds, op = .dat ds) ∨
      op = .shadeClock ∨ (∃ t, op = .lut .shade t (.shade p)) ∨ (∃ t, op = .tagLut t) ∨
      op = .markBusy ∨ op = .waitBusy := by
  simp only [passSeq, shadeSeq, List.mem_append, List.mem_flatMap, grayRow, List.mem_cons,
    List.not_mem_nil, or_false] at h
  rcases h with (⟨y, -, rfl | h⟩ | h | h | h) | h
  · exact .inl ⟨_, _, rfl⟩
  · rcases mem_winSeq h with h | h | h <;> simp [h]
  · rcases mem_sendLut h with h | h | h | h <;> simp [h]
  all_goals simp [h]

theorem mem_grayPasses {buf : Nat} {op : Micro} (h : op ∈ grayPasses P buf) :
    ∃ p o, o ∈ passSeq P buf p ∧ op = .ifUp o := by
  simp only [grayPasses, List.mem_map, List.mem_flatMap] at h
  obtain ⟨o, ⟨p, -, hp⟩, rfl⟩ := h
  exact ⟨p, o, hp, rfl⟩

theorem passSeq_asksNoBus (buf p : Nat) : ∀ op ∈ passSeq P buf p, asksNoBus op = true := by
  intro op hop
  rcases mem_passSeq hop with ⟨_, _, h⟩ | h | ⟨_, h⟩ | ⟨_, h⟩ | h | ⟨_, h⟩ | ⟨_, h⟩ | h | h <;>
    subst h <;> rfl

/-- The passes from p on at the shade clock, one for each busy count (44 R220). -/
theorem runMicros_passes {buf p q : Nat} {qs : List Nat} {ps : List Bool} {s : State}
    (h : Readable s buf 120000) (hq : s.pollIn = pollsOf (q :: qs) ++ ps)
    (hc : atShadeClock s = true) :
    ∃ v, runMicros P ((List.range' p (qs.length + 1)).flatMap (passSeq P buf)) s =
      .done { emit (passesActions P s buf p (q :: qs)) (markPv (commandHazard false s) s) with
        scratch := v, lastLut := .shade, maybeBusy := false, pollIn := ps } := by
  induction qs generalizing p q s with
  | nil =>
    obtain ⟨v, hv⟩ := runMicros_passSeq (P := P) (p := p) h hq hc
    exact ⟨v, by simpa [passesActions] using hv⟩
  | cons q' qs ih =>
    have hq' : s.pollIn = pollsOf [q] ++ (pollsOf (q' :: qs) ++ ps) := by
      simpa [pollsOf] using hq
    obtain ⟨v, hv⟩ := runMicros_passSeq (P := P) (p := p) h hq' hc
    obtain ⟨v', hv'⟩ := ih (p := p + 1) (q := q')
      (s := { emit (passActions P s buf p q) (markPv (commandHazard false s) s) with
        scratch := v, lastLut := .shade, maybeBusy := false, pollIn := pollsOf (q' :: qs) ++ ps })
      h rfl hc
    refine ⟨v', ?_⟩
    rw [List.length_cons, List.range'_succ, List.flatMap_cons, runMicros_append_done hv, hv']
    refine congrArg RunEnd.done ?_
    rw [passesActions_congr (s := s) (t := { emit (passActions P s buf p q)
      (markPv (commandHazard false s) s) with
        scratch := v, lastLut := .shade, maybeBusy := false, pollIn := pollsOf (q' :: qs) ++ ps })
      rfl]
    apply State.ext <;> simp [passesActions, commandHazard]
    cases s.pv <;> cases s.maybeBusy <;> cases s.life <;> simp

/-- GRAY's pass loop after an ok Init at the shade clock (44 R220). -/
theorem runMicros_grayPasses {buf : Nat} {qs : List Nat} {ps : List Bool} {s : State}
    (h : Readable s buf 120000) (hl : qs.length = passCount P)
    (hq : s.pollIn = pollsOf qs ++ ps) (hc : atShadeClock s = true) (hok : s.busOk = true) :
    ∃ v, runMicros P (grayPasses P buf) s =
      .done { emit (passesActions P s buf 0 qs) (markPv (commandHazard false s) s) with
        scratch := v, lastLut := .shade, maybeBusy := false, pollIn := ps } := by
  obtain ⟨q, qs, rfl⟩ : ∃ q qs', qs = q :: qs' := by
    cases qs with
    | nil => cases hg : P.grayPassCount <;> simp [passCount, hg, shades] at hl
    | cons q qs => exact ⟨q, qs, rfl⟩
  obtain ⟨v, hv⟩ := runMicros_passes (P := P) (p := 0) h hq hc
  refine ⟨v, runMicros_ifUp_done ?_ hok ?_⟩
  · intro op hop
    obtain ⟨p, -, hp⟩ := List.mem_flatMap.1 hop
    exact passSeq_asksNoBus buf p op hp
  · rw [← hl, List.range_eq_range']
    exact hv

/-- The rows of a pass up to the one whose sample is the first outside the window (60 R255). -/
theorem runMicros_grayRows_fault {buf p : Nat} (n y : Nat) {j : Nat} {s : State}
    (hj : j < n * 400) (hin : ∀ i < j, inWindow s (buf + y * 400 + i) = true)
    (hout : inWindow s (buf + y * 400 + j) = false) :
    ∃ v todo, runMicros P ((List.range' y n).flatMap (grayRow P buf p)) s =
      .stopped (recordFault (.fbOutOfRange (buf + y * 400 + j))
        { emit ((List.range' y (j / 400)).flatMap fun y =>
            windowActions P (packedRow s (buf + y * 400) (threshold p)) 0 y 400 1 P.grayChannel)
          (markPv (decide (400 ≤ j) && commandHazard false s) s) with scratch := v }) todo := by
  induction n generalizing y j s with
  | zero => omega
  | succ n ih =>
    rw [List.range'_succ, List.flatMap_cons]
    by_cases h : j < 400
    · obtain ⟨v, hv⟩ := runMicro_pack_fault (P := P) (t := threshold p) h hin hout
      refine ⟨v, _, (runMicros_cons_stop hv _).trans (congrArg (RunEnd.stopped · _) ?_)⟩
      simp [Nat.div_eq_of_lt h, Nat.not_le.2 h]
    · have h400 : 400 ≤ j := by omega
      obtain ⟨w, hw⟩ := runMicros_grayRow (P := P) (p := p)
        (readable_of_window (by decide) fun i (hi : i < 400) => hin i (by omega))
      obtain ⟨z, hz⟩ : ∃ z, z = y + 1 := ⟨_, rfl⟩
      have e : ∀ i, buf + z * 400 + i = buf + y * 400 + (400 + i) := fun i => by omega
      obtain ⟨v, todo, hv⟩ := ih z (j := j - 400) (s := { emit (windowActions P
          (packedRow s (buf + y * 400) (threshold p)) 0 y 400 1 P.grayChannel)
          (markPv (commandHazard false s) s) with scratch := w }) (by omega)
        (fun i hi => by rw [e]; exact hin _ (by omega))
        (by rw [e, Nat.add_sub_cancel' h400]; exact hout)
      have hd : j / 400 = (j - 400) / 400 + 1 := by omega
      refine ⟨v, todo, ?_⟩
      rw [runMicros_append_done hw, ← hz, hv, e, Nat.add_sub_cancel' h400, hd, List.range'_succ, hz]
      refine congrArg (RunEnd.stopped · todo) ?_
      apply State.ext
      all_goals simp [packedRow, fbBytes, commandHazard, h400]
      cases s.pv <;> cases s.maybeBusy <;> cases s.life <;> simp

/-- GRAY's pass loop where sample j is the first outside the window: it stops in the first pass, at
the row of that sample (44 R224, 60 R255). -/
theorem runMicros_grayPasses_fault {buf j : Nat} {s : State} (hj : j < 120000)
    (hin : ∀ i < j, inWindow s (buf + i) = true) (hout : inWindow s (buf + j) = false)
    (hok : s.busOk = true) :
    ∃ v todo, runMicros P (grayPasses P buf) s =
      .stopped (recordFault (.fbOutOfRange (buf + j))
        { emit (rowsActions P s buf 0 (j / 400))
          (markPv (decide (400 ≤ j) && commandHazard false s) s) with scratch := v }) todo := by
  obtain ⟨v, todo, hv⟩ := runMicros_grayRows_fault (P := P) (p := 0) (buf := buf) (s := s) height 0
    (j := j) (by simpa [height] using hj) (by simpa using hin) (by simpa using hout)
  have hc : ∃ k, passCount P = k + 1 := by
    cases hg : P.grayPassCount <;> simp [passCount, hg, shades]
  obtain ⟨k, hk⟩ := hc
  have hsplit : (List.range (passCount P)).flatMap (passSeq P buf) =
      (List.range' 0 height).flatMap (grayRow P buf 0) ++
        (shadeSeq P 0 ++ [.waitBusy] ++ (List.range' 1 k).flatMap (passSeq P buf)) := by
    rw [hk, List.range_eq_range', List.range'_succ, List.flatMap_cons]
    simp [passSeq, List.range_eq_range']
  refine ⟨v, (todo ++ (shadeSeq P 0 ++ [Micro.waitBusy] ++
    (List.range' 1 k).flatMap (passSeq P buf))).map .ifUp, ?_⟩
  rw [grayPasses, runMicros_ifUp_up _ s ?_ hok, hsplit, runMicros_append, hv]
  · simp [rowsActions, List.range_eq_range']
  · intro op hop
    obtain ⟨p, -, hp⟩ := List.mem_flatMap.1 hop
    exact passSeq_asksNoBus buf p op hp

/-- One side of GRAY's bracket when its Init succeeds (44 R220). -/
theorem runMicros_bracket {m n : Byte} {q : Nat} {is ps : List Bool} {s : State}
    (hi : s.initIn = true :: is) (hp : s.pollIn = pollsOf [q] ++ ps) :
    runMicros P (bracket P true m n) s =
      .done { emit (resetActions ++ initActions P m n q) s with
        m := m, n := n, mnValid := true, life := .active, lastLut := .none, maybeBusy := false,
        initIn := is, busOk := true, pollIn := ps } := by
  refine (runMicros_cons_go rfl _).trans
    ((runMicros_initSeq (by exact hi) (by exact hp)).trans (congrArg RunEnd.done ?_))
  apply State.ext <;> simp [resetActions, lifeAfterInit, Nat.add_comm]
  case seq => congr 1; omega

/-- One side of GRAY's bracket when its BUSINIT fails (44 R225). -/
theorem runMicros_bracket_fail {m n : Byte} {is : List Bool} {s : State}
    (hi : s.initIn = false :: is) :
    runMicros P (bracket P true m n) s =
      .done { emit (resetActions ++ [.busInit false]) s with
        life := .uninit, lastLut := .none, maybeBusy := false, initIn := is, busOk := false,
        reqOk := false } := by
  refine (runMicros_cons_go rfl _).trans
    ((runMicros_initSeq_fail (by exact hi)).trans (congrArg RunEnd.done ?_))
  apply State.ext <;> simp [resetActions]

/-- GRAY with set coefficients runs its expansion (44 R220). -/
theorem runGray_eq {buf : Word} {s : State} (h : s.mnValid = true) :
    runGray P buf s = startRequest P (.gray buf) (grayExpansion P buf.toNat s.m s.n) s := by
  simp [runGray, readCoeffs, h]

theorem grayExpansion_atShadeClock (buf : Nat) : grayExpansion P buf 5 1 = grayPasses P buf := by
  simp [grayExpansion, bracket]

theorem grayExpansion_elsewhere {buf : Nat} {m n : Byte} (h : ¬ (m = 5 ∧ n = 1)) :
    grayExpansion P buf m n = bracket P true 5 1 ++ grayPasses P buf ++ bracket P true m n := by
  have : ((m, n) != ((5, 1) : Byte × Byte)) = true := by simpa [bne_iff_ne] using h
  simp only [grayExpansion, this]

/-- GRAY's three parts in order (44 R220). -/
theorem runMicros_grayExpansion {buf : Nat} {m n : Byte} {s a b c : State}
    (h : ¬ (m = 5 ∧ n = 1)) (h1 : runMicros P (bracket P true 5 1) s = .done a)
    (h2 : runMicros P (grayPasses P buf) a = .done b)
    (h3 : runMicros P (bracket P true m n) b = .done c) :
    runMicros P (grayExpansion P buf m n) s = .done c := by
  rw [grayExpansion_elsewhere h]
  exact (runMicros_append_done ((runMicros_append_done h1 _).trans h2) _).trans h3

/-- After a failed Init no pass runs (44 R225). -/
theorem runMicros_grayPasses_down {buf : Nat} {s : State} (h : s.busOk = false) :
    runMicros P (grayPasses P buf) s = .done s := runMicros_ifUp_down _ _ _ h

/-- A request whose expansion ends completes (10 R32). -/
theorem startRequest_done {i : Instr} {ops : List Micro} {s u : State}
    (h : runMicros P ops (takeUp i s) = .done u) : startRequest P i ops s = complete u := by
  simp [startRequest, h, settle]

end Sys2Proof.Machine
end

