-- ==== Sys2Proof/Laws/Exec.lean ====
section
/-! SUPPORT. What taking a request can do, said once: `exec` starts an expansion of the request, or
faults a GRAY with unset coefficients. Also that what a run leaves is the end of its expansion. -/

namespace Sys2Proof.Machine

open Sys2Proof.Safety

/-- `exec` starts an expansion of the request, from a state in which at most PV was set and
HEALTHY's counter reset; only GRAY with unset coefficients faults instead (44 R220). -/
theorem exec_cases (i : Instr) (s : State) :
    (∃ (e : List Micro) (hazard : Bool) (c : Nat), Expansion i e ∧ (c = s.wcc ∨ c = 0) ∧
      ((∀ rst, i ≠ .healthy rst) → c = s.wcc) ∧
      exec i s = .next (startRequest Config.params i e { markPv hazard s with wcc := c })) ∨
    ∃ buf, i = .gray buf ∧ s.mnValid = false ∧
      exec i s = .next (faultAtStart .unsetCoefficients i s) := by
  have plain : ∀ e, Expansion i e → exec i s = .next (startRequest Config.params i e s) →
      ∃ (e : List Micro) (hazard : Bool) (c : Nat), Expansion i e ∧ (c = s.wcc ∨ c = 0) ∧
        ((∀ rst, i ≠ .healthy rst) → c = s.wcc) ∧
        exec i s = .next (startRequest Config.params i e { markPv hazard s with wcc := c }) :=
    fun e he hx => ⟨e, false, s.wcc, he, .inl rfl, fun _ => rfl, by rw [hx]; simp⟩
  cases i with
  | setWin null ch x y w h buf =>
    exact .inl ⟨_, windowHazard x.toNat y.toNat w.toNat h.toNat, s.wcc, rfl, .inl rfl,
      fun _ => rfl, rfl⟩
  | shade pass => exact .inl ⟨_, passHazard pass.toNat, s.wcc, rfl, .inl rfl, fun _ => rfl, rfl⟩
  | healthy rst =>
    refine .inl ⟨_, false, (resetCounter rst s).wcc, ⟨strongPass (resetCounter rst s).wcc, rfl⟩, ?_,
      fun h => absurd rfl (h rst), ?_⟩
    · cases rst
      · exact .inl rfl
      · exact .inr rfl
    · cases rst <;> simp [exec, execHealthy, runHealthy, resetCounter]
  | gray buf =>
    cases hv : s.mnValid
    · exact .inr ⟨buf, rfl, rfl, by simp [exec, execGray, runGray, readCoeffs, hv]⟩
    · exact .inl (plain _ ⟨s.m, s.n, rfl⟩ (congrArg Host.Outcome.next (runGray_eq hv)))
  | _ => exact .inl (plain _ rfl rfl)

/-- What a step can do: go on with the request in flight, or, idle, wait, refuse the request at the
head of REQ, or take it. -/
theorem step_cases {s t : State} (h : step s = .next t) :
    s.fault = none ∧
    ((∃ i k, s.seq = .run i k ∧ t = resume Config.params s) ∨
      s.seq = .idle ∧
        (decode s.req = .wait ∧ t = s ∨
        (∃ w why rest, decode s.req = .illegal w why rest ∧ t = raiseIllegal w (consume rest s)) ∨
        ∃ i rest, decode s.req = .legal i rest ∧ exec i (consume rest s) = .next t)) := by
  simp only [step] at h
  split at h
  · simp at h
  · rename_i hf
    refine ⟨hf, ?_⟩
    split at h
    · rename_i i k hs
      injection h with h
      exact .inl ⟨i, k, hs, h.symm⟩
    · rename_i hs
      refine .inr ⟨hs, ?_⟩
      split at h
      · rename_i hd
        injection h with h
        exact .inl ⟨hd, h.symm⟩
      · rename_i w why rest hd
        injection h with h
        exact .inr (.inl ⟨w, why, rest, hd, h.symm⟩)
      · rename_i i rest hd
        exact .inr (.inr ⟨i, rest, hd, h⟩)

/-- What a run leaves of its expansion is its end (10 R32). -/
theorem runMicros_suffix (P : Config.Params) (ops : List Micro) (s : State) :
    match runMicros P ops s with
    | .done _ => True
    | .held _ todo => todo <:+ ops
    | .stopped _ todo => todo <:+ ops := by
  induction ops generalizing s with
  | nil => exact True.intro
  | cons op rest ih =>
    cases ho : runMicro P op s with
    | go u =>
      rw [runMicros_cons_go ho]
      have h := ih u
      cases hr : runMicros P rest u <;> rw [hr] at h
      · exact True.intro
      all_goals exact h.trans (List.suffix_cons op rest)
    | hold u => rw [runMicros_cons_hold ho]
    | stop u => rw [runMicros_cons_stop ho]

end Sys2Proof.Machine
end

