-- ==== Sys2Proof/Laws/Memory.lean ====
section
/-! SUPPORT. The laws of the frame-buffer memory: a write keeps the canonical form, reads back, and
leaves every other address alone. -/

namespace Sys2Proof.Machine

theorem memAbove_trans {lo a : Nat} {mem : List Host.Cell} (h : lo ≤ a)
    (hm : memAbove a mem = true) : memAbove lo mem = true := by
  cases mem with
  | nil => rfl
  | cons c rest =>
    simp only [memAbove, decide_eq_true_eq] at hm ⊢
    omega

theorem memAbove_memPut {lo x : Nat} {v : Byte} {mem : List Host.Cell} (hx : lo < x)
    (hm : memAbove lo mem = true) (hw : memWf mem = true) : memAbove lo (memPut mem x v) = true := by
  cases mem with
  | nil => by_cases hv : v = unplacedByte <;> simp [memPut, hv, memAbove, hx]
  | cons c rest =>
    obtain ⟨a, b⟩ := c
    simp only [memAbove, decide_eq_true_eq] at hm
    simp only [memWf, Bool.and_eq_true] at hw
    simp only [memPut]
    split
    · by_cases hv : v = unplacedByte <;> simp [hv, memAbove, hx, hm]
    · split
      · by_cases hv : v = unplacedByte
        · simpa [hv] using memAbove_trans hm.le hw.1.2
        · simp [hv, memAbove, hx]
      · simpa [memAbove] using hm

/-- A write keeps the canonical form. -/
theorem memWf_memPut (mem : List Host.Cell) (x : Nat) (v : Byte) (hw : memWf mem = true) :
    memWf (memPut mem x v) = true := by
  induction mem with
  | nil => by_cases hv : v = unplacedByte <;> simp [memPut, hv, memWf, memAbove]
  | cons c rest ih =>
    obtain ⟨a, b⟩ := c
    simp only [memWf, Bool.and_eq_true] at hw
    simp only [memPut]
    split
    · by_cases hv : v = unplacedByte
      · simpa [hv, memWf] using hw
      · simp only [hv, if_false, memWf, Bool.and_eq_true, bne_iff_ne, ne_eq]
        refine ⟨⟨not_false, by simpa [memAbove]⟩, ⟨by simpa using hw.1.1, hw.1.2⟩, hw.2⟩
    · split
      · rename_i _ hxa
        subst hxa
        by_cases hv : v = unplacedByte
        · simpa [hv] using hw.2
        · simp only [hv, if_false, memWf, Bool.and_eq_true, bne_iff_ne, ne_eq]
          exact ⟨⟨not_false, hw.1.2⟩, hw.2⟩
      · simp only [memWf, Bool.and_eq_true]
        exact ⟨⟨hw.1.1, memAbove_memPut (by omega) hw.1.2 hw.2⟩, ih hw.2⟩

/-- An address at or below `lo` is not listed above `lo`. -/
theorem memGet_of_memAbove {lo x : Nat} {mem : List Host.Cell} (hx : x ≤ lo)
    (hm : memAbove lo mem = true) (hw : memWf mem = true) : memGet mem x = unplacedByte := by
  induction mem with
  | nil => rfl
  | cons c rest ih =>
    obtain ⟨a, b⟩ := c
    simp only [memAbove, decide_eq_true_eq] at hm
    simp only [memWf, Bool.and_eq_true] at hw
    rw [memGet, if_neg (by omega)]
    exact ih (memAbove_trans hm.le hw.1.2) hw.2

/-- A read after a write gives the byte written at its address, and what was there elsewhere. -/
theorem memGet_memPut (mem : List Host.Cell) (x y : Nat) (v : Byte) (hw : memWf mem = true) :
    memGet (memPut mem x v) y = if y = x then v else memGet mem y := by
  induction mem with
  | nil =>
    by_cases hv : v = unplacedByte
    · simp [memPut, hv, memGet]
    · simp [memPut, hv, memGet]
  | cons c rest ih =>
    obtain ⟨a, b⟩ := c
    have hw' := hw
    simp only [memWf, Bool.and_eq_true] at hw
    simp only [memPut]
    split
    · rename_i hxa
      by_cases hv : v = unplacedByte
      · simp only [hv, if_true]
        split
        · rename_i hyx
          subst hyx
          rw [memGet, if_neg (by omega)]
          exact memGet_of_memAbove hxa.le hw.1.2 hw.2
        · rfl
      · simp [hv, memGet]
    · split
      · rename_i _ hxa
        subst hxa
        by_cases hv : v = unplacedByte
        · simp only [hv, if_true, memGet]
          split
          · rename_i hyx
            subst hyx
            exact memGet_of_memAbove le_rfl hw.1.2 hw.2
          · rfl
        · simp only [hv, if_false, memGet]
          split <;> rfl
      · simp only [memGet, ih hw.2]
        by_cases hya : y = a
        · subst hya
          simp only [if_true]
          split
          · omega
          · rfl
        · simp [hya]

theorem reset_memWf : memWf State.reset.fb = true := rfl

/-- Placing a byte keeps the canonical form of the frame-buffer space. -/
theorem placeByte_memWf {a : Word} {b : Byte} {s t : State} (h : placeByte a b s = some t)
    (hw : memWf s.fb = true) : memWf t.fb = true := by
  simp only [placeByte] at h
  cases hs : s.seq with
  | idle =>
    rw [hs] at h
    simp only [Option.some.injEq] at h
    rw [← h]
    exact memWf_memPut _ _ _ hw
  | run i k => simp [hs] at h

end Sys2Proof.Machine
end

