-- ==== Sys2Proof/Laws/Triple.lean ====
section
/-! SUPPORT. Reasoning about the execution of a request whatever is answered and however often it is
held: a condition before, a condition at its end, and a condition on every state it stands in,
composed piece by piece. Also the registers that a micro-operation keeps. -/

namespace Sys2Proof.Machine

open Sys2Proof.Safety

/-- The expansion `ops` begun at `s` can stand at `t` with `todo` left of it. A hold or a stop
stands at its micro-operation, and what comes from outside (and the field `todo`) may change wherever the
expansion stands. This counts a stop as a state that may be gone on from, so it is more than can
happen. -/
inductive Reach (P : Config.Params) (ops : List Micro) (s : State) : List Micro → State → Prop where
  | start : Reach P ops s ops s
  | done {op : Micro} {rest : List Micro} {t u : State} : Reach P ops s (op :: rest) t →
      runMicro P op t = .go u → Reach P ops s rest u
  | stays {op : Micro} {rest : List Micro} {t u : State} : Reach P ops s (op :: rest) t →
      (runMicro P op t = .hold u ∨ runMicro P op t = .stop u) → Reach P ops s (op :: rest) u
  | input {todo : List Micro} {t : State} (ps is : List Bool) (ws : List Word) (td : List Micro) :
      Reach P ops s todo t →
      Reach P ops s todo { t with pollIn := ps, initIn := is, req := ws, todo := td }

/-- What comes from outside, and the field `todo`, do not matter to the condition. -/
def Open (p : State → Prop) : Prop :=
  ∀ (s : State) (ps is : List Bool) (ws : List Word) (td : List Micro), p s →
    p { s with pollIn := ps, initIn := is, req := ws, todo := td }

/-- From a state that meets `p`, `r` holds wherever the expansion stands, and `q` at its end. -/
def Triple (P : Config.Params) (p : State → Prop) (ops : List Micro) (q r : State → Prop) : Prop :=
  ∀ s, p s → ∀ todo t, Reach P ops s todo t → r t ∧ (todo = [] → q t)

variable {P : Config.Params} {p q r : State → Prop}

/-! ## Reach -/

/-- An expansion in two pieces stands in the first, or has ended it and stands in the second. -/
theorem Reach.append_cases {xs ys todo : List Micro} {s t : State}
    (h : Reach P (xs ++ ys) s todo t) :
    (∃ xt, todo = xt ++ ys ∧ Reach P xs s xt t) ∨
    ∃ u, Reach P xs s [] u ∧ Reach P ys u todo t := by
  generalize hz : xs ++ ys = zs at h
  induction h with
  | start => exact .inl ⟨xs, hz.symm, .start⟩
  | @done op rest t u _ hu ih =>
    obtain ⟨xt, he, hr⟩ | ⟨v, h1, h2⟩ := ih
    · cases xt with
      | nil => exact .inr ⟨t, hr, by subst he; exact Reach.start.done hu⟩
      | cons o xt =>
        injection he with h1 h2
        subst h1 h2
        exact .inl ⟨xt, rfl, hr.done hu⟩
    · exact .inr ⟨v, h1, h2.done hu⟩
  | @stays op rest t u _ hu ih =>
    obtain ⟨xt, he, hr⟩ | ⟨v, h1, h2⟩ := ih
    · cases xt with
      | nil => exact .inr ⟨t, hr, by subst he; exact Reach.start.stays hu⟩
      | cons o xt =>
        injection he with h1 h2
        subst h1 h2
        exact .inl ⟨op :: xt, rfl, hr.stays hu⟩
    · exact .inr ⟨v, h1, h2.stays hu⟩
  | input ps is ws td _ ih =>
    obtain ⟨xt, he, hr⟩ | ⟨v, h1, h2⟩ := ih
    · exact .inl ⟨xt, he, hr.input ps is ws td⟩
    · exact .inr ⟨v, h1, h2.input ps is ws td⟩

theorem Reach.trans {xs ys zs : List Micro} {s t u : State} (h : Reach P xs s ys t)
    (k : Reach P ys t zs u) : Reach P xs s zs u := by
  induction k with
  | start => exact h
  | done _ hu ih => exact ih.done hu
  | stays _ hu ih => exact ih.stays hu
  | input ps is ws td _ ih => exact ih.input ps is ws td

/-- A run stands where it ends, holds or stops. -/
theorem runMicros_reach (P : Config.Params) (ops : List Micro) (s : State) :
    match runMicros P ops s with
    | .done u => Reach P ops s [] u
    | .held u todo => Reach P ops s todo u
    | .stopped u todo => Reach P ops s todo u := by
  induction ops generalizing s with
  | nil => exact .start
  | cons op rest ih =>
    cases ho : runMicro P op s with
    | go u =>
      rw [runMicros_cons_go ho]
      have h := ih u
      have k : Reach P (op :: rest) s rest u := Reach.start.done ho
      cases hr : runMicros P rest u <;> rw [hr] at h <;> exact k.trans h
    | hold u => rw [runMicros_cons_hold ho]; exact Reach.start.stays (.inl ho)
    | stop u => rw [runMicros_cons_stop ho]; exact Reach.start.stays (.inr ho)

theorem runMicro_seq (op : Micro) (s : State) :
    ∃ n, (microState (runMicro P op s)).seq = seqAdvance n s.seq :=
  (runMicro_updates P op s).emitted.imp' _ fun _ h => h.2

/-- An execution stays at its request (10 R32). -/
theorem Reach.seq {ops todo : List Micro} {s t : State} {i : Instr} {k : Nat}
    (h : Reach P ops s todo t) (hs : s.seq = .run i k) : ∃ n, t.seq = .run i n := by
  induction h with
  | start => exact ⟨k, hs⟩
  | @done op rest t u _ hu ih =>
    obtain ⟨n, hn⟩ := ih
    obtain ⟨a, ha⟩ := runMicro_seq (P := P) op t
    rw [hu, microState_go, hn] at ha
    exact ⟨n + a, ha⟩
  | @stays op rest t u _ hu ih =>
    obtain ⟨n, hn⟩ := ih
    obtain ⟨a, ha⟩ := runMicro_seq (P := P) op t
    rw [hn] at ha
    obtain hu | hu := hu <;> rw [hu] at ha <;> exact ⟨n + a, ha⟩
  | input _ _ _ _ _ ih => exact ih

/-- A step of a run leaves it in flight where it stands, or completed. -/
theorem settle_reach {ops xs : List Micro} {s v : State} {i : Instr} {k : Nat}
    (h : Reach P ops s xs v) (hs : s.seq = .run i k) :
    ((∃ n, (settle (runMicros P xs v)).seq = .run i n) ∧
      Reach P ops s (settle (runMicros P xs v)).todo (settle (runMicros P xs v))) ∨
    ∃ u, Reach P ops s [] u ∧ settle (runMicros P xs v) = complete u := by
  have hr := runMicros_reach P xs v
  cases he : runMicros P xs v with
  | done u => rw [he] at hr; exact .inr ⟨u, h.trans hr, rfl⟩
  | held u todo =>
    rw [he] at hr
    have hu := (h.trans hr).input u.pollIn u.initIn u.req todo
    exact .inl ⟨hu.seq hs, hu⟩
  | stopped u todo =>
    rw [he] at hr
    have hu := (h.trans hr).input u.pollIn u.initIn u.req todo
    exact .inl ⟨hu.seq hs, hu⟩

/-- A step of a request in flight. -/
theorem step_inFlight {s t : State} (hs : s.seq ≠ .idle) (h : step s = .next t) :
    s.fault = none ∧ t = resume Config.params s := by
  cases hf : s.fault with
  | some r => simp [step, hf] at h
  | none =>
    cases hq : s.seq with
    | idle => exact absurd hq hs
    | run i k =>
      simp only [step, hf, hq] at h
      injection h with h
      exact ⟨rfl, h.symm⟩

/-- What arrives changes the ports' inputs alone. -/
theorem arrives_input {s t : State} (h : Arrives s t) :
    ∃ ps is ws, t = { s with pollIn := ps, initIn := is, req := ws } := by
  cases h with
  | poll b => exact ⟨_, s.initIn, s.req, rfl⟩
  | busInit ok => exact ⟨s.pollIn, _, s.req, rfl⟩
  | word w => exact ⟨s.pollIn, s.initIn, _, rfl⟩

/-- Every state of a request's execution is one its expansion can stand at, or the completion of one
it can end in. -/
theorem runs_reach {i : Instr} {s s0 t : State} {e : List Micro}
    (h0 : exec i s = .next (startRequest Config.params i e s0)) (h : Runs i s t) :
    ((∃ n, t.seq = .run i n) ∧ Reach Config.params e (takeUp i s0) t.todo t) ∨
    ∃ u, Reach Config.params e (takeUp i s0) [] u ∧ t = complete u := by
  induction h with
  | taken h1 =>
    rw [h0] at h1
    injection h1 with h1
    subst h1
    exact settle_reach .start rfl
  | goesOn _ hs hu ih =>
    obtain ⟨-, rfl⟩ := step_inFlight hs hu
    obtain ⟨-, hr⟩ | ⟨v, -, rfl⟩ := ih
    · exact settle_reach hr rfl
    · exact absurd rfl hs
  | arrives _ hs ha ih =>
    obtain ⟨ps, is, ws, rfl⟩ := arrives_input ha
    obtain ⟨hn, hr⟩ | ⟨v, -, rfl⟩ := ih
    · exact .inl ⟨hn, hr.input ps is ws _⟩
    · exact absurd rfl hs

/-- A request that faulted as it was taken stays as it is, but for what arrives. -/
theorem runs_faulted {i : Instr} {s t t0 : State} (h0 : exec i s = .next t0)
    (hf : t0.fault ≠ none) (h : Runs i s t) :
    ∃ ps is ws, t = { t0 with pollIn := ps, initIn := is, req := ws } := by
  induction h with
  | taken h1 =>
    rw [h0] at h1
    injection h1 with h1
    subst h1
    exact ⟨t0.pollIn, t0.initIn, t0.req, rfl⟩
  | goesOn _ hs hu ih =>
    obtain ⟨ps, is, ws, rfl⟩ := ih
    exact absurd (step_inFlight hs hu).1 hf
  | arrives _ _ ha ih =>
    obtain ⟨ps, is, ws, rfl⟩ := ih
    obtain ⟨ps', is', ws', rfl⟩ := arrives_input ha
    exact ⟨ps', is', ws', rfl⟩

/-! ## Composing conditions -/

/-- A request whose expansion meets the conditions is in flight in a state of `r`, or has completed
from one of `q`. -/
theorem Triple.runs {i : Instr} {s s0 t : State} {e : List Micro}
    (T : Triple Config.params p e q r)
    (h0 : exec i s = .next (startRequest Config.params i e s0)) (hp : p (takeUp i s0))
    (h : Runs i s t) :
    ((∃ n, t.seq = .run i n) ∧ r t) ∨ ∃ u, q u ∧ r u ∧ t = complete u := by
  obtain ⟨hn, hr⟩ | ⟨u, hr, rfl⟩ := runs_reach h0 h
  · exact .inl ⟨hn, (T _ hp _ _ hr).1⟩
  · exact .inr ⟨u, (T _ hp _ _ hr).2 rfl, (T _ hp _ _ hr).1, rfl⟩

theorem Triple.append {q' : State → Prop} {xs ys : List Micro} (h1 : Triple P p xs q r)
    (h2 : Triple P q ys q' r) : Triple P p (xs ++ ys) q' r := by
  intro s hs todo t ht
  obtain ⟨xt, rfl, hr⟩ | ⟨u, hu, hr⟩ := ht.append_cases
  · refine ⟨(h1 s hs _ _ hr).1, fun he => ?_⟩
    obtain ⟨rfl, rfl⟩ := List.append_eq_nil_iff.1 he
    exact (h2 t ((h1 s hs _ _ hr).2 rfl) _ _ .start).2 rfl
  · exact h2 u ((h1 s hs _ _ hu).2 rfl) _ _ hr

/-- A condition that each operation keeps is kept throughout. -/
theorem Triple.keep {ops : List Micro} (ho : Open p)
    (h : ∀ op ∈ ops, ∀ s, p s → p (microState (runMicro P op s))) : Triple P p ops p p := by
  intro s hs todo t ht
  have key : (∀ op ∈ todo, op ∈ ops) ∧ p t := by
    induction ht with
    | start => exact ⟨fun _ h => h, hs⟩
    | @done op rest t u _ hu ih =>
      have := h op (ih.1 op (by simp)) t ih.2
      rw [hu, microState_go] at this
      exact ⟨fun o ho => ih.1 o (by simp [ho]), this⟩
    | @stays op rest t u _ hu ih =>
      have := h op (ih.1 op (by simp)) t ih.2
      obtain hu | hu := hu <;> rw [hu] at this <;> exact ⟨ih.1, this⟩
    | input ps is ws td _ ih => exact ⟨ih.1, ho _ _ _ _ _ ih.2⟩
  exact ⟨key.2, fun _ => key.2⟩

theorem Triple.weaken {p' q' r' : State → Prop} {ops : List Micro} (h : Triple P p ops q r)
    (hp : ∀ s, p' s → p s) (hq : ∀ s, q s → q' s) (hr : ∀ s, r s → r' s) :
    Triple P p' ops q' r' :=
  fun s hs _ _ ht => ⟨hr _ (h s (hp s hs) _ _ ht).1, fun he => hq _ ((h s (hp s hs) _ _ ht).2 he)⟩

/-- Nothing is asked. -/
theorem Triple.trivial (ops : List Micro) :
    Triple P p ops (fun _ => True) (fun _ => True) :=
  fun _ _ _ _ _ => ⟨True.intro, fun _ => True.intro⟩

/-- One operation: `p` holds as long as it stands there, `q` once it is done. -/
theorem Triple.one {op : Micro} (hp : Open p) (hq : Open q)
    (h : ∀ s, p s → match runMicro P op s with
      | .go u => q u
      | .hold u => p u
      | .stop u => p u) : Triple P p [op] q (fun s => p s ∨ q s) := by
  intro s hs todo t ht
  have key : (todo = [op] ∧ p t) ∨ (todo = [] ∧ q t) := by
    induction ht with
    | start => exact .inl ⟨rfl, hs⟩
    | @done o rest t u _ hu ih =>
      obtain ⟨he, hpt⟩ | ⟨he, -⟩ := ih
      · injection he with h1 h2
        subst h1 h2
        have := h t hpt
        rw [hu] at this
        exact .inr ⟨rfl, this⟩
      · cases he
    | @stays o rest t u _ hu ih =>
      obtain ⟨he, hpt⟩ | ⟨he, -⟩ := ih
      · injection he with h1 h2
        subst h1 h2
        have := h t hpt
        obtain hu | hu := hu <;> rw [hu] at this <;> exact .inl ⟨rfl, this⟩
      · cases he
    | input ps is ws td _ ih =>
      exact ih.imp (fun h => ⟨h.1, hp _ _ _ _ _ h.2⟩) (fun h => ⟨h.1, hq _ _ _ _ _ h.2⟩)
  obtain ⟨rfl, hpt⟩ | ⟨rfl, hqt⟩ := key
  · exact ⟨.inl hpt, fun he => by cases he⟩
  · exact ⟨.inr hqt, fun _ => hqt⟩

/-- A guarded expansion: it runs after an ok BUSINIT and is skipped after a failed one. -/
theorem Triple.ifUp {ops : List Micro} (ha : ∀ op ∈ ops, asksNoBus op = true) (hp : Open p)
    (h : Triple P (fun s => p s ∧ s.busOk = true) ops q r)
    (hd : ∀ s, p s → s.busOk = false → q s ∧ r s) : Triple P p (ops.map .ifUp) q r := by
  intro s hs todo t ht
  cases hb : s.busOk
  · have key : p t ∧ t.busOk = false ∧ ∃ xs : List Micro, todo = xs.map Micro.ifUp := by
      induction ht with
      | start => exact ⟨hs, hb, ops, rfl⟩
      | @done o rest t u _ hu ih =>
        obtain ⟨h1, h2, xs, he⟩ := ih
        cases xs with
        | nil => cases he
        | cons x xs =>
          injection he with e1 e2
          subst e1 e2
          simp only [runMicro, h2, Bool.false_eq_true, if_false] at hu
          injection hu with hu
          subst hu
          exact ⟨h1, h2, xs, rfl⟩
      | @stays o rest t u _ hu ih =>
        obtain ⟨h1, h2, xs, he⟩ := ih
        cases xs with
        | nil => cases he
        | cons x xs =>
          injection he with e1 e2
          subst e1
          simp [runMicro, h2] at hu
      | input ps is ws td _ ih => exact ⟨hp _ _ _ _ _ ih.1, ih.2⟩
    exact ⟨(hd t key.1 key.2.1).2, fun _ => (hd t key.1 key.2.1).1⟩
  · have key : t.busOk = true ∧ ∃ xs : List Micro, todo = xs.map Micro.ifUp ∧ Reach P ops s xs t ∧
        ∀ op ∈ xs, asksNoBus op = true := by
      induction ht with
      | start => exact ⟨hb, ops, rfl, .start, ha⟩
      | @done o rest t u _ hu ih =>
        obtain ⟨h1, xs, he, hr, hn⟩ := ih
        cases xs with
        | nil => cases he
        | cons x xs =>
          injection he with e1 e2
          subst e1 e2
          simp only [runMicro, h1, if_true] at hu
          have hk := runMicro_busOk (P := P) (hn x (by simp)) t
          rw [hu, microState_go] at hk
          exact ⟨hk.trans h1, xs, rfl, hr.done hu, fun o ho => hn o (by simp [ho])⟩
      | @stays o rest t u _ hu ih =>
        obtain ⟨h1, xs, he, hr, hn⟩ := ih
        cases xs with
        | nil => cases he
        | cons x xs =>
          injection he with e1 e2
          subst e1 e2
          simp only [runMicro, h1, if_true] at hu
          have hk := runMicro_busOk (P := P) (hn x (by simp)) t
          obtain hu' | hu' := hu <;> rw [hu'] at hk <;>
            exact ⟨hk.trans h1, x :: xs, rfl, hr.stays (by simp [hu']), hn⟩
      | input ps is ws td _ ih =>
        obtain ⟨h1, xs, he, hr, hn⟩ := ih
        exact ⟨h1, xs, he, hr.input ps is ws td, hn⟩
    obtain ⟨-, xs, rfl, hr, -⟩ := key
    refine ⟨(h s ⟨hs, hb⟩ _ _ hr).1, fun he => ?_⟩
    rw [List.map_eq_nil_iff] at he
    subst he
    exact (h s ⟨hs, hb⟩ _ _ hr).2 rfl

theorem Triple.flatMap {α : Type} (f : α → List Micro) (as : List α) (hp : Open p)
    (hpr : ∀ s, p s → r s) (h : ∀ a ∈ as, Triple P p (f a) p r) :
    Triple P p (as.flatMap f) p r := by
  induction as with
  | nil =>
    exact (Triple.keep hp (by simp)).weaken (fun _ h => h) (fun _ h => h) hpr
  | cons a as ih =>
    rw [List.flatMap_cons]
    exact Triple.append (h a (by simp)) (ih fun b hb => h b (by simp [hb]))

/-! ## Registers that operations keep -/

/-- The lifecycle registers and the counter are the same. -/
structure SameRegs (s t : State) : Prop where
  m : t.m = s.m
  n : t.n = s.n
  mnValid : t.mnValid = s.mnValid
  wcc : t.wcc = s.wcc
  life : t.life = s.life

theorem SameRegs.refl (s : State) : SameRegs s s := ⟨rfl, rfl, rfl, rfl, rfl⟩

theorem SameRegs.trans {a b c : State} (h : SameRegs a b) (k : SameRegs b c) : SameRegs a c :=
  ⟨k.m.trans h.m, k.n.trans h.n, k.mnValid.trans h.mnValid, k.wcc.trans h.wcc,
    k.life.trans h.life⟩

/-- The operation writes none of S.M, S.N, S.MN_VALID, S.WCC and S.LIFE. -/
def writesNoReg : Micro → Bool
  | .resetSeq => false
  | .storeCoeffs _ _ => false
  | .fallAsleep => false
  | .advanceWcc => false
  | .ifUp op => writesNoReg op
  | _ => true

theorem sendReads_sameRegs (rs : List (Except Fault Byte)) (s : State) :
    SameRegs s (microState (sendReads rs s)) := by
  induction rs generalizing s with
  | nil => exact .refl s
  | cons r rs ih =>
    cases r with
    | ok b =>
      have h : SameRegs s (sendData [b] s) := ⟨rfl, rfl, rfl, rfl, rfl⟩
      exact h.trans (ih _)
    | error r => exact ⟨rfl, rfl, rfl, rfl, rfl⟩

theorem packGroups_sameRegs (a t : Nat) (gs : List Nat) (s : State) :
    SameRegs s (microState (packGroups a t gs s)) := by
  induction gs generalizing s with
  | nil => exact .refl s
  | cons g gs ih =>
    simp only [packGroups]
    cases groupSamples s a g with
    | ok bs =>
      have h : SameRegs s { s with scratch := s.scratch.setIfInBounds g (pack8 t bs) } :=
        ⟨rfl, rfl, rfl, rfl, rfl⟩
      exact h.trans (ih _)
    | error r => exact ⟨rfl, rfl, rfl, rfl, rfl⟩

theorem waitBusy_sameRegs (polls : List Bool) (s : State) :
    SameRegs s (microState (waitBusy polls s)) := by
  induction polls generalizing s with
  | nil => simp only [waitBusy]; split <;> exact ⟨rfl, rfl, rfl, rfl, rfl⟩
  | cons b rest ih =>
    cases b with
    | true =>
      have h : SameRegs s (emit [.poll true, .delay 1] s) := ⟨rfl, rfl, rfl, rfl, rfl⟩
      exact h.trans (ih _)
    | false => exact ⟨rfl, rfl, rfl, rfl, rfl⟩

/-- An operation that names none of the registers keeps them all. -/
theorem runMicro_sameRegs {op : Micro} (hop : writesNoReg op = true) (s : State) :
    SameRegs s (microState (runMicro P op s)) := by
  induction op generalizing s with
  | resetSeq => exact Bool.noConfusion hop
  | storeCoeffs m n => exact Bool.noConfusion hop
  | fallAsleep => exact Bool.noConfusion hop
  | advanceWcc => exact Bool.noConfusion hop
  | frame a n => exact sendReads_sameRegs _ _
  | lut v t ov => exact sendReads_sameRegs _ _
  | pack a t => exact packGroups_sameRegs _ _ _ _
  | waitBusy => exact waitBusy_sameRegs _ _
  | ifUp op ih =>
    simp only [runMicro]
    split
    · exact ih hop s
    · exact .refl s
  | _ => exact ⟨rfl, rfl, rfl, rfl, rfl⟩

/-- An expansion that names none of the registers keeps them all, held or not. -/
theorem Triple.sameRegs {ops : List Micro} (hops : ∀ op ∈ ops, writesNoReg op = true) (s : State) :
    Triple P (SameRegs s) ops (SameRegs s) (SameRegs s) :=
  Triple.keep (fun _ _ _ _ _ h => ⟨h.m, h.n, h.mnValid, h.wcc, h.life⟩)
    fun op ho _ hu => hu.trans (runMicro_sameRegs (hops op ho) _)

end Sys2Proof.Machine
end

