-- ==== Sys2Proof/Tests/Slice0.lean ====
section
/-! SUPPORT. The model's own tests: expected values are those of spec/95_test_vectors.md or worked
by hand from the rule named. At the end, for each statement with hypotheses, a witness that meets
them. -/

namespace Sys2Proof.Tests

open Sys2Proof Sys2Proof.Machine Sys2Proof.Safety

/-! ## WellFormed: each check refuses an ill-formed term (30 R110) -/

theorem test_wf_null_buffer_word :
    (Instr.setWin true 1 0 0 8 1 5).wf = false ∧ (Instr.setWin true 1 0 0 8 1 0).wf = true ∧
    (Instr.setWin false 1 0 0 8 1 5).wf = true ∧
    (Instr.display true 5).wf = false ∧ (Instr.display true 0).wf = true ∧
    (Instr.display false 5).wf = true := by decide

theorem test_asm_refuses_coefficients :
    assemble (.init 256 0) = none ∧ assemble (.init 0 256) = none ∧
    assemble (.wake 256 0) = none ∧ assemble (.wake 0 256) = none ∧
    assemble (.init 255 255) = some [0xFFFF0001] := by decide

theorem test_asm_refuses_window :
    assemble (.setWin (.addr (2 ^ 32)) 0 0 8 1 1) = none ∧
    assemble (.setWin .null 65536 0 8 1 1) = none ∧
    assemble (.setWin .null 0 65536 8 1 1) = none ∧
    assemble (.setWin .null 0 0 65536 1 1) = none ∧
    assemble (.setWin .null 0 0 8 65536 1) = none ∧
    assemble (.setWin .null 0 0 8 1 256) = none := by decide

theorem test_asm_refuses_clearwin :
    assemble (.clearWin 65536 0 8 1 1) = none ∧ assemble (.clearWin 0 65536 8 1 1) = none ∧
    assemble (.clearWin 0 0 65536 1 1) = none ∧ assemble (.clearWin 0 0 8 65536 1) = none ∧
    assemble (.clearWin 0 0 8 1 256) = none := by decide

theorem test_asm_refuses_others :
    assemble (.display (.addr (2 ^ 32))) = none ∧ assemble (.shade 256) = none ∧
    assemble (.gray (2 ^ 32)) = none := by decide

/-! ## Decoding: the words of V-ENC, and of programs P1 to P6 -/

theorem test_decode_init : decode [0x02070001] = .legal (.init 7 2) [] := by decide

theorem test_decode_reset :
    decode [0x00000002] = .legal .reset [] ∧
    decode [0x00010002] = .illegal 0x00010002 .fixedField [] := by decide

theorem test_decode_sleep : decode [0x00000003] = .legal .sleep [] := by decide

theorem test_decode_wake :
    decode [0x01050004] = .legal (.wake 5 1) [] ∧
    decode [0x02070004] = .legal (.wake 7 2) [] := by decide

theorem test_decode_waitIdle : decode [0x00000005] = .legal .waitIdle [] := by decide

theorem test_decode_clear : decode [0x00000010] = .legal .clear [] := by decide

theorem test_decode_setWin :
    decode [0x00020011, 0x00000008, 0x00020010, 0x00001000] =
      .legal (.setWin false 2 8 0 16 2 0x1000) [] ∧
    decode [0x00010111, 0x00000000, 0x00010008, 0x00000000] =
      .legal (.setWin true 1 0 0 8 1 0) [] ∧
    decode [0x00000411, 1, 2, 3] = .illegal 0x00000411 .fixedField [] := by decide

theorem test_decode_display :
    decode [0x00000120, 0x00000000] = .legal (.display true 0) [] ∧
    decode [0x00000020, 0x00003000] = .legal (.display false 0x3000) [] := by decide

theorem test_decode_quick : decode [0x00000021] = .legal .quick [] := by decide

theorem test_decode_healthy :
    decode [0x00000022] = .legal (.healthy false) [] ∧
    decode [0x00000222] = .legal (.healthy true) [] ∧
    decode [0x00000122] = .illegal 0x00000122 .fixedField [] := by decide

theorem test_decode_shade :
    decode [0x00030023] = .legal (.shade 3) [] ∧
    decode [0x00FF0023] = .legal (.shade 255) [] := by decide

theorem test_decode_gray :
    decode [0x00000030, 0x00002000] = .legal (.gray 0x2000) [] ∧
    decode [0x00000130, 0x00002000] = .illegal 0x00000130 .fixedField [] := by decide

theorem test_decode_reserved :
    decode [0x000000FF] = .illegal 0x000000FF .reservedOpcode [] ∧
    decode [0x00000000] = .illegal 0x00000000 .reservedOpcode [] ∧
    decode [0x00000006] = .illegal 0x00000006 .reservedOpcode [] := by decide

/-- The assembler writes the words of V-ENC, CLEARWIN and FULL included (30 R110, R111). -/
theorem test_assemble :
    assemble (.init 7 2) = some [0x02070001] ∧ assemble .reset = some [0x00000002] ∧
    assemble .sleep = some [0x00000003] ∧ assemble (.wake 5 1) = some [0x01050004] ∧
    assemble .waitIdle = some [0x00000005] ∧ assemble .clear = some [0x00000010] ∧
    assemble (.setWin (.addr 0x1000) 8 0 16 2 2) =
      some [0x00020011, 0x00000008, 0x00020010, 0x00001000] ∧
    assemble (.clearWin 0 0 8 1 1) = some [0x00010111, 0x00000000, 0x00010008, 0x00000000] ∧
    assemble .full = some [0x00000120, 0x00000000] ∧
    assemble (.display (.addr 0x3000)) = some [0x00000020, 0x00003000] ∧
    assemble .quick = some [0x00000021] ∧ assemble .healthy = some [0x00000022] ∧
    assemble .healthyRst = some [0x00000222] ∧ assemble (.shade 3) = some [0x00030023] ∧
    assemble (.gray 0x2000) = some [0x00000030, 0x00002000] := by decide

/-- A table word's later words count on from bit 32; words the table gives no bits are 0. -/
theorem test_decodeTableWord :
    decodeTableWord 32 0x02070001 = some (.init 7 2) ∧
    decodeTableWord 64 0x0000300000000020 = some (.display false 0x3000) ∧
    decodeTableWord 32 0x00020011 = some (.setWin false 2 0 0 0 0 0) ∧
    decodeTableWord 128 0x00001000000200100000000800020011 =
      some (.setWin false 2 8 0 16 2 0x1000) ∧
    decodeTableWord 32 0x000000FF = none := by decide

/-! ## Operand computations -/

/-- V-PLL. -/
theorem test_pll :
    pll 7 2 = 0x3A ∧ pll 5 1 = 0x29 ∧ pll 8 0 = 0x00 ∧ pll 255 255 = 0x3F ∧ pll 13 1 = 0x29 ∧
    pll 0 0 = 0x00 ∧ pll 1 7 = 0x0F ∧ pll 3 4 = 0x1C := by decide

/-- V-WIN: bytes. -/
theorem test_winBytes :
    winBytes 0 0 400 300 = [0x00, 0x00, 0x01, 0x8F, 0x00, 0x00, 0x01, 0x2B] ∧
    winBytes 13 10 16 2 = [0x00, 0x08, 0x00, 0x17, 0x00, 0x0A, 0x00, 0x0B] ∧
    winBytes 248 0 16 1 = [0x00, 0xF8, 0x01, 0x07, 0x00, 0x00, 0x00, 0x00] ∧
    winBytes 0 0 0 0 = [0x00, 0x00, 0xFF, 0xFF, 0x00, 0x00, 0xFF, 0xFF] ∧
    winBytes 16 5 0 3 = [0x00, 0x10, 0x00, 0x0F, 0x00, 0x05, 0x00, 0x07] ∧
    winBytes 0 0 7 5 = [0x00, 0x00, 0x00, 0x07, 0x00, 0x00, 0x00, 0x04] ∧
    winBytes 256 0 8 1 = [0x01, 0x00, 0x00, 0x07, 0x00, 0x00, 0x00, 0x00] ∧
    winBytes 392 299 8 1 = [0x01, 0x88, 0x00, 0x8F, 0x01, 0x2B, 0x01, 0x2B] := by decide

/-- V-WIN: counts and PV. -/
theorem test_windowHazard :
    winCount 400 300 = 15000 ∧ winCount 7 5 = 0 ∧ winCount 12 3 = 3 ∧
    windowHazard 0 0 400 300 = false ∧ windowHazard 13 10 16 2 = true ∧
    windowHazard 248 0 16 1 = false ∧ windowHazard 0 299 400 1 = false ∧
    windowHazard 0 0 0 0 = true ∧ windowHazard 16 5 0 3 = true ∧ windowHazard 0 0 7 5 = true ∧
    windowHazard 0 0 12 3 = true ∧ windowHazard 256 0 8 1 = true ∧
    windowHazard 392 299 8 1 = true := by decide

/-- V-CNT: the passes of HEAVY_CYCLE_NR = 3 from WCC = 0, and of 1. -/
theorem test_weak_cycle :
    ((List.range 7).map fun k => strongPass ((nextWcc 3)^[k] 0)) =
      [true, false, false, true, false, false, true] ∧
    ((List.range 7).map fun k => (nextWcc 3)^[k + 1] 0) = [1, 2, 0, 1, 2, 0, 1] ∧
    nextWcc 1 0 = 0 ∧ nextWcc 3 2 = 0 := by decide

/-- V-SHADE. -/
theorem test_shadeValue :
    [0, 1, 2, 3, 4, 5, 6, 7, 8, 118, 119, 255].map shadeValue =
      [2, 4, 6, 8, 10, 12, 14, 17, 19, 254, 1, 36] := by decide

/-- V-THR. -/
theorem test_threshold :
    (List.range 8).map threshold = [224, 192, 160, 128, 96, 64, 32, 0] := by decide

/-- V-PACK. -/
theorem test_pack8 :
    [224, 192, 160, 128, 96, 64, 32, 0].map
      (fun t => pack8 t [0, 223, 224, 255, 100, 191, 192, 10]) =
      [0xCF, 0x8D, 0x89, 0x89, 0x81, 0x81, 0x81, 0x00] ∧
    pack8 224 (List.replicate 8 0) = 0xFF ∧ pack8 224 (List.replicate 8 255) = 0x00 ∧
    pack8 129 (List.replicate 8 128) = 0xFF ∧ pack8 128 (List.replicate 8 128) = 0x00 := by decide

/-- The ROM addresses the overrides replace, of V-LUT. -/
theorem test_romAddr :
    tables.map (fun t => romAddr .quick t 5) = [217, 261, 303, 345, 387] ∧
    romAddr .shade .bb 1 = 595 ∧ romAddr .shade .bb 2 = 596 ∧ romAddr .shade .bb 41 = 635 := by
  decide

/-- The bytes of the healthy overrides of V-CNT at offset 5. -/
theorem test_overrides :
    tables.map (fun t => overrideAt .strong t 5) =
      [some 1, some 1, some 2, some 2, some 1] ∧
    tables.map (fun t => overrideAt .weak t 5) =
      [some 1, some 0, some 2, some 2, some 0] ∧
    overrideAt .strong .ww 4 = none ∧ overrideAt (.shade 3) .bb 2 = some 8 ∧
    overrideAt (.shade 3) .wb 2 = none := by decide

/-! ## Memory -/

/-- A write keeps the canonical form, and writing the unlisted value removes the entry. -/
theorem test_memPut :
    memPut (memPut [] 5 7) 3 9 = [(3, 9), (5, 7)] ∧ memPut [(3, 9), (5, 7)] 3 0 = [(5, 7)] ∧
    memPut [(3, 9)] 3 8 = [(3, 8)] ∧ memWf [(3, 9), (5, 7)] = true ∧
    memWf [(5, 7), (3, 9)] = false ∧ memWf [(3, 0)] = false := by decide

/-! ## Requests, on the default parameters with HEAVY_CYCLE_NR = 3 -/

/-- The decided defaults, with a ROM of zeros. -/
def params3 : Config.Params := defaultParams 2 fun _ => 0

/-- A small idle state with a window of its own and listed answers. -/
def base : State :=
  { State.reset with
    fbBase := 0x1000, fbSize := 0x20000, pollIn := [false], initIn := [true] }

/-- V-LIFE, `INIT 7,2`. -/
theorem test_init :
    (runInit params3 7 2 base).trace =
      [.busInit true, .cmd 0x01, .dat 0x03, .dat 0x00, .dat 0x2B, .dat 0x2B, .dat 0xFF, .cmd 0x06,
        .dat 0x17, .dat 0x17, .dat 0x17, .cmd 0x04, .poll false, .cmd 0x00, .dat 0xBF, .dat 0x0B,
        .cmd 0x30, .dat 0x3A] ∧
    (runInit params3 7 2 base).life = .active ∧ (runInit params3 7 2 base).pv = false := by
  decide

/-- V-LIFE, a failing BUSINIT. -/
theorem test_init_fails :
    (runInit params3 7 2 { base with initIn := [false] }).trace = [.busInit false] ∧
    (runInit params3 7 2 { base with initIn := [false] }).status = 0xFF ∧
    (runInit params3 7 2 { base with initIn := [false] }).mnValid = false := by decide

/-- P6, INIT of a sleeping panel: PV, and LIFE stays ASLEEP (10 R51, 70 R288). -/
theorem test_init_asleep :
    (runInit params3 7 2 { base with life := .asleep }).pv = true ∧
    (runInit params3 7 2 { base with life := .asleep }).life = .asleep := by decide

/-- A free BUSINIT draw takes no POLL draw (10 R47, 70 R297). -/
theorem test_draws_apart :
    (busInitOp { base with initIn := [] }).pollDraws = 0 ∧
    (busInitOp { base with initIn := [] }).initDraws = 1 := ⟨rfl, rfl⟩

/-- V-LIFE, `RESET`. -/
theorem test_reset :
    (runReset params3 base).trace = [.pin .low, .delay 200, .pin .high, .delay 200] ∧
    (runReset params3 base).rsp = [0x00] := by decide

/-- V-LIFE, `SLEEP` while UNINIT: 16 actions and PV. -/
theorem test_sleep :
    (runSleep params3 base).trace =
      [.cmd 0x50, .dat 0x17, .cmd 0x82, .cmd 0x00, .delay 100, .cmd 0x01, .dat 0x00, .dat 0x00,
        .dat 0x00, .dat 0x00, .dat 0x00, .delay 100, .cmd 0x02, .poll false, .cmd 0x07,
        .dat 0xA5] ∧
    (runSleep params3 base).life = .asleep ∧ (runSleep params3 base).pv = true := by decide

/-- V-LIFE, `WAKE 5,1` and `WAKE 5,1` with a failing BUSINIT. -/
theorem test_wake :
    (runWake params3 5 1 base).trace.length = 22 ∧ (runWake params3 5 1 base).life = .active ∧
    (runWake params3 5 1 { base with initIn := [false] }).trace.length = 5 ∧
    (runWake params3 5 1 { base with initIn := [false] }).life = .uninit := by decide

/-- V-LIFE, `WAITIDLE` with answers true, true, false. -/
theorem test_waitIdle :
    (runWaitIdle params3 { base with pollIn := [true, true, false] }).trace =
      [.poll true, .delay 1, .poll true, .delay 1, .poll false] ∧
    (runWaitIdle params3 { base with pollIn := [true, true, false] }).seq = .idle := by decide

/-- V-CLR and E1: the resolution bytes and the count of white bytes. -/
theorem test_clear :
    resolutionBytes = [0x01, 0x90, 0x01, 0x2C] ∧ frameBytes = 15000 ∧
    clearExpansion params3 =
      [.cmd 0x61, .dat [0x01, 0x90, 0x01, 0x2C], .cmd 0x10, .dat (List.replicate frameBytes 0xFF),
        .cmd 0x13, .dat (List.replicate frameBytes 0xFF)] := ⟨by decide, by decide, rfl⟩

/-- The active state of program P3, with its frame-buffer bytes. -/
def active3 : State :=
  { base with
    life := .active, m := 7, n := 2, mnValid := true
    fb := [(0x1000, 0xAA), (0x1001, 0x55), (0x1002, 0xF0), (0x1003, 0x0F)] }

/-- P3, request 1. -/
theorem test_setWin_buffer :
    (runSetWin params3 false 2 8 0 16 2 0x1000 active3).trace =
      [.cmd 0x91, .cmd 0x90, .dat 0x00, .dat 0x08, .dat 0x00, .dat 0x17, .dat 0x00, .dat 0x00,
        .dat 0x00, .dat 0x01, .dat 0x01, .cmd 0x13, .dat 0xAA, .dat 0x55, .dat 0xF0, .dat 0x0F,
        .cmd 0x92] ∧
    (runSetWin params3 false 2 8 0 16 2 0x1000 active3).pv = false := by decide

/-- P3, request 1 where FB_SIZE excludes 0x1002: the fault, and no status. -/
theorem test_setWin_fault :
    (runSetWin params3 false 2 8 0 16 2 0x1000 { active3 with fbSize := 2 }).fault =
      some (.fbOutOfRange 0x1002) ∧
    (runSetWin params3 false 2 8 0 16 2 0x1000 { active3 with fbSize := 2 }).trace.drop 11 =
      [.cmd 0x13, .dat 0xAA, .dat 0x55] ∧
    (runSetWin params3 false 2 8 0 16 2 0x1000 { active3 with fbSize := 2 }).rsp = [] := by decide

/-- DISPLAY's data command on the default channel, and the FULL variant (43 R194). -/
theorem test_display :
    displayData params3 false 0x3000 = [.cmd 0x13, .frame 0x3000 frameBytes] ∧
    displayData params3 true 0x3000 = [] ∧ lutTag .full .none = .full := ⟨rfl, rfl, rfl⟩

/-- V-LUT: a LUT set is 217 actions, and its healthy bytes at offset 5. -/
theorem test_lut_bytes :
    tables.map lutLen = [44, 42, 42, 42, 42] ∧
    (tables.map fun t => lutLen t + 1).sum = 217 ∧
    (lutBytes params3 .quick .weak .vcom)[5]? = some 1 ∧
    (lutBytes params3 .quick .weak .ww)[5]? = some 0 := by decide

/-- QUICK is its LUT set, 0x12 and the wait (43 R195). -/
theorem test_quick :
    blockingRefresh params3 .quick = sendLut params3 .quick .none ++ [.cmd 0x12, .waitBusy] := by
  decide

/-- HEALTHY's expansion ends with no wait, and `rst` restarts the cycle (43 R197). -/
theorem test_healthy :
    (healthyExpansion params3 true).drop 11 = [.advanceWcc, .cmd 0x12, .markBusy] ∧
    (resetCounter true { base with wcc := 2 }).wcc = 0 ∧
    (resetCounter false { base with wcc := 2 }).wcc = 2 := by decide

/-- SHADE: the clock check first; V-SHADE's PV row at its boundary (70 R287, R291). -/
theorem test_shade :
    (shadeSeq params3 0).take 2 = [.shadeClock, .cmd 0x20] ∧ passHazard 7 = false ∧
    passHazard 8 = true ∧ atShadeClock { base with mnValid := true, m := 13, n := 1 } = false := by
  decide

/-- V-GRAY: coefficients unset, and the bracket's choice on all 8 bits of M and N. -/
theorem test_gray :
    (runGray params3 0x2000 base).fault = some .unsetCoefficients ∧
    (runGray params3 0x2000 base).trace = [] ∧
    bracket params3 ((5, 1) != ((5, 1) : Byte × Byte)) 5 1 = [] ∧
    (bracket params3 ((13, 1) != ((5, 1) : Byte × Byte)) 13 1).length = 13 := by decide

/-- V-GRAY, a row of samples 0x80: 0xFF in pass 0 and 0x00 in pass 3. -/
theorem test_gray_row :
    pack8 (threshold 0) (List.replicate 8 0x80) = 0xFF ∧
    pack8 (threshold 2) (List.replicate 8 0x80) = 0xFF ∧
    pack8 (threshold 3) (List.replicate 8 0x80) = 0x00 := by decide

/-- The transport levels of a POLL: busy is the level BUSY_ACTIVE (40 R131, R136). -/
theorem test_transport :
    primitives params3 (.poll true) = [.readBusy .low] ∧
    primitives params3 (.poll false) = [.readBusy .high] ∧
    primitives params3 (.cmd 0x12) = [.setPin .dc .low, .transfer 0x12] ∧
    primitives params3 (.dat 0x12) = [.setPin .dc .high, .transfer 0x12] := by decide

/-! ## Witnesses: states and operands that meet each statement's hypotheses -/

/-- An idle state with these words on REQ. -/
def asking (ws : List Word) : State := { base with req := ws }

/-- A state whose passes all have an answer: the coefficients (m, n), and the busy counts of the
Inits before, the passes and the Inits after. -/
def answered (m n : Byte) (before after : List Nat) (inits : List Bool) : State :=
  { base with
    mnValid := true, m := m, n := n, life := .active, initIn := inits
    pollIn := pollsOf before ++ (pollsOf (List.replicate (passCount Config.params) 0) ++
      pollsOf after) }

theorem witness_EncodeOfDecode :
    decode [0x02070001, 5] = .legal (.init 7 2) [5] ∧
    decode [0x00000120, 9] = .legal (.display true 9) [] := by decide

/-- Both clauses, at the boundary of each length, and a state that waits for a word. -/
theorem witness_LengthComesFromOpcode :
    (1 < 2 ∧ (asking [0x00000030]).fault = none ∧ (asking [0x00000030]).seq = .idle ∧
      (asking [0x00000030]).req = 0x00000030 :: []) ∧
    (∃ (h : Word) (ws : List Word), h.extractLsb' 0 8 = 0x11 ∧ ws.length + 1 < 4 ∧
      decode (h :: ws) = .wait) ∧
    (∃ (h : Word) (ws : List Word), h.extractLsb' 0 8 = 0x11 ∧ 4 ≤ ws.length + 1 ∧
      decode (h :: ws) = .legal (.setWin false 0 0 0 0 0 0) []) ∧
    (∃ (h : Word) (ws : List Word), h.extractLsb' 0 8 = 0x30 ∧ ws.length + 1 < 2 ∧
      decode (h :: ws) = .wait) ∧
    (∃ (h : Word) (ws : List Word), h.extractLsb' 0 8 = 0xFF ∧ 1 ≤ ws.length + 1 ∧
      decode (h :: ws) = .illegal h .reservedOpcode []) :=
  ⟨⟨by decide, rfl, rfl, rfl⟩, ⟨0x11, [0, 0], by decide⟩, ⟨0x11, [0, 0, 0], by decide⟩,
    ⟨0x30, [], by decide⟩,
    ⟨0xFF, [], by decide⟩⟩

theorem witness_IllegalRequestChangesOnlyStatus :
    (asking [0x00000130, 7]).fault = none ∧ (asking [0x00000130, 7]).seq = .idle ∧
    (asking [0x00000130, 7]).req = [0x00000130, 7] ∧
    (∀ r ∈ opTable, (0x00000130 : Word) &&& r.mask ≠ r.pattern) ∧
    requestLength (opcOf 0x00000130) ≤ [(7 : Word)].length + 1 := by decide

theorem witness_StepRunsTheDecodedRequest :
    (asking [0x00000003]).fault = none ∧ (asking [0x00000003]).seq = .idle ∧
    decode (asking [0x00000003]).req = .legal .sleep [] := by decide

theorem witness_StepWaitsForWords :
    (asking [0x00000011, 0, 0]).fault = none ∧ (asking [0x00000011, 0, 0]).seq = .idle ∧
    decode (asking [0x00000011, 0, 0]).req = .wait := by decide

/-- A SLEEP held at its wait. -/
def holding : State :=
  { base with seq := .run .sleep 13, todo := [.waitBusy, .cmd 0x07], pollIn := [] }

/-- A WAKE held at the wait of its Init. -/
def holdingWake : State :=
  { base with seq := .run (.wake 7 2) 16, todo := [.ifUp .waitBusy, .ifUp (.storeCoeffs 7 2)] }

/-- Both forms and both clauses: no answer listed, busy ones alone, and a not-busy one after
some. -/
theorem witness_HeldRequestPollsAgain :
    (holding.fault = none ∧ holding.seq = .run .sleep 13 ∧
      holding.todo = .waitBusy :: [.cmd 0x07] ∧ holding.pollIn = List.replicate 0 true ∧
      { holding with pollIn := [true, false, true] }.pollIn = pollsOf [1] ++ [true]) ∧
    (holdingWake.fault = none ∧ holdingWake.seq = .run (.wake 7 2) 16 ∧
      holdingWake.todo = .ifUp .waitBusy :: [.ifUp (.storeCoeffs 7 2)] ∧
      holdingWake.busOk = true ∧ holdingWake.pollIn = pollsOf [0] ++ [] ∧
      { holdingWake with pollIn := [true, true] }.pollIn = List.replicate 2 true) := by decide

/-- Both clauses. -/
theorem witness_FaultedBlockStops :
    { base with fault := some .unsetCoefficients }.fault = some .unsetCoefficients ∧
    ∃ t, exec .reset { base with fault := some .unsetCoefficients } = .next t := ⟨rfl, _, rfl⟩

theorem witness_InitCompletes :
    base.initIn = true :: [] ∧ base.pollIn = pollsOf [0] ++ [] := ⟨rfl, rfl⟩

theorem witness_InitFailureStoresNothing :
    { base with initIn := [false] }.initIn = false :: [] := rfl

theorem witness_SleepCompletes :
    { base with pollIn := [true, true, false, true] }.pollIn = pollsOf [2] ++ [true] := rfl

theorem witness_WakeCompletes :
    base.initIn = true :: [] ∧ base.pollIn = pollsOf [0] ++ [] := ⟨rfl, rfl⟩

theorem witness_WakeFailureLeavesUninit :
    { base with initIn := [false, true] }.initIn = false :: [true] := rfl

theorem witness_WaitIdleCompletes :
    { base with pollIn := [true, false] }.pollIn = pollsOf [1] ++ [] := rfl

/-- With no answer listed, and with one busy one. -/
theorem witness_WaitIdleDrawsWhenUnlisted :
    { base with pollIn := [] }.pollIn = List.replicate 0 true ∧
    { base with pollIn := [true] }.pollIn = List.replicate 1 true := ⟨rfl, rfl⟩

theorem witness_FairWaitIdleEnds :
    { base with req := [0x00000005] }.fault = none ∧ { base with req := [0x00000005] }.seq = .idle ∧
    decode [0x00000005] = .legal .waitIdle [] ∧ Fair { base with req := [0x00000005] } :=
  ⟨rfl, rfl, by decide, .inl (by decide)⟩

/-- An idle block whose words are not there is fair: it never stands at a wait. -/
theorem fairRun_waiting {s : State} (hf : s.fault = none) (hi : s.seq = .idle)
    (hd : decode s.req = .wait) : FairRun s := by
  have hs : step s = .next s := by simp [step, hf, hi, fetch, hd]
  have key : ∀ k, core.run k s = .next s := by
    intro k
    induction k with
    | zero => rfl
    | succ k ih => exact (core_run_next hs k).trans ih
  intro k u hu ha
  rw [key] at hu
  injection hu with hu
  subst hu
  exact absurd hi ha.1

/-- A WAITIDLE whose wait is answered busy, then not-busy. -/
def fairBase : State := { base with req := [0x00000005], pollIn := [true, false] }

/-- Both clauses, with a run whose wait is answered; and every run is fair where the panel's draws
never stay busy. -/
theorem witness_FairRunEnds :
    (fairBase.fault = none ∧ fairBase.seq = .idle ∧
      fairBase.req = [Instr.waitIdle].flatMap encode ∧ FairRun fairBase) ∧
    ((∀ n, ∃ k, Config.freeBusy (n + k) = false) → ∀ s, FairRun s) := by
  refine ⟨⟨rfl, rfl, by decide, ?_⟩, fun h s => fairRun_of_free h s⟩
  intro k u hu ha
  cases k with
  | zero =>
    injection hu with hu
    subst hu
    exact absurd rfl ha.1
  | succ k =>
    have hs : step fairBase = .next (runWaitIdle Config.params { fairBase with req := [] }) := rfl
    rw [core_run_next hs] at hu
    exact fairRun_waiting rfl rfl rfl k u hu ha

/-- At both ends of the window, and for no byte at all, inside the window's bounds and outside. -/
theorem witness_SetWinBufferCompletes :
    Readable base (0x1000 : Word).toNat ((16 : Half).toNat / 8 * (2 : Half).toNat) ∧
    Readable base (0x20FFC : Word).toNat ((16 : Half).toNat / 8 * (2 : Half).toNat) ∧
    Readable base (0x21000 : Word).toNat ((7 : Half).toNat / 8 * (5 : Half).toNat) ∧
    ((7 : Half).toNat / 8 * (5 : Half).toNat = 0 ∧ (16 : Half).toNat / 8 * (0 : Half).toNat = 0 ∧
      inWindow base (0x5 : Word).toNat = false) := by
  simp [Readable, base, inWindow]

theorem witness_SetWinFaultsOutsideWindow :
    base.fault = none ∧ 2 < (16 : Half).toNat / 8 * (2 : Half).toNat ∧
    (∀ i < 2, inWindow base ((0x20FFE : Word).toNat + i) = true) ∧
    inWindow base ((0x20FFE : Word).toNat + 2) = false := by decide

theorem witness_DisplayNullCompletes : base.pollIn = pollsOf [0] ++ [] := rfl

theorem witness_DisplayBufferCompletes :
    Readable base (0x3000 : Word).toNat 15000 ∧ base.pollIn = pollsOf [0] ++ [] :=
  ⟨by simp [Readable, base], rfl⟩

theorem witness_DisplayFaultsOutsideWindow :
    base.fault = none ∧ 1 < 15000 ∧
    (∀ i < 1, inWindow base ((0x20FFF : Word).toNat + i) = true) ∧
    inWindow base ((0x20FFF : Word).toNat + 1) = false := by decide

theorem witness_QuickCompletes : base.pollIn = pollsOf [0] ++ [] := rfl

/-- Both values of `rst`. -/
theorem witness_HealthyCompletes :
    (0 : Nat) = (if true then 0 else { base with wcc := 2 }.wcc) ∧
    (2 : Nat) = (if false then 0 else { base with wcc := 2 }.wcc) := by decide

theorem witness_GrayAtShadeClockCompletes :
    (answered 5 1 [] [] []).mnValid = true ∧ (answered 5 1 [] [] []).m = 5 ∧
    (answered 5 1 [] [] []).n = 1 ∧ Readable (answered 5 1 [] [] []) (0x2000 : Word).toNat 120000 ∧
    (List.replicate (passCount Config.params) 0).length = passCount Config.params ∧
    (answered 5 1 [] [] []).pollIn =
      pollsOf (List.replicate (passCount Config.params) 0) ++ [] :=
  ⟨rfl, rfl, rfl, by simp [Readable, answered, base], by simp, by simp [answered, pollsOf]⟩

theorem witness_GrayBracketCompletes :
    (answered 7 2 [1] [0] [true, true]).mnValid = true ∧
    ¬ ((answered 7 2 [1] [0] [true, true]).m = 5 ∧ (answered 7 2 [1] [0] [true, true]).n = 1) ∧
    Readable (answered 7 2 [1] [0] [true, true]) (0x2000 : Word).toNat 120000 ∧
    (List.replicate (passCount Config.params) 0).length = passCount Config.params ∧
    (answered 7 2 [1] [0] [true, true]).pollIn = pollsOf [1] ++
      (pollsOf (List.replicate (passCount Config.params) 0) ++ (pollsOf [0] ++ [])) ∧
    (answered 7 2 [1] [0] [true, true]).initIn = true :: true :: [] :=
  ⟨rfl, by decide, by simp [Readable, answered, base], by simp, by simp [answered], rfl⟩

/-- Both clauses: the restoring Init succeeds, and it fails. -/
theorem witness_GrayRestoresAfterFailedInit :
    ({ active3 with initIn := [false, true] }.mnValid = true ∧
      ¬ ({ active3 with initIn := [false, true] }.m = 5 ∧
        { active3 with initIn := [false, true] }.n = 1) ∧
      { active3 with initIn := [false, true] }.initIn = false :: true :: [] ∧
      active3.pollIn = pollsOf [0] ++ []) ∧
    { active3 with initIn := [false, false] }.initIn = false :: false :: [] := by decide

theorem witness_GrayFailedRestoreLeavesShadeClock :
    (answered 7 2 [0] [] [true, false]).mnValid = true ∧
    ¬ ((answered 7 2 [0] [] [true, false]).m = 5 ∧ (answered 7 2 [0] [] [true, false]).n = 1) ∧
    Readable (answered 7 2 [0] [] [true, false]) (0x2000 : Word).toNat 120000 ∧
    (List.replicate (passCount Config.params) 0).length = passCount Config.params ∧
    (answered 7 2 [0] [] [true, false]).pollIn = pollsOf [0] ++
      (pollsOf (List.replicate (passCount Config.params) 0) ++ []) ∧
    (answered 7 2 [0] [] [true, false]).initIn = true :: false :: [] :=
  ⟨rfl, by decide, by simp [Readable, answered, base], by simp, by simp [answered, pollsOf], rfl⟩

theorem witness_GrayFaultsOnUnsetCoefficients :
    base.mnValid = false ∧ base.fault = none := ⟨rfl, rfl⟩

/-- GRAY's coefficients at the shade clock. -/
def shade5 : State := { base with mnValid := true, m := 5, n := 1 }

/-- Both clauses: the first sample outside, just below the window and just above it; and sample 401,
in the second row. -/
theorem witness_GrayFaultsOutsideWindow :
    (shade5.mnValid = true ∧ shade5.fault = none ∧ shade5.m = 5 ∧ shade5.n = 1) ∧
    (active3.mnValid = true ∧ active3.fault = none ∧ ¬ (active3.m = 5 ∧ active3.n = 1) ∧
      active3.initIn = true :: [] ∧ active3.pollIn = pollsOf [0] ++ []) ∧
    inWindow shade5 ((0x0FFF : Word).toNat + 0) = false ∧
    inWindow active3 ((0x21000 : Word).toNat + 0) = false ∧ 401 < 120000 ∧
    (∀ i < 401, inWindow active3 ((0x20E6F : Word).toNat + i) = true) ∧
    inWindow active3 ((0x20E6F : Word).toNat + 401) = false := by
  refine ⟨by decide, by decide, by decide, by decide, by decide, fun i hi => ?_, by decide⟩
  show (decide (0x1000 ≤ 0x20E6F + i) && decide (0x20E6F + i < 0x1000 + 0x20000) &&
    decide (0x20E6F + i < 2 ^ 32)) = true
  simp only [Bool.and_eq_true, decide_eq_true_eq]
  omega

/-- A request in flight goes on at the next step, an answer having arrived. -/
theorem step_later {t : State} (hs : t.seq ≠ .idle) (hf : t.fault = none) :
    step (listPoll false t) = .next (resume Config.params (listPoll false t)) := by
  cases hq : t.seq with
  | idle => exact absurd hq hs
  | run i k => simp [step, listPoll, hf, hq]

/-- In the step that takes it, and after an answer has arrived while it is held. -/
theorem witness_BracketedGraySetsNoPv :
    active3.mnValid = true ∧ ¬ (active3.m = 5 ∧ active3.n = 1) ∧
    ∃ t, Runs (.gray 0x2000) active3 t ∧ (t.seq ≠ .idle → t.fault = none →
      ∃ u, step (listPoll false t) = .next u ∧ Runs (.gray 0x2000) active3 u) := by
  refine ⟨rfl, by decide, _, .taken rfl, fun hs hf => ?_⟩
  exact ⟨_, step_later hs hf,
    .goesOn (.arrives (.taken rfl) hs (.poll false _)) hs (step_later hs hf)⟩

theorem witness_GrayRestoresCoefficients :
    ∃ s t buf, Runs (.gray buf) s t ∧ t.seq = .idle ∧ t.status = 0x00 := by
  have hr : Readable (takeUp (.gray 0x2000) (answered 5 1 [] [] [])) (0x2000 : Word).toNat
      120000 := by simp [Readable, answered, base]
  obtain ⟨v, hv⟩ := runMicros_grayPasses (P := Config.params)
    (s := takeUp (.gray 0x2000) (answered 5 1 [] [] [])) (ps := []) hr
    (List.length_replicate (n := passCount Config.params) (a := 0)) (by simp [answered, pollsOf])
    rfl rfl
  rw [← grayExpansion_atShadeClock] at hv
  have hc : runGray Config.params 0x2000 (answered 5 1 [] [] []) = complete _ :=
    (runGray_eq rfl).trans (startRequest_done hv)
  exact ⟨answered 5 1 [] [] [], runGray Config.params 0x2000 (answered 5 1 [] [] []), 0x2000,
    .taken rfl, by rw [hc]; rfl, by rw [hc]; rfl⟩

/-- At both ends of a table. -/
theorem witness_OverridesReplaceTheNamedBytes :
    0 < lutLen .bb ∧ 5 < lutLen .ww ∧ 41 < lutLen .bb ∧ 43 < lutLen .vcom := by decide

theorem witness_RomMapIsOneToOne :
    0 < lutLen .vcom ∧ romAddr .full .vcom 0 = 0 ∧ 43 < lutLen .vcom ∧
    romAddr .full .vcom 43 = 43 ∧ romAddr .full .ww 0 = 44 ∧ romAddr .shade .bb 41 = 635 := by
  decide

theorem witness_LegalHeaderIsMaskAndMatch :
    checkHeader 0x00020011 = .ok .setWin ∧
    requestLength (opcOf 0x00020011) ≤ [(1 : Word), 2, 3].length + 1 := by decide

theorem witness_ThresholdsOfThePasses : (List.replicate 8 (0x00 : Byte)).length = 8 := rfl

/-- The first and the last sample. -/
theorem witness_PackedBitIsSampleBelowThreshold :
    (List.replicate 8 (0x80 : Byte)).length = 8 ∧ 0 < (List.replicate 8 (0x80 : Byte)).length ∧
    7 < (List.replicate 8 (0x80 : Byte)).length := by decide

/-- A WAITIDLE held at its wait, with an answer listed since. -/
def heldWait : State := { base with seq := .run .waitIdle 2, todo := [.waitBusy] }

/-- A good idle state, from which a step runs RESET, and a good state in flight. -/
theorem witness_StepKeepsInvariant :
    (GoodState (asking [0x00000002]) ∧ ∃ t, step (asking [0x00000002]) = .next t) ∧
    (GoodState heldWait ∧ ∃ t, step heldWait = .next t) := by
  refine ⟨⟨⟨Nat.succ_pos _, by decide, by decide, by decide, fun _ => rfl, fun i k h => ?_,
    by decide⟩, _, rfl⟩, ⟨Nat.succ_pos _, by decide, by decide, by decide, fun h => ?_,
    fun i k h => ?_, by decide⟩, _, rfl⟩
  · simp [asking, base, State.reset] at h
  · simp [heldWait] at h
  · injection h with h
    subst h
    exact ⟨_, rfl, List.suffix_refl _⟩

theorem witness_NoStepWritesMemory : ∃ t, step (asking [0x00000003]) = .next t := ⟨_, rfl⟩

theorem witness_MarksChangeNothingElse : ∃ t, step (asking [0x00000003]) = .next t := ⟨_, rfl⟩

theorem witness_LifeChangesNothingButPv : ∃ t, step (asking [0x02070001]) = .next t := ⟨_, rfl⟩

theorem witness_OutputsAndStickyMarksOnlyGrow :
    ∃ t, step { asking [0x00000002] with pv := true, mnValid := true } = .next t := ⟨_, rfl⟩

/-- A request in flight that stops at once outside the window. -/
def stuck : State := { base with seq := .run (.gray 0) 5, todo := [.frame 0 1], mnValid := true }

/-- Both clauses. -/
theorem witness_PositionCountsActions :
    (∃ t, exec (.gray 0x2000) base = .next t ∧ t.seq = .run (.gray 0x2000) 0) ∧
    (stuck.fault = none ∧ stuck.seq = .run (.gray 0) 5 ∧
      ∃ t, step stuck = .next t ∧ t.seq = .run (.gray 0) 5) :=
  ⟨⟨_, rfl, rfl⟩, rfl, rfl, _, rfl, rfl⟩

/-- Both clauses: a request that completes, and one that faults; one that completes at a later
step. -/
theorem witness_OneStatusPerRequest :
    (∃ t, Runs .reset base t ∧ t.seq = .idle) ∧
    (∃ t, Runs (.gray 0x2000) base t ∧ t.seq = .run (.gray 0x2000) 0) ∧
    (heldWait.seq = .run .waitIdle 2 ∧ ∃ t, step heldWait = .next t ∧ t.seq = .idle) :=
  ⟨⟨_, .taken rfl, rfl⟩, ⟨_, .taken rfl, rfl⟩, rfl, _, rfl, rfl⟩

/-- Where the first free draw is busy, a WAITIDLE with no answer listed is held, and an answer that
arrives then completes it at the next step, with its one status. -/
theorem witness_runs_later (h : Config.freeBusy 0 = true) :
    ∃ t u, exec .waitIdle { base with pollIn := [] } = .next t ∧ t.seq = .run .waitIdle 2 ∧
      step (listPoll false t) = .next u ∧ Runs .waitIdle { base with pollIn := [] } u ∧
      u.seq = .idle ∧ u.rsp = [0x00] := by
  have ht : runWaitIdle Config.params { base with pollIn := [] } =
      { base with
        seq := .run .waitIdle 2, todo := [.waitBusy], pollIn := [], pollDraws := 1
        trace := [.poll true, .delay 1] } := by
    have hb : (takeUp .waitIdle { base with pollIn := [] }).pollDraws = 0 := rfl
    simp only [runWaitIdle, startRequest, runMicros, runMicro, takeUp_pollIn, waitBusy, hb, h,
      if_true]
    rfl
  have he : exec .waitIdle { base with pollIn := [] } = .next _ := congrArg Host.Outcome.next ht
  exact ⟨_, _, he, rfl, rfl, .goesOn (.arrives (.taken he) (by simp) (.poll false _))
    (by simp [listPoll]) rfl, rfl, rfl⟩

/-- A run of HEALTHY requests, one after the other. -/
def healthyRun : Nat → State
  | 0 => base
  | k + 1 => runHealthy Config.params false (healthyRun k)

/-- Each clause. -/
theorem witness_WeakCycleCounterRotates :
    ((asking [0x00000002]).wcc < heavyCycleNr Config.params ∧
      ∃ t, step (asking [0x00000002]) = .next t) ∧
    ((healthyRun 0).wcc < heavyCycleNr Config.params ∧
      ∀ k, exec (.healthy false) (healthyRun k) = .next (healthyRun (k + 1))) ∧
    ((∀ rst, Instr.reset ≠ .healthy rst) ∧ ∃ t, Runs .reset base t) :=
  ⟨⟨Nat.succ_pos _, _, rfl⟩, ⟨Nat.succ_pos _, fun _ => rfl⟩, by decide, _, .taken rfl⟩

/-- Both clauses; the second for INIT, whose store leaves an asleep panel asleep. -/
theorem witness_OnlyLifecycleRequestsChangeLife :
    (∃ t, Runs .quick base t ∧ (∀ m n, Instr.quick ≠ .init m n) ∧ Instr.quick ≠ .reset ∧
      Instr.quick ≠ .sleep ∧ (∀ m n, Instr.quick ≠ .wake m n) ∧
      ∀ buf, Instr.quick ≠ .gray buf) ∧
    (∃ t, Runs (.init 7 2) { base with life := .asleep } t ∧
      { base with life := .asleep }.life = .asleep ∧ Instr.init 7 2 ≠ .reset ∧
      (∀ m n, Instr.init 7 2 ≠ .wake m n) ∧ ∀ buf, Instr.init 7 2 ≠ .gray buf) :=
  ⟨⟨_, .taken rfl, by simp, by simp, by simp, by simp, by simp⟩,
    _, .taken rfl, rfl, by simp, by simp, by simp⟩

end Sys2Proof.Tests
end

/-! ## Decoding what the encoder wrote -/

namespace Sys2Proof

/-- The encoder gives every request exactly the words its OPC announces (30 R103). -/
theorem encode_length (i : Instr) : (encode i).length = requestLength (opcOf (header i)) :=
  match i with
  | .init m n => Laws.RequestWords.init m n
  | .reset => Laws.RequestWords.reset
  | .sleep => Laws.RequestWords.sleep
  | .wake m n => Laws.RequestWords.wake m n
  | .waitIdle => Laws.RequestWords.waitIdle
  | .clear => Laws.RequestWords.clear
  | .setWin null ch x y w h buf => Laws.RequestWords.setWin null ch x y w h buf
  | .display null buf => Laws.RequestWords.display null buf
  | .quick => Laws.RequestWords.quick
  | .healthy rst => Laws.RequestWords.healthy rst
  | .shade pass => Laws.RequestWords.shade pass
  | .gray buf => Laws.RequestWords.gray buf

/-- A header whose row leaves A and B free, as in INIT and WAKE (30 R106). -/
theorem mkHeader_and_freeAB (opc a b : Byte) :
    mkHeader opc false false a b &&& 0x0000FFFF = opc.setWidth 32 := by
  apply BitVec.eq_of_getLsbD_eq
  intro i hi
  interval_cases i <;> simp [mkHeader]

/-- A header whose row leaves A and NB free, as in SETWIN (30 R106). -/
theorem mkHeader_and_freeANb (opc a : Byte) (nb : Bool) :
    mkHeader opc nb false a 0 &&& 0xFF00FEFF = opc.setWidth 32 := by
  apply BitVec.eq_of_getLsbD_eq
  intro i hi
  interval_cases i <;> simp [mkHeader]

/-- A header whose row leaves A free, as in SHADE (30 R106). -/
theorem mkHeader_and_freeA (opc a : Byte) :
    mkHeader opc false false a 0 &&& 0xFF00FFFF = opc.setWidth 32 := by
  apply BitVec.eq_of_getLsbD_eq
  intro i hi
  interval_cases i <;> simp [mkHeader]

/-- A header is legal when its fixed bits are those of the row its OPC selects (30 R106). -/
theorem checkHeader_mkHeader {opc : Byte} {nb rc : Bool} {a b : Byte} (r : OpRow)
    (hr : rowOf opc = some r) (hm : mkHeader opc nb rc a b &&& r.mask = r.pattern) :
    checkHeader (mkHeader opc nb rc a b) = .ok r.op := by
  simp [checkHeader, Laws.RequestWords.opcOf_mkHeader, hr, hm]

/-- The encoder's headers are legal and name their own request (30 R106). -/
theorem checkHeader_header (i : Instr) : checkHeader (header i) = .ok (mnemonicOf i) := by
  cases i with
  | init m n => exact checkHeader_mkHeader ⟨.init, _, _⟩ rfl (mkHeader_and_freeAB _ m n)
  | wake m n => exact checkHeader_mkHeader ⟨.wake, _, _⟩ rfl (mkHeader_and_freeAB _ m n)
  | setWin null ch x y w h buf =>
    exact checkHeader_mkHeader ⟨.setWin, _, _⟩ rfl (mkHeader_and_freeANb _ ch null)
  | shade pass => exact checkHeader_mkHeader ⟨.shade, _, _⟩ rfl (mkHeader_and_freeA _ pass)
  | display null buf =>
    exact checkHeader_mkHeader ⟨.display, _, _⟩ rfl (by cases null <;> rfl)
  | healthy rst => cases rst <;> rfl
  | gray buf => exact checkHeader_mkHeader ⟨.gray, _, _⟩ rfl rfl
  | _ => rfl

/-- The operands read back from the words of a request are its own (30 R104). -/
theorem assembleOperands_encode (i : Instr) (rest : List Word) :
    assembleOperands (mnemonicOf i) (header i) (extension i ++ rest) = i := by
  cases i <;> simp [assembleOperands, mnemonicOf, header, extension]

/-- The decoder gives back the request the encoder wrote, and the words after it. -/
theorem decode_encode (i : Instr) (rest : List Word) :
    decode (encode i ++ rest) = .legal i rest := by
  have hlen : (extension i).length + 1 = requestLength (opcOf (header i)) := encode_length i
  have henough : ¬ (extension i ++ rest).length + 1 < (extension i).length + 1 := by
    rw [List.length_append]
    omega
  simp only [encode, List.cons_append, decode, ← hlen, henough, if_false, checkHeader_header,
    assembleOperands_encode, Nat.add_sub_cancel, List.drop_left]

end Sys2Proof

/-! ## The step of an idle block and the block's reset -/

namespace Sys2Proof.Machine

/-- An idle block without a fault takes the request at the head of REQ (10 R31). -/
theorem step_of_legal {s : State} {i : Instr} {rest : List Word} (hf : s.fault = none)
    (hs : s.seq = .idle) (hd : decode s.req = .legal i rest) :
    step s = exec i (consume rest s) := by
  simp only [step, hf, hs, fetch, hd]

/-- An idle block without a fault waits for the words of its request (60 R258). -/
theorem step_of_wait {s : State} (hf : s.fault = none) (hs : s.seq = .idle)
    (hd : decode s.req = .wait) : step s = .next s := by
  simp only [step, hf, hs, fetch, hd]

/-- Settles O7, by the step of an idle block that finds a legal request. -/
theorem stepRunsTheDecodedRequest : Obligations.StepRunsTheDecodedRequest :=
  fun _ _ _ hf hs hd => step_of_legal hf hs hd

/-- Settles O8, by the step of an idle block that finds no whole request. -/
theorem stepWaitsForWords : Obligations.StepWaitsForWords :=
  fun _ hf hs hd => step_of_wait hf hs hd

/-- Settles O9: the placed words decode to the request and leave REQ as it was. -/
theorem placedRequestRunsNext : Obligations.PlacedRequestRunsNext :=
  fun s i => step_of_legal (s := placeWords (encode i) s) rfl rfl (decode_encode i s.req)

/-- Settles O12, each register by the reset's own definition. -/
theorem resetValues : Obligations.ResetValues :=
  ⟨⟨rfl, rfl, rfl, rfl, rfl, rfl, rfl, rfl, rfl, rfl⟩,
    fun _ => ⟨rfl, rfl, rfl, rfl, rfl, rfl, rfl, rfl, rfl, rfl⟩⟩

end Sys2Proof.Machine

/-! ## How a step leaves a request: the invariant, the outputs, the position and the status -/

namespace Sys2Proof.Machine

open Sys2Proof.Safety

/-- A run of `ops` that reached `u` leaves `t`: completed, or in flight with an end of `ops` left
(10 R32, 60 R254, R258). -/
def EndsAs (ops : List Micro) (u t : State) : Prop :=
  t = complete u ∨ ∃ todo, todo <:+ ops ∧ t = { u with todo := todo }

/-- A run leaves the state its updates reach, completed or in flight. -/
theorem settle_endsAs (P : Config.Params) (ops : List Micro) (s : State) :
    ∃ u, Updates P s u ∧ EndsAs ops u (settle (runMicros P ops s)) := by
  have hu := runMicros_updates P ops s
  have hsuffix := runMicros_suffix P ops s
  cases hr : runMicros P ops s with
  | done u => exact ⟨u, by simpa [hr] using hu, .inl rfl⟩
  | held u todo =>
    rw [hr] at hsuffix
    exact ⟨u, by simpa [hr] using hu, .inr ⟨todo, hsuffix, rfl⟩⟩
  | stopped u todo =>
    rw [hr] at hsuffix
    exact ⟨u, by simpa [hr] using hu, .inr ⟨todo, hsuffix, rfl⟩⟩

/-- The state a request is taken up from: PV may have been set and the counter reset. -/
def takenUp (i : Instr) (hazard : Bool) (c : Nat) (s : State) : State :=
  takeUp i { markPv hazard s with wcc := c }

/-- `exec` runs an expansion of the request from where it is taken up. GRAY with unset coefficients
ends at once with nothing left of its expansion. -/
theorem exec_endsAs {i : Instr} {s t : State} (h : exec i s = .next t) :
    ∃ (e : List Micro) (hazard : Bool) (c : Nat) (u : State), Expansion i e ∧
      (c = s.wcc ∨ c = 0) ∧ Updates Config.params (takenUp i hazard c s) u ∧ EndsAs e u t := by
  obtain ⟨e, hazard, c, he, hc, -, hx⟩ | ⟨buf, rfl, -, hx⟩ := exec_cases i s <;>
    obtain rfl := Host.Outcome.next.inj (h.symm.trans hx)
  · obtain ⟨u, hu, ht⟩ := settle_endsAs Config.params e (takenUp i hazard c s)
    exact ⟨e, hazard, c, u, he, hc, hu, ht⟩
  · refine ⟨_, false, s.wcc, _, ⟨s.m, s.n, rfl⟩, .inl rfl,
      .one (.recordFault .unsetCoefficients _), .inr ⟨[], List.nil_suffix, ?_⟩⟩
    simp [takenUp, faultAtStart, recordFault, takeUp]

/-! ### The invariant -/

/-- The part of the invariant that does not speak of the request in flight. -/
structure SoundRegs (s : State) : Prop where
  wcc : s.wcc < heavyCycleNr Config.params
  life : s.life ≠ .resetting
  status : legalStatus s.status = true
  rsp : ∀ b ∈ s.rsp, legalStatus b = true
  fb : memWf s.fb = true

theorem soundRegs_of_good {s : State} (h : GoodState s) : SoundRegs s :=
  ⟨h.wcc, h.life, h.status, h.rsp, h.fb⟩

/-- An idle state with nothing left of an expansion is good when its registers are. -/
theorem SoundRegs.good_of_idle {s : State} (h : SoundRegs s) (hs : s.seq = .idle)
    (ht : s.todo = []) : GoodState s where
  wcc := h.wcc
  life := h.life
  status := h.status
  rsp := h.rsp
  idle _ := ht
  inFlight i k hk := by simp [hs] at hk
  fb := h.fb

/-- A state in flight with an end of an expansion left is good when its registers are. -/
theorem SoundRegs.good_of_inFlight {s : State} {i : Instr} {k : Nat} {e : List Micro}
    (h : SoundRegs s) (hs : s.seq = .run i k) (he : Expansion i e) (ht : s.todo <:+ e) :
    GoodState s where
  wcc := h.wcc
  life := h.life
  status := h.status
  rsp := h.rsp
  idle hk := by simp [hs] at hk
  inFlight j n hk := by
    obtain ⟨rfl, -⟩ := Seq.run.inj (hs.symm.trans hk)
    exact ⟨e, he, ht⟩
  fb := h.fb

theorem SoundRegs.updates {s u : State} (h : SoundRegs s) (hu : Updates Config.params s u) :
    SoundRegs u where
  wcc := hu.wcc h.wcc
  life := hu.life h.life
  status := hu.untouched.status ▸ h.status
  rsp := hu.untouched.rsp ▸ h.rsp
  fb := hu.untouched.fb ▸ h.fb

/-- Returning one of the three codes keeps the returned statuses legal (60 R250). -/
theorem legalStatus_append {rsp : List Byte} {b : Byte} (h : ∀ x ∈ rsp, legalStatus x = true)
    (hb : legalStatus b = true) : ∀ x ∈ rsp ++ [b], legalStatus x = true := by
  simp only [List.mem_append, List.mem_singleton]
  rintro x (hx | rfl)
  · exact h x hx
  · exact hb

theorem completionStatus_legal (ok : Bool) : legalStatus (completionStatus ok) = true := by
  cases ok <;> decide

theorem SoundRegs.complete {u : State} (h : SoundRegs u) : SoundRegs (complete u) where
  wcc := h.wcc
  life := h.life
  status := completionStatus_legal _
  rsp := legalStatus_append h.rsp (completionStatus_legal _)
  fb := h.fb

theorem SoundRegs.raiseIllegal {s : State} (h : SoundRegs s) (w : Word) :
    SoundRegs (raiseIllegal w s) where
  wcc := h.wcc
  life := h.life
  status := rfl
  rsp := legalStatus_append h.rsp rfl
  fb := h.fb

theorem SoundRegs.consume {s : State} (h : SoundRegs s) (rest : List Word) :
    SoundRegs (consume rest s) := ⟨h.wcc, h.life, h.status, h.rsp, h.fb⟩

theorem SoundRegs.takenUp {s : State} (h : SoundRegs s) (i : Instr) (hazard : Bool) {c : Nat}
    (hc : c = s.wcc ∨ c = 0) : SoundRegs (takenUp i hazard c s) where
  wcc := by
    obtain rfl | rfl := hc
    · exact h.wcc
    · exact Nat.succ_pos _
  life := h.life
  status := h.status
  rsp := h.rsp
  fb := h.fb

/-- A run of an end of an expansion leaves a good state. -/
theorem goodState_of_endsAs {s u t : State} {i : Instr} {k : Nat} {e ops : List Micro}
    (h : SoundRegs s) (hs : s.seq = .run i k) (he : Expansion i e) (ho : ops <:+ e)
    (hu : Updates Config.params s u) (ht : EndsAs ops u t) : GoodState t := by
  obtain rfl | ⟨todo, htodo, rfl⟩ := ht
  · exact (h.updates hu).complete.good_of_idle rfl rfl
  · obtain ⟨acts, -, hseq⟩ := hu.emitted
    rw [hs, seqAdvance_run] at hseq
    have hsound : SoundRegs { u with todo := todo } :=
      have hu := h.updates hu
      ⟨hu.wcc, hu.life, hu.status, hu.rsp, hu.fb⟩
    exact hsound.good_of_inFlight hseq he (htodo.trans ho)

/-- Settles O49: every clause holds of the values after reset. -/
theorem resetMeetsInvariant : Obligations.ResetMeetsInvariant :=
  SoundRegs.good_of_idle
    { wcc := Nat.succ_pos _, life := by decide, status := by decide, rsp := by simp [State.reset]
      fb := reset_memWf } rfl rfl

/-- Settles O50: a step runs an end of an expansion of its request, waits, or refuses a request, and
each keeps the registers sound. -/
theorem stepKeepsInvariant : Obligations.StepKeepsInvariant := by
  intro s t hg h
  have hsound := soundRegs_of_good hg
  obtain ⟨-, ⟨i, k, hs, rfl⟩ | ⟨hs, ⟨-, rfl⟩ | ⟨w, why, rest, -, rfl⟩ | ⟨i, rest, -, hx⟩⟩⟩ :=
    step_cases h
  · obtain ⟨e, he, ho⟩ := hg.inFlight i k hs
    obtain ⟨u, hu, ht⟩ := settle_endsAs Config.params s.todo s
    exact goodState_of_endsAs hsound hs he ho hu ht
  · exact hg
  · exact ((hsound.consume rest).raiseIllegal w).good_of_idle hs (hg.idle hs)
  · obtain ⟨e, hazard, c, u, he, hc, hu, ht⟩ := exec_endsAs hx
    exact goodState_of_endsAs ((hsound.consume rest).takenUp i hazard hc) rfl he
      List.suffix_rfl hu ht

/-! ### What only grows -/

/-- The sticky marks stay and the outputs grow (10 R36, R40, R46). -/
structure Grows (s t : State) : Prop where
  pv : s.pv = true → t.pv = true
  mnValid : s.mnValid = true → t.mnValid = true
  trace : s.trace <+: t.trace
  rsp : s.rsp <+: t.rsp
  raised : s.raised <+: t.raised

theorem Grows.refl (s : State) : Grows s s :=
  ⟨id, id, List.prefix_rfl, List.prefix_rfl, List.prefix_rfl⟩

theorem Grows.trans {a b c : State} (h : Grows a b) (k : Grows b c) : Grows a c :=
  ⟨k.pv ∘ h.pv, k.mnValid ∘ h.mnValid, h.trace.trans k.trace, h.rsp.trans k.rsp,
    h.raised.trans k.raised⟩

theorem Grows.of_updates {P : Config.Params} {s u : State} (hu : Updates P s u) : Grows s u := by
  obtain ⟨acts, htrace, -⟩ := hu.emitted
  exact ⟨hu.pv, hu.mnValid, htrace ▸ List.prefix_append .., hu.untouched.rsp ▸ List.prefix_rfl,
    hu.untouched.raised ▸ List.prefix_rfl⟩

theorem Grows.of_endsAs {ops : List Micro} {u t : State} (h : EndsAs ops u t) : Grows u t := by
  obtain rfl | ⟨todo, -, rfl⟩ := h
  · exact ⟨id, id, List.prefix_rfl, List.prefix_append .., List.prefix_rfl⟩
  · exact ⟨id, id, List.prefix_rfl, List.prefix_rfl, List.prefix_rfl⟩

theorem Grows.raiseIllegal (w : Word) (rest : List Word) (s : State) :
    Grows s (raiseIllegal w (consume rest s)) :=
  ⟨id, id, List.prefix_rfl, List.prefix_append .., List.prefix_append ..⟩

theorem Grows.takenUp (i : Instr) (hazard : Bool) (c : Nat) (rest : List Word) (s : State) :
    Grows s (takenUp i hazard c (consume rest s)) :=
  ⟨fun h => by simp [Machine.takenUp, h], id, List.prefix_rfl, List.prefix_rfl, List.prefix_rfl⟩

/-- Settles O54: updates and completions only grow the outputs, and so do a wait and a refusal. -/
theorem outputsAndStickyMarksOnlyGrow : Obligations.OutputsAndStickyMarksOnlyGrow := by
  intro s t h
  suffices hgrows : Grows s t from
    ⟨hgrows.pv, hgrows.mnValid, hgrows.trace, hgrows.rsp, hgrows.raised⟩
  obtain ⟨-, ⟨i, k, -, rfl⟩ | ⟨-, ⟨-, rfl⟩ | ⟨w, why, rest, -, rfl⟩ | ⟨i, rest, -, hx⟩⟩⟩ :=
    step_cases h
  · obtain ⟨u, hu, ht⟩ := settle_endsAs Config.params s.todo s
    exact (Grows.of_updates hu).trans (Grows.of_endsAs ht)
  · exact Grows.refl _
  · exact Grows.raiseIllegal w rest s
  · obtain ⟨e, hazard, c, u, -, -, hu, ht⟩ := exec_endsAs hx
    exact ((Grows.takenUp i hazard c rest s).trans (Grows.of_updates hu)).trans
      (Grows.of_endsAs ht)

/-! ### The position -/

/-- A run that stays in flight is at its request, further by the actions it emitted (10 R32). -/
theorem position_of_endsAs {P : Config.Params} {s u t : State} {i j : Instr} {k k' : Nat}
    {ops : List Micro} (hs : s.seq = .run i k) (hu : Updates P s u) (ht : EndsAs ops u t)
    (hj : t.seq = .run j k') : j = i ∧ t.trace.length + k = s.trace.length + k' := by
  obtain ⟨acts, htrace, hseq⟩ := hu.emitted
  obtain rfl | ⟨todo, -, rfl⟩ := ht
  · simp at hj
  · rw [hs, seqAdvance_run] at hseq
    obtain ⟨rfl, rfl⟩ := Seq.run.inj (hj.symm.trans hseq)
    exact ⟨rfl, by simp only [htrace, List.length_append]; omega⟩

/-- Settles O55: a request starts at position 0, and both clauses follow from what a run emits. -/
theorem positionCountsActions : Obligations.PositionCountsActions := by
  refine ⟨fun i j s t k hx hj => ?_, fun i j s t k k' _ hs h hj => ?_⟩
  · obtain ⟨e, hazard, c, u, -, -, hu, ht⟩ := exec_endsAs hx
    exact position_of_endsAs (s := takenUp i hazard c s) rfl hu ht hj
  · obtain ⟨-, rfl⟩ := step_inFlight (by simp [hs]) h
    obtain ⟨u, hu, ht⟩ := settle_endsAs Config.params s.todo s
    exact position_of_endsAs hs hu ht hj

/-! ### The status -/

/-- Request `i`, begun or resumed at `s`, has returned its one status at `t`, or is in flight there
with none returned (10 R39, 60 R250, R254). -/
def OneStatus (i : Instr) (s t : State) : Prop :=
  (t.seq = .idle ∧ t.rsp = s.rsp ++ [t.status] ∧ (t.status = 0x00 ∨ t.status = 0xFF)) ∨
  ((∃ k, t.seq = .run i k) ∧ t.rsp = s.rsp ∧ t.status = s.status)

theorem completionStatus_cases (ok : Bool) :
    completionStatus ok = 0x00 ∨ completionStatus ok = 0xFF := by
  cases ok
  · exact .inr rfl
  · exact .inl rfl

theorem oneStatus_of_endsAs {P : Config.Params} {s u t : State} {i : Instr} {k : Nat}
    {ops : List Micro} (hs : s.seq = .run i k) (hu : Updates P s u) (ht : EndsAs ops u t) :
    OneStatus i s t := by
  have hkeep := hu.untouched
  obtain rfl | ⟨todo, -, rfl⟩ := ht
  · exact .inl ⟨rfl, by simp [hkeep.rsp], completionStatus_cases _⟩
  · obtain ⟨acts, -, hseq⟩ := hu.emitted
    rw [hs, seqAdvance_run] at hseq
    exact .inr ⟨⟨_, hseq⟩, hkeep.rsp, hkeep.status⟩

theorem oneStatus_of_exec {i : Instr} {s t : State} (h : exec i s = .next t) :
    OneStatus i s t := by
  obtain ⟨e, hazard, c, u, -, -, hu, ht⟩ := exec_endsAs h
  exact oneStatus_of_endsAs (s := takenUp i hazard c s) rfl hu ht

theorem oneStatus_of_step {i : Instr} {k : Nat} {s t : State} (hs : s.seq = .run i k)
    (h : step s = .next t) : OneStatus i s t := by
  obtain ⟨-, rfl⟩ := step_inFlight (by simp [hs]) h
  obtain ⟨u, hu, ht⟩ := settle_endsAs Config.params s.todo s
  exact oneStatus_of_endsAs hs hu ht

/-- A state in flight of a request's execution has returned nothing. -/
theorem OneStatus.inFlight {i : Instr} {s t : State} (h : OneStatus i s t) (ht : t.seq ≠ .idle) :
    (∃ k, t.seq = .run i k) ∧ t.rsp = s.rsp ∧ t.status = s.status :=
  h.resolve_left fun hidle => ht hidle.1

theorem oneStatus_of_runs {i : Instr} {s t : State} (h : Runs i s t) : OneStatus i s t := by
  induction h with
  | taken hx => exact oneStatus_of_exec hx
  | goesOn _ ht hstep ih =>
    obtain ⟨⟨k, hk⟩, hrsp, hstatus⟩ := ih.inFlight ht
    have hnext := oneStatus_of_step hk hstep
    rwa [OneStatus, hrsp, hstatus] at hnext
  | arrives _ ht ha ih =>
    obtain ⟨ps, is, ws, rfl⟩ := arrives_input ha
    exact .inr (ih.inFlight ht)

/-- Settles O56, by induction on the request's execution and by the step in flight. -/
theorem oneStatusPerRequest : Obligations.OneStatusPerRequest :=
  ⟨fun _ _ _ h => oneStatus_of_runs h, fun _ _ _ _ hs h => oneStatus_of_step hs h⟩

end Sys2Proof.Machine

/-! ## What the marks and LIFE cannot change

Two runs side by side, from states that differ in fields no control reads: they take the same path,
and where the relation survives each update it survives the step. -/

namespace Sys2Proof.Machine

open Sys2Proof.Safety

/-- The updates of the step whose effect reads neither PV, MAYBE_BUSY nor LASTLUT, and LIFE only for
LIFE's own transition. Setting PV is none of them: its condition reads LIFE and MAYBE_BUSY. -/
inductive PlainUpdate (P : Config.Params) : (State → State) → Prop where
  | emit (acts : List Action) : PlainUpdate P (emit acts)
  | recordFault (r : Fault) : PlainUpdate P (recordFault r)
  | polled (left : List Bool) (draws : Nat) :
      PlainUpdate P fun s => { s with pollIn := left, pollDraws := draws }
  | pollTaken (left : List Bool) : PlainUpdate P fun s => { s with pollIn := left }
  | busInit : PlainUpdate P busInitOp
  | panelIdle : PlainUpdate P panelIdle
  | resetOp : PlainUpdate P resetOp
  | storeCoeffs (m n : Byte) : PlainUpdate P (storeCoeffsOp m n)
  | fallAsleep : PlainUpdate P fun s => { s with life := .asleep }
  | tagLut (t : LutTag) : PlainUpdate P fun s => { s with lastLut := t }
  | advanceWcc : PlainUpdate P fun s => { s with wcc := nextWcc (heavyCycleNr P) s.wcc }
  | counterReset : PlainUpdate P fun s => { s with wcc := 0 }
  | markBusy : PlainUpdate P fun s => { s with maybeBusy := true }
  | packed (g : Nat) (b : Byte) :
      PlainUpdate P fun s => { s with scratch := s.scratch.setIfInBounds g b }
  | left (todo : List Micro) : PlainUpdate P fun s => { s with todo := todo }
  | complete : PlainUpdate P complete
  | takeUp (i : Instr) : PlainUpdate P (takeUp i)
  | consume (rest : List Word) : PlainUpdate P (consume rest)
  | raiseIllegal (w : Word) : PlainUpdate P (raiseIllegal w)

/-- No action, status or control can tell states that `R` relates apart: they differ in PV,
MAYBE_BUSY, LASTLUT and LIFE at most, and `R` survives every plain update, and every setting of PV,
on whichever side it happens. -/
structure Unobserved (P : Config.Params) (R : State → State → Prop) : Prop where
  differ {s t : State} : R s t → ∃ pv busy lut life,
    t = { s with pv := pv, maybeBusy := busy, lastLut := lut, life := life }
  update {f : State → State} {s t : State} : PlainUpdate P f → R s t → R (f s) (f t)
  markPv (a b : Bool) {s t : State} : R s t → R (markPv a s) (markPv b t)

/-- Two micro-operations end alike, in related states. -/
inductive MicroEnd.Alike (R : State → State → Prop) : MicroEnd → MicroEnd → Prop where
  | go {s t : State} : R s t → Alike R (.go s) (.go t)
  | hold {s t : State} : R s t → Alike R (.hold s) (.hold t)
  | stop {s t : State} : R s t → Alike R (.stop s) (.stop t)

/-- Two runs end alike, in related states with the same rest of the expansion. -/
inductive RunEnd.Alike (R : State → State → Prop) : RunEnd → RunEnd → Prop where
  | done {s t : State} : R s t → Alike R (.done s) (.done t)
  | held {s t : State} (todo : List Micro) : R s t → Alike R (.held s todo) (.held t todo)
  | stopped {s t : State} (todo : List Micro) : R s t → Alike R (.stopped s todo) (.stopped t todo)

/-- Two outcomes are next states that are related. -/
def NextAlike (R : State → State → Prop) (x y : Host.Outcome State Fault Refusal) : Prop :=
  ∃ s t, x = .next s ∧ y = .next t ∧ R s t

section
variable {P : Config.Params} {R : State → State → Prop} (hR : Unobserved P R)
include hR

theorem sendCommand_alike {s t : State} (h : R s t) (inInit : Bool) (c : Byte) :
    R (sendCommand inInit c s) (sendCommand inInit c t) :=
  hR.update (f := emit [.cmd c]) (.emit _) (hR.markPv _ _ h)

theorem sendReads_alike {s t : State} (h : R s t) (rs : List (Except Fault Byte)) :
    (sendReads rs s).Alike R (sendReads rs t) := by
  induction rs generalizing s t with
  | nil => exact .go h
  | cons r rs ih =>
    cases r with
    | ok b => exact ih (hR.update (.emit _) h)
    | error r => exact .stop (hR.update (.recordFault r) h)

theorem groupSamples_alike {s t : State} (h : R s t) (a g : Nat) :
    groupSamples t a g = groupSamples s a g := by
  obtain ⟨pv, busy, lut, life, rfl⟩ := hR.differ h
  rfl

theorem packGroups_alike {s t : State} (h : R s t) (a threshold : Nat) (gs : List Nat) :
    (packGroups a threshold gs s).Alike R (packGroups a threshold gs t) := by
  induction gs generalizing s t with
  | nil => exact .go h
  | cons g gs ih =>
    simp only [packGroups, groupSamples_alike hR h]
    cases groupSamples s a g with
    | ok samples => exact ih (hR.update (.packed g _) h)
    | error r => exact .stop (hR.update (.recordFault r) h)

theorem pollDraws_alike {s t : State} (h : R s t) : t.pollDraws = s.pollDraws := by
  obtain ⟨pv, busy, lut, life, rfl⟩ := hR.differ h
  rfl

theorem waitBusy_alike {s t : State} (h : R s t) (polls : List Bool) :
    (waitBusy polls s).Alike R (waitBusy polls t) := by
  induction polls generalizing s t with
  | nil =>
    have hpolled := hR.update (.polled [] (s.pollDraws + 1)) h
    simp only [waitBusy, pollDraws_alike hR h]
    split
    · exact .hold (hR.update (.emit _) hpolled)
    · exact .go (hR.update .panelIdle (hR.update (.emit _) hpolled))
  | cons b rest ih =>
    cases b with
    | true => exact ih (hR.update (.emit _) h)
    | false =>
      exact .go (hR.update .panelIdle (hR.update (.emit _) (hR.update (.pollTaken rest) h)))

/-- A micro-operation ends alike from related states. -/
theorem runMicro_alike {s t : State} (h : R s t) (op : Micro) :
    (runMicro P op s).Alike R (runMicro P op t) := by
  induction op with
  | cmd c => exact .go (sendCommand_alike hR h false c)
  | initCmd c => exact .go (sendCommand_alike hR h true c)
  | dat ds => exact .go (hR.update (.emit _) h)
  | frame a n =>
    obtain ⟨pv, busy, lut, life, rfl⟩ := hR.differ h
    exact sendReads_alike hR h _
  | lut v tb ov => exact sendReads_alike hR h _
  | pack a threshold => exact packGroups_alike hR h a threshold _
  | row =>
    obtain ⟨pv, busy, lut, life, rfl⟩ := hR.differ h
    exact .go (hR.update (.emit _) h)
  | delay n => exact .go (hR.update (.emit _) h)
  | busInit => exact .go (hR.update .busInit h)
  | waitBusy =>
    obtain ⟨pv, busy, lut, life, rfl⟩ := hR.differ h
    exact waitBusy_alike hR h _
  | resetSeq => exact .go (hR.update .resetOp h)
  | storeCoeffs m n => exact .go (hR.update (.storeCoeffs m n) h)
  | fallAsleep => exact .go (hR.update .fallAsleep h)
  | shadeClock => exact .go (hR.markPv _ _ h)
  | tagLut tag => exact .go (hR.update (.tagLut tag) h)
  | advanceWcc => exact .go (hR.update .advanceWcc h)
  | markBusy => exact .go (hR.update .markBusy h)
  | ifUp op ih =>
    have hok : t.busOk = s.busOk := by
      obtain ⟨pv, busy, lut, life, rfl⟩ := hR.differ h
      rfl
    simp only [runMicro, hok]
    split
    · exact ih
    · exact .go h

/-- A run ends alike from related states. -/
theorem runMicros_alike {s t : State} (h : R s t) (ops : List Micro) :
    (runMicros P ops s).Alike R (runMicros P ops t) := by
  induction ops generalizing s t with
  | nil => exact .done h
  | cons op rest ih =>
    have hop := runMicro_alike hR h op
    simp only [runMicros]
    cases hs : runMicro P op s <;> cases ht : runMicro P op t <;> rw [hs, ht] at hop <;>
      cases hop
    · exact ih ‹_›
    · exact .held _ ‹_›
    · exact .stopped _ ‹_›

theorem settle_alike {x y : RunEnd} (h : x.Alike R y) : R (settle x) (settle y) := by
  cases h with
  | done h => exact hR.update .complete h
  | held todo h => exact hR.update (.left todo) h
  | stopped todo h => exact hR.update (.left todo) h

theorem startRequest_alike {s t : State} (h : R s t) (i : Instr) (e : List Micro) :
    R (startRequest P i e s) (startRequest P i e t) :=
  settle_alike hR (runMicros_alike hR (hR.update (.takeUp i) h) e)

end

section
variable {R : State → State → Prop} (hR : Unobserved Config.params R)
include hR

/-- Taking a request from related states leaves related states. -/
theorem exec_alike {s t : State} (h : R s t) (i : Instr) : NextAlike R (exec i s) (exec i t) := by
  cases i with
  | setWin null ch x y w hh buf =>
    exact ⟨_, _, rfl, rfl, startRequest_alike hR (hR.markPv _ _ h) _ _⟩
  | shade pass => exact ⟨_, _, rfl, rfl, startRequest_alike hR (hR.markPv _ _ h) _ _⟩
  | healthy rst =>
    have hreset : R (resetCounter rst s) (resetCounter rst t) := by
      cases rst
      · exact h
      · exact hR.update .counterReset h
    have hwcc : (resetCounter rst t).wcc = (resetCounter rst s).wcc := by
      obtain ⟨pv, busy, lut, life, ht⟩ := hR.differ hreset
      rw [ht]
    refine ⟨_, _, rfl, rfl, ?_⟩
    simp only [runHealthy, hwcc]
    exact startRequest_alike hR hreset _ _
  | gray buf =>
    have hcoeffs : readCoeffs t = readCoeffs s := by
      obtain ⟨pv, busy, lut, life, rfl⟩ := hR.differ h
      rfl
    refine ⟨_, _, rfl, rfl, ?_⟩
    simp only [runGray, hcoeffs]
    split
    · exact hR.update (f := recordFault _) (.recordFault _) (hR.update (.takeUp _) h)
    · exact startRequest_alike hR h _ _
  | _ => exact ⟨_, _, rfl, rfl, startRequest_alike hR h _ _⟩

/-- A step that answers a next state answers a related one from a related state. -/
theorem step_alike {s s' t : State} (h : R s t) (hs : step s = .next s') :
    ∃ t', step t = .next t' ∧ R s' t' := by
  have hread : t.fault = s.fault ∧ t.seq = s.seq ∧ t.todo = s.todo ∧ t.req = s.req := by
    obtain ⟨pv, busy, lut, life, rfl⟩ := hR.differ h
    exact ⟨rfl, rfl, rfl, rfl⟩
  obtain ⟨hfault, hseq, htodo, hreq⟩ := hread
  obtain ⟨hf, ⟨i, k, hq, rfl⟩ | ⟨hq, ⟨hd, rfl⟩ | ⟨w, why, rest, hd, rfl⟩ | ⟨i, rest, hd, hx⟩⟩⟩ :=
    step_cases hs
  · refine ⟨resume Config.params t, by simp only [step, hfault, hf, hseq, hq], ?_⟩
    rw [resume, resume, htodo]
    exact settle_alike hR (runMicros_alike hR h _)
  · exact ⟨t, step_of_wait (hfault.trans hf) (hseq.trans hq) (hreq ▸ hd), h⟩
  · refine ⟨raiseIllegal w (consume rest t), ?_,
      hR.update (.raiseIllegal w) (hR.update (.consume rest) h)⟩
    simp only [step, hfault, hf, hseq, hq, fetch, hreq, hd]
  · obtain ⟨u, t', hu, ht', hut⟩ := exec_alike hR (hR.update (.consume rest) h) i
    obtain rfl := Host.Outcome.next.inj (hx.symm.trans hu)
    exact ⟨t', (step_of_legal (hfault.trans hf) (hseq.trans hq) (hreq ▸ hd)).trans ht', hut⟩

end

/-- The second state is the first one but for its marks (10 R40 to R42). -/
def OtherMarks (s t : State) : Prop :=
  ∃ pv busy lut, t = { s with pv := pv, maybeBusy := busy, lastLut := lut }

theorem otherMarks_unobserved (P : Config.Params) : Unobserved P OtherMarks where
  differ := fun {s _} ⟨pv, busy, lut, h⟩ => ⟨pv, busy, lut, s.life, h⟩
  update := by
    rintro f s t hf ⟨pv, busy, lut, rfl⟩
    cases hf <;> exact ⟨_, _, _, rfl⟩
  markPv := by
    rintro a b s t ⟨pv, busy, lut, rfl⟩
    exact ⟨_, _, _, rfl⟩

/-- The second state is the first one but for LIFE and PV (10 R38). -/
def OtherLife (s t : State) : Prop := ∃ life pv, t = { s with life := life, pv := pv }

theorem otherLife_unobserved (P : Config.Params) : Unobserved P OtherLife where
  differ := fun {s _} ⟨life, pv, h⟩ => ⟨pv, s.maybeBusy, s.lastLut, life, h⟩
  update := by
    rintro f s t hf ⟨life, pv, rfl⟩
    cases hf <;> exact ⟨_, _, rfl⟩
  markPv := by
    rintro a b s t ⟨life, pv, rfl⟩
    exact ⟨_, _, rfl⟩

/-- Settles O52: a step from states with other marks leaves states with other marks at most. -/
theorem marksChangeNothingElse : Obligations.MarksChangeNothingElse := by
  intro s t pv busy lut h
  obtain ⟨t', ht', pv', busy', lut', rfl⟩ :=
    step_alike (otherMarks_unobserved _) ⟨pv, busy, lut, rfl⟩ h
  exact ⟨_, ht', rfl⟩

/-- Settles O53: a step from states with another LIFE leaves states with another LIFE and PV at
most. -/
theorem lifeChangesNothingButPv : Obligations.LifeChangesNothingButPv := by
  intro s t life h
  obtain ⟨t', ht', life', pv', rfl⟩ :=
    step_alike (otherLife_unobserved _) ⟨life, s.pv, rfl⟩ h
  exact ⟨_, ht', rfl⟩

end Sys2Proof.Machine

/-! ## Which requests change LIFE -/

namespace Sys2Proof.Machine

open Sys2Proof.Safety

/-- The operation writes LIFE (10 R51). -/
def writesLife : Micro → Bool
  | .resetSeq => true
  | .storeCoeffs _ _ => true
  | .fallAsleep => true
  | .ifUp op => writesLife op
  | _ => false

@[simp] theorem writesLife_cmd (c : Byte) : writesLife (.cmd c) = false := rfl
@[simp] theorem writesLife_dat (ds : List Byte) : writesLife (.dat ds) = false := rfl
@[simp] theorem writesLife_frame (a n : Nat) : writesLife (.frame a n) = false := rfl
@[simp] theorem writesLife_waitBusy : writesLife .waitBusy = false := rfl
@[simp] theorem writesLife_advanceWcc : writesLife .advanceWcc = false := rfl
@[simp] theorem writesLife_markBusy : writesLife .markBusy = false := rfl

/-- The operation resets the panel, which alone wakes it from ASLEEP (10 R51, 60 R267). -/
def resetsPanel : Micro → Bool
  | .resetSeq => true
  | .ifUp op => resetsPanel op
  | _ => false

theorem resetsPanel_of_writesLife {op : Micro} (h : writesLife op = false) :
    resetsPanel op = false := by
  induction op with
  | resetSeq => exact h
  | ifUp op ih => exact ih h
  | _ => rfl

/-- An operation that does not write LIFE keeps it. -/
theorem runMicro_life {P : Config.Params} {op : Micro} (h : writesLife op = false) (s : State) :
    (microState (runMicro P op s)).life = s.life := by
  induction op with
  | resetSeq => exact Bool.noConfusion h
  | storeCoeffs m n => exact Bool.noConfusion h
  | fallAsleep => exact Bool.noConfusion h
  | advanceWcc => rfl
  | ifUp op ih =>
    simp only [runMicro]
    split
    · exact ih h
    · rfl
  | _ => exact (runMicro_sameRegs rfl s).life

/-- An operation that does not reset the panel leaves an asleep one asleep. -/
theorem runMicro_asleep {P : Config.Params} {op : Micro} (h : resetsPanel op = false) {s : State}
    (hs : s.life = .asleep) : (microState (runMicro P op s)).life = .asleep := by
  induction op with
  | resetSeq => exact Bool.noConfusion h
  | storeCoeffs m n => simp [runMicro, storeCoeffsOp, hs, lifeAfterInit]
  | fallAsleep => rfl
  | ifUp op ih =>
    simp only [runMicro]
    split
    · exact ih h
    · exact hs
  | _ => exact (runMicro_life rfl s).trans hs

theorem winSeq_keepsLife {P : Config.Params} {data : Micro} {x y w h : Nat} {ch : Channel}
    (hdata : writesLife data = false) : ∀ op ∈ winSeq P data x y w h ch, writesLife op = false := by
  intro op hop
  obtain rfl | ⟨c, rfl⟩ | ⟨ds, rfl⟩ := mem_winSeq hop
  · exact hdata
  · rfl
  · rfl

theorem sendLut_keepsLife {P : Config.Params} (v : Variant) (ov : Overrides) :
    ∀ op ∈ sendLut P v ov, writesLife op = false := by
  intro op hop
  obtain rfl | ⟨c, rfl⟩ | ⟨t, rfl⟩ | ⟨t, rfl⟩ := mem_sendLut hop <;> rfl

theorem blockingRefresh_keepsLife {P : Config.Params} (v : Variant) :
    ∀ op ∈ blockingRefresh P v, writesLife op = false :=
  List.forall_mem_append.2 ⟨sendLut_keepsLife v .none, by simp⟩

/-- The requests whose pseudocode writes LIFE: INIT, RESET, SLEEP, WAKE and GRAY (10 R51). -/
def isLifecycle : Instr → Bool
  | .init _ _ => true
  | .reset => true
  | .sleep => true
  | .wake _ _ => true
  | .gray _ => true
  | _ => false

/-- The requests whose pseudocode resets the panel: RESET, WAKE and GRAY (60 R267). -/
def isWaking : Instr → Bool
  | .reset => true
  | .wake _ _ => true
  | .gray _ => true
  | _ => false

theorem isLifecycle_eq_false {i : Instr} (hinit : ∀ m n, i ≠ .init m n) (hreset : i ≠ .reset)
    (hsleep : i ≠ .sleep) (hwake : ∀ m n, i ≠ .wake m n) (hgray : ∀ buf, i ≠ .gray buf) :
    isLifecycle i = false := by
  cases i with
  | init m n => exact absurd rfl (hinit m n)
  | reset => exact absurd rfl hreset
  | sleep => exact absurd rfl hsleep
  | wake m n => exact absurd rfl (hwake m n)
  | gray buf => exact absurd rfl (hgray buf)
  | _ => rfl

theorem isWaking_eq_false {i : Instr} (hreset : i ≠ .reset) (hwake : ∀ m n, i ≠ .wake m n)
    (hgray : ∀ buf, i ≠ .gray buf) : isWaking i = false := by
  cases i with
  | reset => exact absurd rfl hreset
  | wake m n => exact absurd rfl (hwake m n)
  | gray buf => exact absurd rfl (hgray buf)
  | _ => rfl

/-- No expansion of another request writes LIFE. -/
theorem expansion_keepsLife {i : Instr} {e : List Micro} (hi : isLifecycle i = false)
    (he : Expansion i e) : ∀ op ∈ e, writesLife op = false := by
  cases i with
  | init m n => exact Bool.noConfusion hi
  | reset => exact Bool.noConfusion hi
  | sleep => exact Bool.noConfusion hi
  | wake m n => exact Bool.noConfusion hi
  | gray buf => exact Bool.noConfusion hi
  | waitIdle => subst he; simp
  | clear => subst he; simp [clearExpansion, fillWhite, send]
  | setWin null ch x y w h buf =>
    subst he
    exact winSeq_keepsLife (by cases null <;> rfl)
  | display null buf =>
    subst he
    exact List.forall_mem_append.2
      ⟨by cases null <;> simp [displayData], blockingRefresh_keepsLife .full⟩
  | quick => subst he; exact blockingRefresh_keepsLife .quick
  | healthy rst =>
    obtain ⟨strong, rfl⟩ := he
    exact List.forall_mem_append.2 ⟨sendLut_keepsLife _ _, by simp⟩
  | shade pass =>
    subst he
    exact List.forall_mem_append.2 ⟨sendLut_keepsLife _ _, by simp⟩

/-- No expansion of another request than RESET, WAKE and GRAY resets the panel. -/
theorem expansion_resetsNoPanel {i : Instr} {e : List Micro} (hi : isWaking i = false)
    (he : Expansion i e) : ∀ op ∈ e, resetsPanel op = false := by
  cases hl : isLifecycle i with
  | false => exact fun op hop => resetsPanel_of_writesLife (expansion_keepsLife hl he op hop)
  | true =>
    cases i with
    | init m n => subst he; simp [initSeq, initBody, initSend, resetsPanel]
    | sleep => subst he; simp [sleepExpansion, send, resetsPanel]
    | reset => exact Bool.noConfusion hi
    | wake m n => exact Bool.noConfusion hi
    | gray buf => exact Bool.noConfusion hi
    | _ => exact Bool.noConfusion hl

/-- What every operation of a request's expansions keeps of LIFE holds in every state of the
request's execution, for any request but GRAY, which can fault as it is taken. -/
theorem runs_keep_life {i : Instr} {s t : State} {p : Life → Prop} (hi : ∀ buf, i ≠ .gray buf)
    (h : Runs i s t) (hs : p s.life)
    (hkeep : ∀ e, Expansion i e → ∀ op ∈ e, ∀ u : State, p u.life →
      p (microState (runMicro Config.params op u)).life) : p t.life := by
  obtain ⟨e, hazard, c, he, -, -, hx⟩ | ⟨buf, rfl, -⟩ := exec_cases i s
  · have T : Triple Config.params (fun u => p u.life) e (fun u => p u.life) (fun u => p u.life) :=
      Triple.keep (fun _ _ _ _ _ hu => hu) (hkeep e he)
    obtain ⟨-, ht⟩ | ⟨u, hu, -, rfl⟩ := T.runs hx hs h
    · exact ht
    · exact hu
  · exact absurd rfl (hi buf)

/-- Settles O58: LIFE is kept by the operations of the first requests, and ASLEEP by those of the
second. -/
theorem onlyLifecycleRequestsChangeLife : Obligations.OnlyLifecycleRequestsChangeLife := by
  refine ⟨fun i s t h hinit hreset hsleep hwake hgray => ?_,
    fun i s t h hs hreset hwake hgray => ?_⟩
  · have hi := isLifecycle_eq_false hinit hreset hsleep hwake hgray
    exact runs_keep_life (p := (· = s.life)) hgray h rfl fun e he op hop u hu =>
      (runMicro_life (expansion_keepsLife hi he op hop) u).trans hu
  · have hi := isWaking_eq_false hreset hwake hgray
    exact runs_keep_life (p := (· = .asleep)) hgray h hs fun e he op hop u hu =>
      runMicro_asleep (expansion_resetsNoPanel hi he op hop) hu

end Sys2Proof.Machine

/-! ## The memories: the ROM map, and the frame buffer no step writes -/

namespace Sys2Proof.Machine

open Sys2Proof.Safety

/-! ### Reading a ROM address back -/

/-- The table a byte of a variant's 212 belongs to, by the ranges of 20 R71. -/
def tableAt (r : Nat) : Table :=
  if r < 44 then .vcom else if r < 86 then .ww else if r < 128 then .bw
  else if r < 170 then .wb else .bb

/-- The variant with a number below 3 (20 R71). -/
def variantAt : Nat → Variant
  | 0 => .full
  | 1 => .quick
  | _ => .shade

@[simp] theorem variantAt_variantNr (v : Variant) : variantAt (variantNr v) = v := by
  cases v <;> rfl

theorem variantNr_variantAt {n : Nat} (h : n < 3) : variantNr (variantAt n) = n := by
  interval_cases n <;> rfl

theorem variantNr_lt (v : Variant) : variantNr v < 3 := by
  cases v <;> decide

theorem lutOff_add_lt {t : Table} {i : Nat} (h : i < lutLen t) : lutOff t + i < 212 := by
  cases t <;> simp only [lutLen, lutOff] at h ⊢ <;> omega

theorem tableAt_lutOff_add {t : Table} {i : Nat} (h : i < lutLen t) :
    tableAt (lutOff t + i) = t := by
  cases t <;> simp only [lutLen, lutOff] at h ⊢ <;>
    simp (disch := omega) only [tableAt, if_pos, if_neg]

/-- The tables leave no gap among a variant's 212 bytes. -/
theorem mem_range_tableAt {r : Nat} (h : r < 212) :
    lutOff (tableAt r) ≤ r ∧ r - lutOff (tableAt r) < lutLen (tableAt r) := by
  unfold tableAt
  split_ifs <;> simp only [lutLen, lutOff] <;> omega

/-- An address's quotient by 212 is its variant's number, the remainder the place of its byte. -/
theorem romAddr_divMod (v : Variant) {t : Table} {i : Nat} (h : i < lutLen t) :
    romAddr v t i / 212 = variantNr v ∧ romAddr v t i % 212 = lutOff t + i := by
  have hlt := lutOff_add_lt h
  rw [romAddr]
  omega

/-- The bytes of the tables have different addresses (20 R71). -/
theorem romAddr_inj {v v' : Variant} {t t' : Table} {i i' : Nat} (h : i < lutLen t)
    (h' : i' < lutLen t') (ha : romAddr v t i = romAddr v' t' i') : v = v' ∧ t = t' ∧ i = i' := by
  obtain ⟨hq, hr⟩ := romAddr_divMod v h
  obtain ⟨hq', hr'⟩ := romAddr_divMod v' h'
  rw [ha] at hq hr
  have hv : variantNr v = variantNr v' := hq.symm.trans hq'
  have hplace : lutOff t + i = lutOff t' + i' := hr.symm.trans hr'
  have ht : t = t' := by rw [← tableAt_lutOff_add h, hplace, tableAt_lutOff_add h']
  subst ht
  exact ⟨by rw [← variantAt_variantNr v, hv, variantAt_variantNr], rfl, Nat.add_left_cancel hplace⟩

/-- The addresses of the tables' bytes are those below 636 (20 R71). -/
theorem lt_636_iff_exists_romAddr (a : Nat) :
    a < 636 ↔ ∃ v t i, i < lutLen t ∧ romAddr v t i = a := by
  constructor
  · intro ha
    have hv := variantNr_variantAt (n := a / 212) (by omega)
    obtain ⟨hle, hlt⟩ := mem_range_tableAt (r := a % 212) (by omega)
    refine ⟨variantAt (a / 212), tableAt (a % 212), a % 212 - lutOff (tableAt (a % 212)), hlt, ?_⟩
    rw [romAddr, hv]
    omega
  · rintro ⟨v, t, i, h, rfl⟩
    have hv := variantNr_lt v
    have hplace := lutOff_add_lt h
    rw [romAddr]
    omega

theorem romAddr_full (t : Table) (i : Nat) : romAddr .full t i = lutOff t + i := by
  simp [romAddr, variantNr]

theorem romAddr_quick (t : Table) (i : Nat) : romAddr .quick t i = 212 + romAddr .full t i := by
  simp only [romAddr, variantNr]
  omega

theorem romAddr_shade (t : Table) (i : Nat) : romAddr .shade t i = 424 + romAddr .full t i := by
  simp only [romAddr, variantNr]
  omega

/-- Settles O43: the formula by its numbers, and both halves of the bijection by reading an address
back to its variant, table and byte. -/
theorem romMapIsOneToOne : Obligations.RomMapIsOneToOne := by
  refine ⟨fun t i => ⟨?_, romAddr_quick t i, romAddr_shade t i⟩,
    fun _ _ _ _ _ _ h h' ha => romAddr_inj h h' ha, lt_636_iff_exists_romAddr⟩
  rw [romAddr_full]
  cases t <;> rfl

/-! ### The frame buffer -/

/-- The frame-buffer space is the same: its bytes and its window (20 R70, R73). -/
structure SameMemory (s t : State) : Prop where
  fb : t.fb = s.fb
  fbBase : t.fbBase = s.fbBase
  fbSize : t.fbSize = s.fbSize

/-- A read depends on the frame-buffer space alone (20 R70). -/
theorem SameMemory.memRead {s t : State} (h : SameMemory s t) (a : Nat) :
    memRead t a = memRead s a := by
  have hwindow : inWindow t a = inWindow s a := by simp only [inWindow, h.fbBase, h.fbSize]
  rw [Machine.memRead, hwindow, h.fb, Machine.memRead]

/-- A run leaves the frame-buffer space as it was, however it ends. -/
theorem SameMemory.of_endsAs {P : Config.Params} {s u t : State} {ops : List Micro}
    (hu : Updates P s u) (ht : EndsAs ops u t) : SameMemory s t := by
  have hkept := hu.untouched
  obtain rfl | ⟨todo, -, rfl⟩ := ht <;> exact ⟨hkept.fb, hkept.fbBase, hkept.fbSize⟩

/-- A step runs micro-operations, which touch no memory, waits, or refuses a request (20 R73). -/
theorem step_sameMemory {s t : State} (h : step s = .next t) : SameMemory s t := by
  obtain ⟨-, ⟨i, k, -, rfl⟩ | ⟨-, ⟨-, rfl⟩ | ⟨w, why, rest, -, rfl⟩ | ⟨i, rest, -, hx⟩⟩⟩ :=
    step_cases h
  · obtain ⟨u, hu, ht⟩ := settle_endsAs Config.params s.todo s
    exact .of_endsAs hu ht
  · exact ⟨rfl, rfl, rfl⟩
  · exact ⟨rfl, rfl, rfl⟩
  · obtain ⟨e, hazard, c, u, -, -, hu, ht⟩ := exec_endsAs hx
    exact { SameMemory.of_endsAs hu ht with }

/-- Settles O51: a step keeps the frame-buffer space, and so every read of it. -/
theorem noStepWritesMemory : Obligations.NoStepWritesMemory := by
  intro s t h
  have hm := step_sameMemory h
  exact ⟨hm.fb, hm.fbBase, hm.fbSize, hm.memRead⟩

end Sys2Proof.Machine

/-! ## What the decoder accepts, and what it reads from the words it accepts -/

namespace Sys2Proof

/-- Settles O2: the encoder's header is accepted, and its operands read back. -/
theorem decodeOfEncode : Obligations.DecodeOfEncode := fun i rest => decode_encode i rest

/-! ### The table of R106 -/

/-- Every row's mask covers OPC and RSV, and its OPC finds it (30 R105, R106). -/
theorem opTable_mask : ∀ r ∈ opTable,
    opcOf r.mask = BitVec.allOnes 8 ∧ r.mask.extractLsb' 10 6 = BitVec.allOnes 6 ∧
    rowOf (opcOf r.pattern) = some r := by decide

/-- Every row's match is 0 outside OPC (30 R106). -/
theorem opTable_pattern : ∀ r ∈ opTable,
    nbOf r.pattern = false ∧ rcOf r.pattern = false ∧ r.pattern.extractLsb' 10 6 = 0 ∧
    aOf r.pattern = 0 ∧ bOf r.pattern = 0 := by decide

/-- Two rows of one request are the same row (30 R106). -/
theorem opTable_op_injective : ∀ r ∈ opTable, ∀ r' ∈ opTable, r.op = r'.op → r = r' := by decide

/-- A field the mask covers whole is the match's. -/
theorem extractLsb'_of_and_eq {h m p : Word} {start len : Nat} (e : h &&& m = p)
    (hm : m.extractLsb' start len = BitVec.allOnes len) :
    h.extractLsb' start len = p.extractLsb' start len := by
  rw [← e, BitVec.extractLsb'_and, hm, BitVec.and_allOnes]

/-- A bit the mask covers is the match's. -/
theorem getLsbD_of_and_eq {h m p : Word} {k : Nat} (e : h &&& m = p) (hm : m.getLsbD k = true) :
    h.getLsbD k = p.getLsbD k := by
  rw [← e, BitVec.getLsbD_and, hm, Bool.and_true]

/-- A legal header has the OPC of its row (30 R106). -/
theorem opcOf_of_row {r : OpRow} {h : Word} (hr : r ∈ opTable) (e : h &&& r.mask = r.pattern) :
    opcOf h = opcOf r.pattern :=
  extractLsb'_of_and_eq e (opTable_mask r hr).1

/-- A header is accepted as a request exactly when it meets that request's row (30 R106). -/
theorem checkHeader_eq_ok_iff {r : OpRow} (hr : r ∈ opTable) (h : Word) :
    checkHeader h = .ok r.op ↔ h &&& r.mask = r.pattern := by
  constructor
  · intro hc
    obtain ⟨hnone, -⟩ | ⟨r', hr', -, hsome⟩ := rowOf_cases (opcOf h)
    · simp [checkHeader, hnone] at hc
    · simp only [checkHeader, hsome] at hc
      split at hc
      · next hm => rwa [← opTable_op_injective r' hr' r hr (Except.ok.inj hc)]
      · simp at hc
  · intro e
    obtain ⟨-, -, hrow⟩ := opTable_mask r hr
    simp [checkHeader, opcOf_of_row hr e, hrow, e]

/-- Every request has its row (30 R106). -/
theorem exists_row (op : Mnemonic) : ∃ r ∈ opTable, r.op = op := by cases op <;> decide

/-- A header that meets no row is illegal (30 R107). -/
theorem checkHeader_eq_error {h : Word} (hno : ∀ r ∈ opTable, h &&& r.mask ≠ r.pattern) :
    ∃ why, checkHeader h = .error why := by
  cases hc : checkHeader h with
  | error why => exact ⟨why, rfl⟩
  | ok op =>
    obtain ⟨r, hr, rfl⟩ := exists_row op
    exact absurd ((checkHeader_eq_ok_iff hr h).1 hc) (hno r hr)

/-! ### One verdict at a time -/

/-- The words after a request are those its OPC's length leaves (30 R103). -/
theorem drop_requestLength (h : Word) (ws : List Word) (opc : Byte) :
    (h :: ws).drop (requestLength opc) = ws.drop (requestLength opc - 1) := by
  obtain ⟨n, hn⟩ := Nat.exists_eq_add_one.2 (requestLength_pos opc)
  rw [hn, List.drop_succ_cons, Nat.add_sub_cancel]

/-- The decoder waits while words of the request are missing (30 R103). -/
theorem decode_of_short {h : Word} {ws : List Word}
    (hlen : ws.length + 1 < requestLength (opcOf h)) : decode (h :: ws) = .wait := by
  simp only [decode, hlen, if_true]

/-- A header accepted with all its words there is a legal request (30 R104, R106). -/
theorem decode_of_ok {h : Word} {ws : List Word} {op : Mnemonic}
    (hlen : requestLength (opcOf h) ≤ ws.length + 1) (hc : checkHeader h = .ok op) :
    decode (h :: ws) =
      .legal (assembleOperands op h ws) ((h :: ws).drop (requestLength (opcOf h))) := by
  simp only [decode, Nat.not_lt.2 hlen, if_false, hc, drop_requestLength]

/-- A header refused with all its words there is an illegal request (30 R107). -/
theorem decode_of_error {h : Word} {ws : List Word} {why : Illegal}
    (hlen : requestLength (opcOf h) ≤ ws.length + 1) (hc : checkHeader h = .error why) :
    decode (h :: ws) = .illegal h why ((h :: ws).drop (requestLength (opcOf h))) := by
  simp only [decode, Nat.not_lt.2 hlen, if_false, hc, drop_requestLength]

/-- A legal request has an accepted header and all its words. -/
theorem decode_eq_legal {ws rest : List Word} {i : Instr} (hd : decode ws = .legal i rest) :
    ∃ h ext op, ws = h :: ext ∧ requestLength (opcOf h) ≤ ext.length + 1 ∧
      checkHeader h = .ok op ∧ i = assembleOperands op h ext ∧
      rest = (h :: ext).drop (requestLength (opcOf h)) := by
  cases ws with
  | nil => simp [decode] at hd
  | cons h ext =>
    by_cases hlen : ext.length + 1 < requestLength (opcOf h)
    · simp [decode_of_short hlen] at hd
    · have hlen := Nat.not_lt.1 hlen
      cases hc : checkHeader h with
      | error why => simp [decode_of_error hlen hc] at hd
      | ok op =>
        rw [decode_of_ok hlen hc] at hd
        injection hd with hi hrest
        exact ⟨h, ext, op, rfl, hlen, hc, hi.symm, hrest.symm⟩

/-! ### The words of a legal request -/

/-- A header with RSV = 0 is its fields (30 R100). -/
theorem mkHeader_fields {h : Word} (hrsv : h.extractLsb' 10 6 = 0) :
    mkHeader (opcOf h) (nbOf h) (rcOf h) (aOf h) (bOf h) = h := by
  have hbit (j : Nat) (hlow : 10 ≤ j) (hhigh : j < 16) : h[j] = false := by
    have hj : j - 10 < 6 := by omega
    simpa [hj, hlow, BitVec.getLsbD_eq_getElem (show j < 32 by omega)]
      using congrArg (BitVec.getLsbD · (j - 10)) hrsv
  apply BitVec.eq_of_getLsbD_eq
  intro i hi
  interval_cases i <;> simp [mkHeader, opcOf, nbOf, rcOf, aOf, bOf, hbit]

/-- In an accepted header every field its row's mask covers, OPC apart, is 0 (30 R106). -/
theorem fixedFields_of_row {r : OpRow} {h : Word} (hr : r ∈ opTable)
    (e : h &&& r.mask = r.pattern) :
    (nbOf r.mask = true → nbOf h = false) ∧ (rcOf r.mask = true → rcOf h = false) ∧
    (aOf r.mask = BitVec.allOnes 8 → aOf h = 0) ∧
    (bOf r.mask = BitVec.allOnes 8 → bOf h = 0) := by
  obtain ⟨hnb, hrc, -, ha, hb⟩ := opTable_pattern r hr
  exact ⟨fun hm => (getLsbD_of_and_eq e hm).trans hnb,
    fun hm => (getLsbD_of_and_eq e hm).trans hrc,
    fun hm => (extractLsb'_of_and_eq e hm).trans ha,
    fun hm => (extractLsb'_of_and_eq e hm).trans hb⟩

/-- An accepted header is its row's OPC and its own fields: its RSV is 0 (30 R100, R106). -/
theorem mkHeader_of_row {r : OpRow} {h : Word} (hr : r ∈ opTable)
    (e : h &&& r.mask = r.pattern) :
    mkHeader (opcOf r.pattern) (nbOf h) (rcOf h) (aOf h) (bOf h) = h := by
  obtain ⟨-, hmask, -⟩ := opTable_mask r hr
  obtain ⟨-, -, hpattern, -⟩ := opTable_pattern r hr
  rw [← opcOf_of_row hr e, mkHeader_fields ((extractLsb'_of_and_eq e hmask).trans hpattern)]

/-- The encoder writes an accepted header back (30 R104, R106). -/
theorem header_assembleOperands {r : OpRow} {h : Word} (hr : r ∈ opTable)
    (e : h &&& r.mask = r.pattern) (ext : List Word) :
    header (assembleOperands r.op h ext) = h := by
  have hh := mkHeader_of_row hr e
  obtain ⟨hnb, hrc, ha, hb⟩ := fixedFields_of_row hr e
  obtain ⟨op, pattern, mask⟩ := r
  cases op <;> simp only [opTable, List.mem_cons, OpRow.mk.injEq, reduceCtorEq, false_and,
    true_and, false_or, or_false, List.not_mem_nil] at hr <;> obtain ⟨rfl, rfl⟩ := hr
  case init | wake => rw [hnb rfl, hrc rfl] at hh; exact hh
  case setWin => rw [hrc rfl, hb rfl] at hh; exact hh
  case display => rw [hrc rfl, ha rfl, hb rfl] at hh; exact hh
  case healthy => rw [hnb rfl, ha rfl, hb rfl] at hh; exact hh
  case shade => rw [hnb rfl, hrc rfl, hb rfl] at hh; exact hh
  case reset | sleep | waitIdle | clear | quick | gray =>
    rw [hnb rfl, hrc rfl, ha rfl, hb rfl] at hh; exact hh

/-- The encoder writes the extension words of a legal request back (30 R101, R102, R103). -/
theorem extension_assembleOperands {r : OpRow} (hr : r ∈ opTable) (h : Word) {ext : List Word}
    (hlen : requestLength (opcOf r.pattern) ≤ ext.length + 1) :
    extension (assembleOperands r.op h ext) =
      ext.take (requestLength (opcOf r.pattern) - 1) := by
  have take_one : 2 ≤ ext.length + 1 → [ext.getD 0 0] = ext.take 1 := by
    cases ext <;> simp
  have take_three : 4 ≤ ext.length + 1 →
      [ext.getD 0 0, ext.getD 1 0, ext.getD 2 0] = ext.take 3 := by
    obtain _ | ⟨u, _ | ⟨v, _ | ⟨w, rest⟩⟩⟩ := ext <;> simp
  obtain ⟨op, pattern, mask⟩ := r
  cases op <;> simp only [opTable, List.mem_cons, OpRow.mk.injEq, reduceCtorEq, false_and,
    true_and, false_or, or_false, List.not_mem_nil] at hr <;> obtain ⟨rfl, rfl⟩ := hr
  case setWin =>
    rw [assembleOperands, extension, mkPair_halves, mkPair_halves]
    exact take_three hlen
  case display | gray => exact take_one hlen
  case init | reset | sleep | wake | waitIdle | clear | quick | healthy | shade => rfl

/-- The words a legal request consumes are the encoder's. -/
theorem encode_of_decode {ws rest : List Word} {i : Instr} (hd : decode ws = .legal i rest) :
    ws = encode i ++ rest := by
  obtain ⟨h, ext, op, rfl, hlen, hc, rfl, rfl⟩ := decode_eq_legal hd
  obtain ⟨r, hr, rfl⟩ := exists_row op
  have hrow := (checkHeader_eq_ok_iff hr h).1 hc
  rw [opcOf_of_row hr hrow] at hlen ⊢
  rw [encode, header_assembleOperands hr hrow, extension_assembleOperands hr h hlen,
    drop_requestLength, List.cons_append, List.take_append_drop]

/-- Settles O3: the header and the extension words are each written back. -/
theorem encodeOfDecode : Obligations.EncodeOfDecode := fun _ _ _ hd => encode_of_decode hd

/-! ### Legality -/

/-- The operands do not change which request it is (30 R104). -/
theorem mnemonicOf_assembleOperands (op : Mnemonic) (h : Word) (ext : List Word) :
    mnemonicOf (assembleOperands op h ext) = op := by cases op <;> rfl

/-- Settles O4: the extension words play no part in the verdict, and the header's is its row's. -/
theorem legalHeaderIsMaskAndMatch : Obligations.LegalHeaderIsMaskAndMatch := by
  refine ⟨fun h ws op hc hlen => ?_, fun h => ?_⟩
  · exact ⟨_, _, decode_of_ok hlen hc, mnemonicOf_assembleOperands op h ws⟩
  · have hrows : ∀ r ∈ opTable, (checkHeader h = .ok r.op ↔ h &&& r.mask = r.pattern) :=
      fun r hr => checkHeader_eq_ok_iff hr h
    simpa only [opTable, List.forall_mem_cons, List.not_mem_nil, false_imp_iff, implies_true,
      and_true] using hrows

/-- Settles O1: each group of words is decoded. -/
theorem decodeReadsTheSpecsWords : Obligations.DecodeReadsTheSpecsWords := by
  unfold Obligations.DecodeReadsTheSpecsWords
  decide

end Sys2Proof

/-! ## The step on words that are missing or illegal -/

namespace Sys2Proof.Machine

/-- Settles O5: the length is `requestLength` of OPC, and the verdict comes with all words there. -/
theorem lengthComesFromOpcode : Obligations.LengthComesFromOpcode := by
  rintro h ws n rfl
  refine ⟨fun hshort => ?_, fun hlen => ?_⟩
  · have hd : decode (h :: ws) = .wait := decode_of_short hshort
    exact ⟨hd, fun s hf hs hreq => ⟨s, step_of_wait hf hs (hreq ▸ hd), rfl, rfl⟩⟩
  · cases hc : checkHeader h with
    | ok op => exact .inl ⟨_, decode_of_ok hlen hc⟩
    | error why => exact .inr ⟨why, decode_of_error hlen hc⟩

/-- An idle block without a fault refuses an illegal request (30 R107). -/
theorem step_of_illegal {s : State} {h : Word} {why : Illegal} {rest : List Word}
    (hf : s.fault = none) (hs : s.seq = .idle) (hd : decode s.req = .illegal h why rest) :
    step s = .next (raiseIllegal h (consume rest s)) := by
  simp only [step, hf, hs, fetch, hd]

/-- Settles O6: a header that meets no row is illegal, and the step only reports it. -/
theorem illegalRequestChangesOnlyStatus : Obligations.IllegalRequestChangesOnlyStatus := by
  intro s h ws hf hs hreq hno hlen
  obtain ⟨why, hc⟩ := checkHeader_eq_error hno
  have hd := decode_of_error hlen hc
  rw [← hreq] at hd ⊢
  exact step_of_illegal hf hs hd

end Sys2Proof.Machine

/-! ## Busy waits: the one of WAITIDLE, and of a request in flight -/

namespace Sys2Proof.Machine

open Sys2Proof.Safety

/-- A wait that ends advances the position by its polls and delays (log 24). -/
theorem panelIdle_emit_waitActions {s : State} {i : Instr} {k : Nat} (q : Nat)
    (hs : s.seq = .run i k) :
    panelIdle (emit (waitActions q) s) = { s with
      trace := s.trace ++ waitActions q, seq := .run i (k + 2 * q + 1), maybeBusy := false } := by
  have hlen : k + (waitActions q).length = k + 2 * q + 1 := by
    simp [waitActions]
    omega
  simp only [panelIdle, emit, hs, seqAdvance_run, hlen]

/-- A wait whose polls are all busy advances it by two for each of them (log 24). -/
theorem emit_busyPolls {s : State} {i : Instr} {k : Nat} (q : Nat) (hs : s.seq = .run i k) :
    emit (List.replicate q [Action.poll true, .delay 1]).flatten s = { s with
      trace := s.trace ++ (List.replicate q [Action.poll true, .delay 1]).flatten
      seq := .run i (k + 2 * q) } := by
  have hlen : (List.replicate q [Action.poll true, .delay 1]).flatten.length = 2 * q := by
    simp [Nat.mul_comm]
  simp only [emit, hs, seqAdvance_run, hlen]

section
variable {P : Config.Params} {op : Micro} {s : State} {q : Nat}

/-- A run that begins with a wait, plain or guarded, goes on after the listed not-busy answer. -/
theorem runMicros_wait_listed (hop : runMicro P op s = runMicro P .waitBusy s) {ps : List Bool}
    (h : s.pollIn = pollsOf [q] ++ ps) (rest : List Micro) :
    runMicros P (op :: rest) s =
      runMicros P rest (panelIdle (emit (waitActions q) { s with pollIn := ps })) :=
  runMicros_cons_go (hop.trans (runMicro_waitBusy h)) rest

/-- With busy answers alone listed it goes on or holds as the next free draw says (10 R47). -/
theorem runMicros_wait_unlisted (hop : runMicro P op s = runMicro P .waitBusy s)
    (h : s.pollIn = List.replicate q true) (rest : List Micro) :
    runMicros P (op :: rest) s =
      if Config.freeBusy s.pollDraws then
        .held (emit (List.replicate (q + 1) [Action.poll true, .delay 1]).flatten
          { s with pollIn := [], pollDraws := s.pollDraws + 1 }) (op :: rest)
      else
        runMicros P rest (panelIdle (emit (waitActions q)
          { s with pollIn := [], pollDraws := s.pollDraws + 1 })) := by
  have hwait := (hop.trans (congrArg (waitBusy · s) h)).trans (waitBusy_unlisted q s)
  split at hwait
  · next hbusy => rw [runMicros_cons_hold hwait, if_pos hbusy]
  · next hbusy => rw [runMicros_cons_go hwait, if_neg hbusy]

end

/-- Settles O20: its expansion is one WaitBusy, run with the answers that are listed. -/
theorem waitIdleDrawsWhenUnlisted : Obligations.WaitIdleDrawsWhenUnlisted := by
  intro s q h
  have hrun := runMicros_wait_unlisted (P := Config.params) (s := takeUp .waitIdle s) rfl h []
  refine congrArg Host.Outcome.next ?_
  rw [runWaitIdle, startRequest, hrun, takeUp_pollDraws]
  split
  · rw [emit_busyPolls (q + 1) (by exact takeUp_seq .waitIdle s), Nat.zero_add]
    rfl
  · rfl

/-- A request in flight without a fault goes on with what is left of its expansion (10 R32). -/
theorem step_of_run {s : State} {i : Instr} {k : Nat} {ops : List Micro} (hf : s.fault = none)
    (hs : s.seq = .run i k) (htodo : s.todo = ops) :
    step s = .next (settle (runMicros Config.params ops s)) := by
  simp only [step, hf, hs, resume, htodo]

/-- Settles O10: both forms of the wait run as the plain one, and the step goes on with the rest. -/
theorem heldRequestPollsAgain : Obligations.HeldRequestPollsAgain := by
  intro s i k rest hf hs hwait
  obtain ⟨op, htodo, hop⟩ : ∃ op, s.todo = op :: rest ∧
      runMicro Config.params op s = runMicro Config.params .waitBusy s := by
    obtain htodo | ⟨htodo, hok⟩ := hwait
    · exact ⟨_, htodo, rfl⟩
    · exact ⟨_, htodo, if_pos hok⟩
  refine ⟨fun q ps h => ?_, fun q h => ?_⟩
  · rw [step_of_run hf hs htodo, runMicros_wait_listed hop h,
      panelIdle_emit_waitActions q (by exact hs)]
  · rw [step_of_run hf hs htodo, runMicros_wait_unlisted hop h,
      emit_busyPolls (q + 1) (by exact hs), panelIdle_emit_waitActions q (by exact hs), ← htodo]
    split <;> rfl

end Sys2Proof.Machine

/-! ## Actions as primitives of the transport -/

namespace Sys2Proof.Machine

theorem otherLevel_ne (level : Level) : otherLevel level ≠ level := by
  cases level <;> decide

/-- The level a busy Bool was read from reads back as it, for either polarity (40 R131, R136). -/
@[simp] theorem busyOfLevel_levelOfBusy (P : Config.Params) (busy : Bool) :
    busyOfLevel P (levelOfBusy P busy) = busy := by
  cases busy
  · exact beq_false_of_ne (otherLevel_ne P.busyActive)
  · exact beq_self_eq_true P.busyActive

/-- Settles O48: each clause is `primitives` at one action; a POLL's level is read back. -/
theorem actionsRefineToTransport : Obligations.ActionsRefineToTransport := fun P =>
  ⟨fun _ => rfl, fun _ => rfl, fun _ => rfl, fun _ => rfl, fun _ => rfl,
    fun busy => ⟨levelOfBusy P busy, rfl, busyOfLevel_levelOfBusy P busy⟩,
    fun _ => Bool.beq_eq_decide_eq _ _⟩

end Sys2Proof.Machine

/-! ## Lifecycle requests, with the answers listed that they ask for -/

namespace Sys2Proof.Machine

open Sys2Proof.Safety

/-! ### The PLL byte -/

/-- R155's masks and shift keep the low three bits of each coefficient, m's above n's. -/
theorem pll_eq_lowBits (m n : Byte) :
    pll m n = (m.extractLsb' 0 3 ++ n.extractLsb' 0 3).setWidth 8 := by
  apply BitVec.eq_of_getLsbD_eq
  intro i hi
  rw [BitVec.getLsbD_setWidth, BitVec.getLsbD_append]
  interval_cases i <;> simp [pll]

/-- Settles O44: the number of the appended bits is that of m's shifted above n's. -/
theorem pllByteIsTheLowBits : Obligations.PllByteIsTheLowBits := by
  refine ⟨fun m n => ?_, by decide⟩
  have hlt := (n.extractLsb' 0 3).isLt
  rw [pll_eq_lowBits, BitVec.toNat_setWidth_of_le (by decide), BitVec.toNat_append,
    ← Nat.shiftLeft_add_eq_or_of_lt hlt, Nat.shiftLeft_eq]
  simp

/-! ### INIT -/

/-- An Init leaves the panel asleep if it was, else active, from RESETTING too (10 R51; log 12). -/
theorem lifeAfterInit_eq (l : Life) :
    lifeAfterInit l = if l = .asleep then .asleep else .active := by
  cases l <;> rfl

/-- Settles O13, by what an Init sub-sequence that succeeds leaves. -/
theorem initCompletes : Obligations.InitCompletes := by
  intro s m n q is ps hi hp
  have hrun := runMicros_initSeq (P := Config.params) (m := m) (n := n) (s := takeUp (.init m n) s)
    (by exact hi) (by exact hp)
  rw [takeUp_life, lifeAfterInit_eq] at hrun
  exact congrArg Host.Outcome.next (startRequest_done hrun)

/-- Settles O14, by what an Init sub-sequence whose BUSINIT fails leaves. -/
theorem initFailureStoresNothing : Obligations.InitFailureStoresNothing := by
  intro s m n is hi
  have hrun := runMicros_initSeq_fail (P := Config.params) (m := m) (n := n)
    (s := takeUp (.init m n) s) (by exact hi)
  exact congrArg Host.Outcome.next (startRequest_done hrun)

/-! ### RESET and WAKE -/

/-- Settles O15: its expansion is one reset sub-sequence. -/
theorem resetRequestCompletes : Obligations.ResetRequestCompletes := by
  intro s
  have hrun : runMicros Config.params [.resetSeq] (takeUp .reset s) =
      .done (resetOp (takeUp .reset s)) := rfl
  exact congrArg Host.Outcome.next (startRequest_done hrun)

/-- WAKE expands as one side of GRAY's bracket does (41 R153, 44 R220). -/
theorem wakeExpansion_eq_bracket (P : Config.Params) (m n : Byte) :
    wakeExpansion P m n = bracket P true m n := rfl

/-- Settles O17, by what the reset and a successful Init leave together. -/
theorem wakeCompletes : Obligations.WakeCompletes := by
  intro s m n q is ps hi hp
  have hrun := runMicros_bracket (P := Config.params) (m := m) (n := n)
    (s := takeUp (.wake m n) s) (by exact hi) (by exact hp)
  rw [← wakeExpansion_eq_bracket] at hrun
  exact congrArg Host.Outcome.next (startRequest_done hrun)

/-- Settles O18, by what the reset and a failing BUSINIT leave together. -/
theorem wakeFailureLeavesUninit : Obligations.WakeFailureLeavesUninit := by
  intro s m n is hi
  have hrun := runMicros_bracket_fail (P := Config.params) (m := m) (n := n)
    (s := takeUp (.wake m n) s) (by exact hi)
  rw [← wakeExpansion_eq_bracket] at hrun
  exact congrArg Host.Outcome.next (startRequest_done hrun)

/-! ### SLEEP and WAITIDLE -/

/-- An expansion that begins with a `Send` goes on after it (40 R133). -/
theorem runMicros_send_append {P : Config.Params} (c : Byte) (ds : List Byte) (rest : List Micro)
    (s : State) :
    runMicros P (send c ds ++ rest) s =
      runMicros P rest (emit (sendActions c ds) (markPv (commandHazard false s) s)) :=
  runMicros_append_done (runMicros_send c ds s) rest

/-- The end of a WaitBusy makes no command a hazard that was none before it. -/
theorem notListening_of_panelIdle {s : State} (h : notListening (panelIdle s) = true) :
    notListening s = true := by
  have hlife : s.life = .uninit ∨ s.life = .asleep := by simpa [notListening] using h
  simp [notListening, or_assoc, hlife]

/-- The sleep sequence: its commands set PV by the marks it starts with (41 R152, 70 R284, R285,
R288). -/
theorem runMicros_sleepExpansion {P : Config.Params} {q : Nat} {ps : List Bool} {s : State}
    (h : s.pollIn = pollsOf [q] ++ ps) :
    runMicros P (sleepExpansion P) s =
      .done { emit (sleepActions P q) s with
        life := .asleep, maybeBusy := false, pollIn := ps, pv := s.pv || notListening s } := by
  simp only [sleepExpansion, List.append_assoc, List.cons_append, List.nil_append,
    runMicros_send_append]
  refine (runMicros_cons_go rfl _).trans ?_
  rw [runMicros_send_append]
  refine (runMicros_cons_go rfl _).trans ?_
  refine (runMicros_cons_go rfl _).trans ?_
  refine (runMicros_cons_go (runMicro_waitBusy (q := q) (ps := ps) (by exact h)) _).trans ?_
  rw [runMicros_send_append]
  refine (runMicros_cons_go rfl _).trans (congrArg RunEnd.done ?_)
  apply State.ext <;> simp [sleepActions, sendCommand_eq, commandHazard_outside, deepSleepCheck]
  case seq => congr 1; omega
  case pv => exact fun hazard => .inr (notListening_of_panelIdle hazard)

/-- Settles O16, by what the sleep sequence leaves. -/
theorem sleepCompletes : Obligations.SleepCompletes := by
  intro s q ps hp
  have hrun := runMicros_sleepExpansion (P := Config.params) (s := takeUp .sleep s) (by exact hp)
  exact congrArg Host.Outcome.next (startRequest_done hrun)

/-- Settles O19: its expansion is one WaitBusy, and the listed answers end it. -/
theorem waitIdleCompletes : Obligations.WaitIdleCompletes := by
  intro s q ps hp
  have hrun := runMicros_wait_listed (P := Config.params) (s := takeUp .waitIdle s) rfl hp []
  exact congrArg Host.Outcome.next (startRequest_done hrun)

end Sys2Proof.Machine

/-! ## Frame and window requests -/

namespace Sys2Proof.Machine

open Sys2Proof.Safety

/-! ### The window bytes -/

/-- R172's mask on a byte clears its low three bits. -/
theorem toNat_and_0xF8 (b : Byte) : (b &&& 0xF8).toNat = b.toNat / 8 * 8 := by
  have hshift : b &&& (0xF8 : Byte) = b >>> 3 <<< 3 := by
    apply BitVec.eq_of_getLsbD_eq
    intro i hi
    interval_cases i <;> simp
  have hlt := b.isLt
  rw [hshift, BitVec.toNat_shiftLeft, BitVec.toNat_ushiftRight, Nat.shiftRight_eq_div_pow,
    Nat.shiftLeft_eq]
  omega

/-- The start column is `x & 0xF8` (42 R172). -/
theorem startColumn_toNat (x : Half) :
    startColumn x.toNat = (x.extractLsb' 0 8 &&& 0xF8).toNat := by
  rw [toNat_and_0xF8, BitVec.extractLsb'_toNat, Nat.shiftRight_zero]
  rfl

/-- The high byte of a 16-bit operand (00 R18). -/
theorem hi8_toNat (x : Half) : hi8 x.toNat = x.extractLsb' 8 8 := by
  have hnat : hi8 x.toNat = BitVec.ofNat 8 (x.toNat / 256) :=
    BitVec.ofInt_natCast 8 (x.toNat / 256)
  apply BitVec.eq_of_toNat_eq
  rw [hnat, BitVec.toNat_ofNat, BitVec.extractLsb'_toNat, Nat.shiftRight_eq_div_pow]

/-- The low byte of a 16-bit operand (00 R18). -/
theorem lo8_toNat (x : Half) : lo8 x.toNat = x.extractLsb' 0 8 := by
  apply BitVec.eq_of_toNat_eq
  rw [lo8, byteOf, BitVec.ofInt_natCast, BitVec.toNat_ofNat, BitVec.extractLsb'_toNat,
    Nat.shiftRight_zero]

/-- `v | 0x07` has its low three bits set, for a negative v too (42 R172). -/
theorem lo8_orSeven_and (v : Int) : lo8 (orSeven v) &&& 0x07 = 0x07 := by
  apply BitVec.eq_of_toNat_eq
  rw [BitVec.toNat_and, lo8, byteOf, BitVec.toNat_ofInt, orSeven]
  refine (Nat.and_two_pow_sub_one_eq_mod _ 3).trans ?_
  change _ = 7
  omega

/-- Settles O47, byte by byte; the end column's low bits are those of `orSeven`. -/
theorem windowBytesFollowTheFormulas : Obligations.WindowBytesFollowTheFormulas := by
  intro x y w h
  refine ⟨endColumn x.toNat w.toNat, endRow y.toNat h.toNat, _, _, ?_, rfl, ?_, ?_, rfl, rfl,
    lo8_orSeven_and _⟩
  · rw [winBytes, hi8_toNat, hi8_toNat, lo8_toNat, startColumn_toNat, lo8, byteOf,
      BitVec.ofInt_natCast, BitVec.ofNat_toNat, BitVec.setWidth_eq]
    rfl
  · rw [endColumn, orSeven]
    omega
  · rw [endColumn, orSeven, startColumn_toNat]
    omega

/-! ### CLEAR -/

/-- The clear sequence: three `Send`s, whose commands are a hazard together (42 R170). -/
theorem runMicros_clearExpansion (P : Config.Params) (s : State) :
    runMicros P (clearExpansion P) s =
      .done (emit (clearActions P) (markPv (notListening s) s)) := by
  rw [clearExpansion, List.append_assoc, fillWhite, fillWhite, runMicros_send_append,
    runMicros_send_append, runMicros_send]
  simp only [commandHazard_emit, commandHazard_markPv, commandHazard_outside, markPv_emit,
    markPv_markPv, emit_emit, Bool.or_self]
  rfl

/-- Settles O23: its expansion ends, with only PV marked on the way. -/
theorem clearCompletes : Obligations.ClearCompletes := by
  intro s
  exact congrArg Host.Outcome.next
    (startRequest_done (runMicros_clearExpansion Config.params (takeUp .clear s)))

/-! ### What a window's data reads -/

theorem SameMemory.inWindow {s t : State} (h : SameMemory s t) (a : Nat) :
    inWindow t a = inWindow s a := by
  simp only [Machine.inWindow, h.fbBase, h.fbSize]

theorem SameMemory.readable {s t : State} (h : SameMemory s t) {a n : Nat}
    (hr : Readable s a n) : Readable t a n := by
  simpa only [Readable, h.fbBase, h.fbSize] using hr

theorem SameMemory.fbBytes {s t : State} (h : SameMemory s t) (a n : Nat) :
    fbBytes t a n = fbBytes s a n := by
  simp only [Safety.fbBytes, h.fb]

/-! ### SETWIN -/

/-- A SETWIN whose data micro-operation sends `data` completes with the window's actions (42 R171,
R173, 70 R289, R290). -/
theorem exec_setWin_of_go {null : Bool} {ch : Byte} {x y w h : Half} {buf : Word} {s : State}
    {data : List Byte}
    (hdata : ∀ t, SameMemory s t →
      runMicro Config.params (winData null buf.toNat (winCount w.toNat h.toNat)) t =
        .go (sendData data t)) :
    exec (.setWin null ch x y w h buf) s = .next {
      finished (windowActions Config.params data x.toNat y.toNat w.toNat h.toNat (channelOf ch))
        0x00 s with
      pv := s.pv || notListening s || decide (256 ≤ x.toNat) ||
        decide (¬ (x.toNat % 8 = 0 ∧ 0 < w.toNat ∧ 0 < h.toNat ∧ w.toNat % 8 = 0 ∧
          x.toNat + w.toNat ≤ 400 ∧ y.toNat + h.toNat ≤ 300)) } := by
  have hrun := runMicros_winSeq (P := Config.params) (x := x.toNat) (y := y.toNat) (w := w.toNat)
    (h := h.toNat) (ch := channelOf ch)
    (s := takeUp (.setWin null ch x y w h buf)
      (markPv (windowHazard x.toNat y.toNat w.toNat h.toNat) s))
    (fun acts hz => hdata _ ⟨rfl, rfl, rfl⟩)
  rw [Bool.or_assoc, ← windowHazard_eq, Bool.or_right_comm, ← commandHazard_outside]
  exact congrArg Host.Outcome.next (startRequest_done hrun)

/-- Settles O24: the data of a null buffer is sent whatever the state is. -/
theorem setWinNullCompletes : Obligations.SetWinNullCompletes := fun _ _ _ _ _ _ _ =>
  exec_setWin_of_go fun _ _ => rfl

/-- Settles O25: a readable buffer is read whole, and a buffer of no bytes not at all. -/
theorem setWinBufferCompletes : Obligations.SetWinBufferCompletes := by
  intro s ch x y w h buf hbuf
  refine exec_setWin_of_go fun t ht => ?_
  rw [← ht.fbBytes]
  obtain hnone | hread := hbuf
  · rw [winCount, hnone]
    exact runMicro_frame_none Config.params t buf.toNat
  · exact runMicro_frame (ht.readable hread)

/-! ### SETWIN of a buffer that leaves the window -/

/-- The actions of a window before its data bytes (42 R173). -/
def openingActions (P : Config.Params) (x y w h : Nat) (ch : Channel) : List Action :=
  (if P.pwInOut then [.cmd P.codes.partialIn] else []) ++
  sendActions cmdPartialWindow (winBytes x y w h ++ P.pwTrailer) ++
  [.cmd (channelCmd P ch)]

/-- A window runs its opening and goes on with its data micro-operation (42 R173). -/
theorem runMicros_winSeq_opening (P : Config.Params) (op : Micro) (x y w h : Nat) (ch : Channel)
    (s : State) :
    runMicros P (winSeq P op x y w h ch) s =
      runMicros P (op :: if P.pwInOut then [.cmd P.codes.partialOut] else [])
        (emit (openingActions P x y w h ch) (markPv (commandHazard false s) s)) := by
  have hcmd : ∀ (c : Byte) (rest : List Micro) (t : State), runMicros P (.cmd c :: rest) t =
      runMicros P rest (emit [.cmd c] (markPv (commandHazard false t) t)) :=
    fun _ _ _ => runMicros_cons_go rfl _
  cases hpw : P.pwInOut <;>
    simp [winSeq, openingActions, hpw, hcmd, runMicros_send_append]

theorem takeUp_markPv (i : Instr) (hazard : Bool) (s : State) :
    takeUp i (markPv hazard s) = markPv hazard (takeUp i s) := rfl

/-- A request whose expansion faults keeps what is left of it, and completes with no status (60
R254). -/
theorem startRequest_stopped {P : Config.Params} {i : Instr} {ops todo : List Micro} {s u : State}
    (h : runMicros P ops (takeUp i s) = .stopped u todo) :
    startRequest P i ops s = { u with todo := todo } := by
  rw [startRequest, h, settle]

/-- A SETWIN whose data micro-operation faults after sending `data` stops there (60 R254, R255). -/
theorem exec_setWin_of_stop {null : Bool} {ch : Byte} {x y w h : Half} {buf : Word} {s : State}
    {data : List Byte} {r : Fault}
    (hdata : ∀ t, SameMemory s t →
      runMicro Config.params (winData null buf.toNat (winCount w.toNat h.toNat)) t =
        .stop (recordFault r (sendData data t))) :
    ∃ hazard todo, exec (.setWin null ch x y w h buf) s = .next
      { recordFault r (sendData data
          (emit (openingActions Config.params x.toNat y.toNat w.toNat h.toNat (channelOf ch))
            (markPv hazard (takeUp (.setWin null ch x y w h buf) s)))) with todo := todo } := by
  have hopening := runMicros_winSeq_opening Config.params
    (winData null buf.toNat (winCount w.toNat h.toNat)) x.toNat y.toNat w.toNat h.toNat
    (channelOf ch) (takeUp (.setWin null ch x y w h buf)
      (markPv (windowHazard x.toNat y.toNat w.toNat h.toNat) s))
  have hstart := startRequest_stopped
    (hopening.trans (runMicros_cons_stop (hdata _ (by exact ⟨rfl, rfl, rfl⟩)) _))
  rw [takeUp_markPv, markPv_markPv] at hstart
  exact ⟨_, _, congrArg Host.Outcome.next hstart⟩

/-- The data command of SETWIN's channel operand (30 R104, 42 R173). -/
theorem channelCmd_channelOf (P : Config.Params) (ch : Byte) :
    channelCmd P (channelOf ch) = if ch = 1 then P.codes.dtm1 else P.codes.dtm2 :=
  apply_ite (channelCmd P) (ch = 1) .one .two

/-- Settles O26: the read of the buffer stops at byte j, with the bytes before it sent. -/
theorem setWinFaultsOutsideWindow : Obligations.SetWinFaultsOutsideWindow := by
  intro s ch x y w h buf j hfault hj hin hout
  obtain ⟨hazard, todo, hexec⟩ := exec_setWin_of_stop (null := false) (ch := ch) (x := x) (y := y)
    (s := s) (data := fbBytes s buf.toNat j) fun t ht => by
      rw [← ht.fbBytes]
      exact runMicro_frame_fault hj (fun i hi => (ht.inWindow _).trans (hin i hi))
        ((ht.inWindow _).trans hout)
  refine ⟨_, hexec, ?_, ?_, rfl, rfl, Seq.noConfusion, rfl, rfl, rfl, rfl, rfl⟩
  · simp [hfault]
  · simp [openingActions, sendActions, channelCmd_channelOf, cmdPartialWindow]

end Sys2Proof.Machine

/-! ## Refresh requests -/

namespace Sys2Proof.Machine

open Sys2Proof.Safety

/-! ### The override bytes -/

/-- SendLut sends at each index of a table its override, else the ROM byte (45 R241). -/
theorem lutBytes_getElem? (P : Config.Params) (v : Variant) (ov : Overrides) {t : Table} {i : Nat}
    (h : i < lutLen t) :
    (lutBytes P v ov t)[i]? = some ((overrideAt ov t i).getD (P.lutRom (romAddr v t i))) := by
  simp [lutBytes, h]

/-- An override under a condition replaces the ROM byte where the condition holds. -/
theorem getD_ite_some (p : Prop) [Decidable p] (a b : Byte) :
    (if p then some a else none).getD b = if p then a else b :=
  apply_ite (Option.getD · b) p (some a) none

/-- Settles O42, by the override at each index and the value of the override tables. -/
theorem overridesReplaceTheNamedBytes : Obligations.OverridesReplaceTheNamedBytes := by
  intro P t i pass hi
  refine ⟨?_, ?_, ?_⟩ <;> rw [lutBytes_getElem? _ _ _ hi, overrideAt, getD_ite_some]
  · cases t <;> rfl
  · cases t <;> rfl
  · rfl

/-! ### DISPLAY and QUICK -/

/-- A blocking refresh of the FULL or QUICK tables is checked against no clock: only its commands
set PV (43 R190, 70 R284, R285, R288). -/
theorem runMicros_unclockedRefresh {P : Config.Params} {v : Variant} (hv : v ≠ .shade) {q : Nat}
    {ps : List Bool} {s : State} (h : s.pollIn = pollsOf [q] ++ ps) :
    runMicros P (blockingRefresh P v) s =
      .done { emit (refreshActions P v .none ++ waitActions q) (markPv (notListening s) s) with
        lastLut := lutTag v .none, maybeBusy := false, pollIn := ps } := by
  have hclock : lutClockHazard v s = false := by
    cases v with
    | full => rfl
    | quick => rfl
    | shade => exact absurd rfl hv
  rw [runMicros_blockingRefresh h, hclock, Bool.false_or, commandHazard_outside]

/-- Settles O27: the expansion of a null DISPLAY is the FULL refresh alone. -/
theorem displayNullCompletes : Obligations.DisplayNullCompletes := by
  intro s buf q ps hp
  have hrun := runMicros_unclockedRefresh (P := Config.params) (v := .full) (by decide)
    (s := takeUp (.display true buf) s) (by exact hp)
  exact congrArg Host.Outcome.next (startRequest_done hrun)

/-- Settles O30: the expansion of QUICK is the QUICK refresh alone. -/
theorem quickCompletes : Obligations.QuickCompletes := by
  intro s q ps hp
  have hrun := runMicros_unclockedRefresh (P := Config.params) (v := .quick) (by decide)
    (s := takeUp .quick s) (by exact hp)
  exact congrArg Host.Outcome.next (startRequest_done hrun)

/-- DISPLAY of a buffer sends its channel command and goes on with its frame data (43 R194). -/
theorem runMicros_displayExpansion_opening (P : Config.Params) (buf : Word) (s : State) :
    runMicros P (displayExpansion P false buf) s =
      runMicros P (.frame buf.toNat frameBytes :: blockingRefresh P .full)
        (emit [.cmd (channelCmd P P.displayChannel)] (markPv (notListening s) s)) := by
  rw [← commandHazard_outside]
  exact runMicros_cons_go rfl _

/-- DISPLAY of a readable buffer: its frame data, then the FULL refresh; the commands are a hazard
together (43 R194). -/
theorem runMicros_displayExpansion {P : Config.Params} {buf : Word} {q : Nat} {ps : List Bool}
    {s : State} (hbuf : Readable s buf.toNat 15000) (hp : s.pollIn = pollsOf [q] ++ ps) :
    runMicros P (displayExpansion P false buf) s =
      .done { emit (sendActions (channelCmd P P.displayChannel) (fbBytes s buf.toNat 15000) ++
          refreshActions P .full .none ++ waitActions q) (markPv (notListening s) s) with
        lastLut := .full, maybeBusy := false, pollIn := ps } := by
  rw [runMicros_displayExpansion_opening, runMicros_cons_go (runMicro_frame (by exact hbuf)),
    runMicros_unclockedRefresh (by decide) (by exact hp)]
  simp only [← commandHazard_outside, sendData_eq, commandHazard_emit, commandHazard_markPv,
    markPv_emit, markPv_markPv, emit_emit, Bool.or_self, sendActions, List.append_assoc,
    List.cons_append, List.nil_append]
  rfl

/-- Settles O28, by what the expansion of a readable buffer leaves. -/
theorem displayBufferCompletes : Obligations.DisplayBufferCompletes := by
  intro s buf q ps hbuf hp
  have hrun := runMicros_displayExpansion (P := Config.params) (s := takeUp (.display false buf) s)
    (by exact hbuf) (by exact hp)
  exact congrArg Host.Outcome.next (startRequest_done hrun)

/-- A DISPLAY whose byte j is the first outside the window stops at its frame data, after the
channel command and the bytes before it (43 R194, 60 R255). -/
theorem runMicros_displayExpansion_fault {P : Config.Params} {buf : Word} {j : Nat} {s : State}
    (hj : j < 15000) (hin : ∀ i < j, inWindow s (buf.toNat + i) = true)
    (hout : inWindow s (buf.toNat + j) = false) :
    runMicros P (displayExpansion P false buf) s =
      .stopped (recordFault (.fbOutOfRange (buf.toNat + j))
        (emit (sendActions (channelCmd P P.displayChannel) (fbBytes s buf.toNat j))
          (markPv (notListening s) s)))
        (.frame buf.toNat frameBytes :: blockingRefresh P .full) := by
  have hstop := runMicro_frame_fault (P := P) (n := frameBytes)
    (s := emit [.cmd (channelCmd P P.displayChannel)] (markPv (notListening s) s))
    (by exact hj) (by exact hin) (by exact hout)
  rw [runMicros_displayExpansion_opening, runMicros_cons_stop hstop, sendData_eq, emit_emit]
  rfl

/-- Settles O29: the read of the buffer stops at byte j, with the bytes before it sent. -/
theorem displayFaultsOutsideWindow : Obligations.DisplayFaultsOutsideWindow := by
  intro s buf j hfault hj hin hout
  have hrun := runMicros_displayExpansion_fault (P := Config.params)
    (s := takeUp (.display false buf) s) hj (by exact hin) (by exact hout)
  refine ⟨_, congrArg Host.Outcome.next (startRequest_stopped hrun), ?_, rfl, rfl, rfl,
    Seq.noConfusion, rfl, rfl, rfl, rfl, rfl⟩
  simp [hfault]

/-! ### HEALTHY and SHADE -/

/-- The healthy sequence: the QUICK set under its overrides, the counter, the refresh command and no
wait (43 R197). -/
theorem runMicros_healthyExpansion (P : Config.Params) (strong : Bool) (s : State) :
    runMicros P (healthyExpansion P strong) s =
      .done { emit (refreshActions P .quick (healthyOverrides strong))
          (markPv (notListening s) s) with
        wcc := nextWcc (heavyCycleNr P) s.wcc, lastLut := lutTag .quick (healthyOverrides strong)
        maybeBusy := true } := by
  refine (runMicros_append_done (runMicros_sendLut _ _ _) _).trans ?_
  refine (runMicros_cons_go rfl _).trans ((runMicros_cons_go rfl _).trans
    ((runMicros_cons_go rfl _).trans (congrArg RunEnd.done ?_)))
  rw [← commandHazard_outside]
  apply State.ext <;>
    simp [refreshActions, commandHazard, cmdDisplayRefresh, lutClockHazard]

/-- The pass is strong exactly at counter 0 (43 R196). -/
theorem healthyOverrides_strongPass (c : Nat) :
    healthyOverrides (strongPass c) = if c = 0 then .strong else .weak := by
  simp [healthyOverrides, strongPass]

/-- HEALTHY starts from the counter it tests: 0 after `rst`, else the recorded one (43 R197). -/
theorem exec_healthy_eq (rst : Bool) (s : State) {c : Nat} (hc : c = if rst then 0 else s.wcc) :
    exec (.healthy rst) s = .next (startRequest Config.params (.healthy rst)
      (healthyExpansion Config.params (strongPass c)) { s with wcc := c }) := by
  subst hc
  cases rst <;> rfl

/-- Settles O31, by what the healthy sequence leaves from the counter it tests. -/
theorem healthyCompletes : Obligations.HealthyCompletes := by
  intro s rst c hc
  have hrun := runMicros_healthyExpansion Config.params (strongPass c)
    (takeUp (.healthy rst) { s with wcc := c })
  rw [healthyOverrides_strongPass, apply_ite (lutTag .quick)] at hrun
  rw [exec_healthy_eq rst s hc, startRequest_done hrun]
  rfl

/-- SHADE sets PV by its pass as it starts, then by the clock and by its commands (70 R284, R285,
R287, R288, R291). -/
theorem shadePv_eq (pass : Nat) (s : State) :
    (s.pv || notListening s || decide (8 ≤ pass) ||
      decide (¬ (s.mnValid = true ∧ s.m = 5 ∧ s.n = 1))) =
      (s.pv || passHazard pass || (!atShadeClock s || commandHazard false s)) := by
  rw [passHazard_eq, atShadeClock_eq, commandHazard_outside, decide_not]
  ac_rfl

/-- Settles O32, by what the shade sequence leaves from the state its pass has marked. -/
theorem shadeCompletes : Obligations.ShadeCompletes := by
  intro s pass
  have hrun := runMicros_shadeSeq (P := Config.params) pass.toNat
    (takeUp (.shade pass) (markPv (passHazard pass.toNat) s))
  rw [shadePv_eq]
  exact congrArg Host.Outcome.next (startRequest_done hrun)

end Sys2Proof.Machine

/-! ## The weak-cycle counter -/

namespace Sys2Proof.Machine

open Sys2Proof.Safety

/-! ### The counter in its range, and its rotation -/

theorem EndsAs.wcc {ops : List Micro} {u t : State} (h : EndsAs ops u t) : t.wcc = u.wcc := by
  obtain rfl | ⟨todo, -, rfl⟩ := h <;> rfl

/-- Every step keeps the counter in its range, whatever else the state holds (43 R198). -/
theorem step_wcc_lt {s t : State} (hs : s.wcc < heavyCycleNr Config.params)
    (h : step s = .next t) : t.wcc < heavyCycleNr Config.params := by
  obtain ⟨-, ⟨i, k, -, rfl⟩ | ⟨-, ⟨-, rfl⟩ | ⟨w, why, rest, -, rfl⟩ | ⟨i, rest, -, hx⟩⟩⟩ :=
    step_cases h
  · obtain ⟨u, hu, ht⟩ := settle_endsAs Config.params s.todo s
    exact ht.wcc.trans_lt (hu.wcc hs)
  · exact hs
  · exact hs
  · obtain ⟨e, hazard, c, u, -, hc, hu, ht⟩ := exec_endsAs hx
    have hc : c < heavyCycleNr Config.params := by
      obtain rfl | rfl := hc
      · exact hs
      · exact Nat.succ_pos _
    exact ht.wcc.trans_lt (hu.wcc hc)

/-- HEALTHY without rst advances the counter, and is strong exactly when it reads 0 (43 R196,
R197). -/
theorem exec_healthy_wcc_lastLut {s t : State} (h : exec (.healthy false) s = .next t) :
    t.wcc = (s.wcc + 1) % heavyCycleNr Config.params ∧
      t.lastLut = if s.wcc = 0 then .healthyStrong else .healthyWeak := by
  obtain rfl := Host.Outcome.next.inj (h.symm.trans (healthyCompletes s false s.wcc rfl))
  exact ⟨rfl, rfl⟩

/-- After k HEALTHY requests without rst the counter has advanced k times (43 R198). -/
theorem wcc_after_healthy {f : Nat → State} (h0 : (f 0).wcc < heavyCycleNr Config.params)
    (hf : ∀ k, exec (.healthy false) (f k) = .next (f (k + 1))) (k : Nat) :
    (f k).wcc = ((f 0).wcc + k) % heavyCycleNr Config.params := by
  induction k with
  | zero => exact (Nat.mod_eq_of_lt h0).symm
  | succ k ih =>
    rw [(exec_healthy_wcc_lastLut (hf k)).1, ih, Nat.mod_add_mod, Nat.add_assoc]

/-! ### The requests that keep it -/

/-- The operation writes the counter (43 R197). -/
def writesWcc : Micro → Bool
  | .advanceWcc => true
  | .ifUp op => writesWcc op
  | _ => false

/-- An operation that does not write the counter keeps it. -/
theorem runMicro_wcc {P : Config.Params} {op : Micro} (h : writesWcc op = false) (s : State) :
    (microState (runMicro P op s)).wcc = s.wcc := by
  induction op with
  | advanceWcc => exact Bool.noConfusion h
  | resetSeq => rfl
  | storeCoeffs m n => rfl
  | fallAsleep => rfl
  | ifUp op ih =>
    simp only [runMicro]
    split
    · exact ih h
    · rfl
  | _ => exact (runMicro_sameRegs rfl s).wcc

@[simp] theorem writesNoReg_cmd (c : Byte) : writesNoReg (.cmd c) = true := rfl
@[simp] theorem writesNoReg_dat (ds : List Byte) : writesNoReg (.dat ds) = true := rfl
@[simp] theorem writesNoReg_frame (a n : Nat) : writesNoReg (.frame a n) = true := rfl
@[simp] theorem writesNoReg_waitBusy : writesNoReg .waitBusy = true := rfl
@[simp] theorem writesNoReg_markBusy : writesNoReg .markBusy = true := rfl

/-- The counter is one of the registers (43 R197). -/
theorem writesWcc_of_writesNoReg {op : Micro} (h : writesNoReg op = true) :
    writesWcc op = false := by
  induction op with
  | advanceWcc => exact Bool.noConfusion h
  | ifUp op ih => exact ih h
  | _ => rfl

theorem sendLut_writesNoReg {P : Config.Params} (v : Variant) (ov : Overrides) :
    ∀ op ∈ sendLut P v ov, writesNoReg op = true := by
  intro op hop
  obtain rfl | ⟨c, rfl⟩ | ⟨t, rfl⟩ | ⟨t, rfl⟩ := mem_sendLut hop <;> rfl

theorem blockingRefresh_writesNoReg {P : Config.Params} (v : Variant) :
    ∀ op ∈ blockingRefresh P v, writesNoReg op = true :=
  List.forall_mem_append.2 ⟨sendLut_writesNoReg v .none, by simp⟩

theorem winSeq_writesNoReg {P : Config.Params} {data : Micro} {x y w h : Nat} {ch : Channel}
    (hdata : writesNoReg data = true) :
    ∀ op ∈ winSeq P data x y w h ch, writesNoReg op = true := by
  intro op hop
  obtain rfl | ⟨c, rfl⟩ | ⟨ds, rfl⟩ := mem_winSeq hop
  · exact hdata
  · rfl
  · rfl

theorem grayPasses_writesNoReg {P : Config.Params} (buf : Nat) :
    ∀ op ∈ grayPasses P buf, writesNoReg op = true := by
  intro op hop
  obtain ⟨p, o, ho, rfl⟩ := mem_grayPasses hop
  obtain ⟨_, _, rfl⟩ | rfl | ⟨_, rfl⟩ | ⟨_, rfl⟩ | rfl | ⟨_, rfl⟩ | ⟨_, rfl⟩ | rfl | rfl :=
    mem_passSeq ho <;> rfl

/-- No expansion of a request but the lifecycle ones, GRAY and HEALTHY writes a register. -/
theorem expansion_writesNoReg {i : Instr} {e : List Micro} (hi : isLifecycle i = false)
    (hhealthy : ∀ rst, i ≠ .healthy rst) (he : Expansion i e) :
    ∀ op ∈ e, writesNoReg op = true := by
  cases i with
  | init m n => exact Bool.noConfusion hi
  | reset => exact Bool.noConfusion hi
  | sleep => exact Bool.noConfusion hi
  | wake m n => exact Bool.noConfusion hi
  | gray buf => exact Bool.noConfusion hi
  | healthy rst => exact absurd rfl (hhealthy rst)
  | waitIdle => subst he; simp
  | clear => subst he; simp [clearExpansion, fillWhite, send]
  | setWin null ch x y w h buf =>
    subst he
    exact winSeq_writesNoReg (by cases null <;> rfl)
  | display null buf =>
    subst he
    exact List.forall_mem_append.2
      ⟨by cases null <;> simp [displayData], blockingRefresh_writesNoReg .full⟩
  | quick => subst he; exact blockingRefresh_writesNoReg .quick
  | shade pass =>
    subst he
    exact List.forall_mem_append.2 ⟨sendLut_writesNoReg _ _, by simp⟩

theorem initSeq_keepsWcc {P : Config.Params} (m n : Byte) :
    ∀ op ∈ initSeq P m n, writesWcc op = false := by
  simp [initSeq, initBody, initSend, writesWcc]

theorem bracket_keepsWcc {P : Config.Params} (sw : Bool) (m n : Byte) :
    ∀ op ∈ bracket P sw m n, writesWcc op = false := by
  cases sw
  · simp [bracket]
  · exact List.forall_mem_cons.2 ⟨rfl, initSeq_keepsWcc m n⟩

theorem grayExpansion_keepsWcc {P : Config.Params} (buf : Nat) (m n : Byte) :
    ∀ op ∈ grayExpansion P buf m n, writesWcc op = false := by
  have hpasses : ∀ op ∈ grayPasses P buf, writesWcc op = false := fun op hop =>
    writesWcc_of_writesNoReg (grayPasses_writesNoReg buf op hop)
  exact List.forall_mem_append.2
    ⟨List.forall_mem_append.2 ⟨bracket_keepsWcc _ 5 1, hpasses⟩, bracket_keepsWcc _ m n⟩

/-- No expansion of another request than HEALTHY writes the counter (43 R198). -/
theorem expansion_keepsWcc {i : Instr} {e : List Micro} (hi : ∀ rst, i ≠ .healthy rst)
    (he : Expansion i e) : ∀ op ∈ e, writesWcc op = false := by
  cases hl : isLifecycle i with
  | false => exact fun op hop => writesWcc_of_writesNoReg (expansion_writesNoReg hl hi he op hop)
  | true =>
    cases i with
    | init m n => subst he; exact initSeq_keepsWcc m n
    | reset => subst he; simp [writesWcc]
    | sleep => subst he; simp [sleepExpansion, send, writesWcc]
    | wake m n => subst he; exact bracket_keepsWcc true m n
    | gray buf =>
      obtain ⟨m, n, rfl⟩ := he
      exact grayExpansion_keepsWcc buf.toNat m n
    | _ => exact Bool.noConfusion hl

/-- In every state of the execution of another request than HEALTHY the counter is as it was, a
GRAY that faults as it is taken included (43 R198). -/
theorem runs_wcc {i : Instr} {s t : State} (hi : ∀ rst, i ≠ .healthy rst) (h : Runs i s t) :
    t.wcc = s.wcc := by
  obtain ⟨e, hazard, c, he, -, hc, hx⟩ | ⟨buf, rfl, -, hx⟩ := exec_cases i s
  · have T : Triple Config.params (·.wcc = s.wcc) e (·.wcc = s.wcc) (·.wcc = s.wcc) :=
      Triple.keep (fun _ _ _ _ _ hu => hu) fun op hop u hu =>
        (runMicro_wcc (expansion_keepsWcc hi he op hop) u).trans hu
    obtain ⟨-, ht⟩ | ⟨u, hu, -, rfl⟩ := T.runs hx (hc hi) h
    · exact ht
    · exact hu
  · obtain ⟨ps, is, ws, rfl⟩ := runs_faulted hx (recordFault_ne _ _) h
    rfl

/-- Settles O57: the range by the step, the rotation along the HEALTHY requests, and the counter
kept by every other request. -/
theorem weakCycleCounterRotates : Obligations.WeakCycleCounterRotates := by
  refine ⟨Nat.succ_pos _, fun s t hs h => step_wcc_lt hs h, fun f h0 hf k => ?_,
    fun i s t hi h => runs_wcc hi h⟩
  have hwcc := wcc_after_healthy h0 hf k
  exact ⟨hwcc, hwcc ▸ (exec_healthy_wcc_lastLut (hf k)).2⟩

end Sys2Proof.Machine

/-! ## Grayscale, with the answers listed that it asks for -/

namespace Sys2Proof.Machine

open Sys2Proof.Safety

/-! ### Thresholds and packing -/

/-- A last bit is the number's lowest. -/
theorem bitsToNat_append_singleton (bs : List Bool) (b : Bool) :
    bitsToNat (bs ++ [b]) = Nat.bit b (bitsToNat bs) := by
  rw [bitsToNat, List.foldl_append, Nat.bit_val]
  rfl

/-- The bits of the number are those of the list, counted from its end. -/
theorem testBit_bitsToNat (bs : List Bool) (j : Nat) :
    (bitsToNat bs).testBit j = (bs.reverse[j]?).getD false := by
  induction bs using List.reverseRecOn generalizing j with
  | nil => simp [bitsToNat]
  | append_singleton bs b ih =>
    rw [bitsToNat_append_singleton, List.reverse_append, List.reverse_singleton]
    cases j with
    | zero => exact Nat.testBit_bit_zero b _
    | succ j => exact Nat.testBit_bit_succ j b _ |>.trans (ih j)

/-- Bit 7 - i of the packed byte compares sample i with the threshold (44 R222). -/
theorem pack8_getLsbD {t : Nat} {samples : List Byte} (hlen : samples.length = 8) {i : Nat}
    (hi : i < samples.length) :
    (pack8 t samples).getLsbD (7 - i) = decide (samples[i].toNat < t) := by
  have hrev : 7 - i < samples.length := by omega
  have hidx : samples.length - 1 - (7 - i) = i := by omega
  rw [pack8, BitVec.getLsbD_ofNat, testBit_bitsToNat, List.getElem?_reverse (by simpa using hrev)]
  simp [hidx, hi, show 7 - i < 8 by omega]

/-- Settles O46, by the bits of the number that the comparisons write. -/
theorem packedBitIsSampleBelowThreshold : Obligations.PackedBitIsSampleBelowThreshold :=
  ⟨fun _ _ _ hi hlen => pack8_getLsbD hlen hi, by decide⟩

/-- No sample is below the threshold 0, so the group packs to an all black byte (44 R221). -/
theorem pack8_zero {samples : List Byte} (hlen : samples.length = 8) : pack8 0 samples = 0 := by
  apply BitVec.eq_of_getLsbD_eq
  intro k hk
  have hbit := pack8_getLsbD (t := 0) hlen (i := 7 - k) (by omega)
  rw [show 7 - (7 - k) = k by omega] at hbit
  simp [hbit]

/-- Settles O45: the last pass's threshold is 0. -/
theorem thresholdsOfThePasses : Obligations.ThresholdsOfThePasses :=
  ⟨fun _ => rfl, by decide, fun _ hlen => pack8_zero hlen⟩

/-! ### Taking a GRAY -/

/-- GRAY with unset coefficients faults before any action (44 R220, 60 R255). -/
theorem exec_gray_unset {s : State} (buf : Word) (h : s.mnValid = false) :
    exec (.gray buf) s = .next (faultAtStart .unsetCoefficients (.gray buf) s) := by
  simp [exec, execGray, runGray, readCoeffs, h]

/-- GRAY with set coefficients starts the expansion that restores them (44 R220). -/
theorem exec_gray_set {s : State} (buf : Word) (h : s.mnValid = true) :
    exec (.gray buf) s = .next
      (startRequest Config.params (.gray buf) (grayExpansion Config.params buf.toNat s.m s.n) s) :=
  congrArg Host.Outcome.next (runGray_eq h)

/-- GRAY at the shade clock starts the passes alone (44 R220). -/
theorem exec_gray_atShadeClock {s : State} (buf : Word) (h : s.mnValid = true) (hm : s.m = 5)
    (hn : s.n = 1) :
    exec (.gray buf) s = .next
      (startRequest Config.params (.gray buf) (grayPasses Config.params buf.toNat) s) := by
  rw [exec_gray_set buf h, hm, hn, grayExpansion_atShadeClock]

theorem atShadeClock_intro {s : State} (h : s.mnValid = true) (hm : s.m = 5) (hn : s.n = 1) :
    atShadeClock s = true := by
  simp [atShadeClock, h, hm, hn]

/-- A first fault is the one recorded (10 R43). -/
theorem recordFault_first {s : State} (r : Fault) (h : s.fault = none) :
    recordFault r s = { s with fault := some r } := by
  simp [recordFault, h]

/-- Settles O37, by the fault it records before it starts. -/
theorem grayFaultsOnUnsetCoefficients : Obligations.GrayFaultsOnUnsetCoefficients := by
  intro s buf hv hfault
  rw [exec_gray_unset buf hv, faultAtStart, recordFault_first _ (by exact hfault)]
  rfl

/-! ### GRAY with all its answers listed -/

@[simp] theorem passesActions_takeUp (P : Config.Params) (i : Instr) (s : State) (buf p : Nat)
    (qs : List Nat) : passesActions P (takeUp i s) buf p qs = passesActions P s buf p qs :=
  passesActions_congr (takeUp_fb i s) buf p qs

@[simp] theorem rowsActions_takeUp (P : Config.Params) (i : Instr) (s : State) (buf p k : Nat) :
    rowsActions P (takeUp i s) buf p k = rowsActions P s buf p k :=
  rowsActions_congr (takeUp_fb i s) buf p k

/-- Settles O33, by what the passes leave; their commands are a hazard together. -/
theorem grayAtShadeClockCompletes : Obligations.GrayAtShadeClockCompletes := by
  intro s buf qs ps hv hm hn hbuf hlen hp
  obtain ⟨r, hrun⟩ := runMicros_grayPasses (P := Config.params) (s := takeUp (.gray buf) s)
    (by exact hbuf) hlen (by exact hp) (atShadeClock_intro hv hm hn) rfl
  rw [commandHazard_outside, passesActions_takeUp] at hrun
  exact ⟨r, (exec_gray_atShadeClock buf hv hm hn).trans
    (congrArg Host.Outcome.next (startRequest_done hrun))⟩

/-- The state after one side of the bracket whose Init succeeds (44 R220). -/
def bracketed (P : Config.Params) (m n : Byte) (q : Nat) (is ps : List Bool) (s : State) : State :=
  { emit (resetActions ++ initActions P m n q) s with
    m := m, n := n, mnValid := true, life := .active, lastLut := .none, maybeBusy := false
    initIn := is, busOk := true, pollIn := ps }

theorem bracketed_fb (P : Config.Params) (m n : Byte) (q : Nat) (is ps : List Bool) (s : State) :
    (bracketed P m n q is ps s).fb = s.fb := rfl

/-- No command after the bracket's first side is a hazard (44 R227, 70 R284, R285, R288). -/
theorem commandHazard_bracketed (P : Config.Params) (inInit : Bool) (m n : Byte) (q : Nat)
    (is ps : List Bool) (s : State) :
    commandHazard inInit (bracketed P m n q is ps s) = false := rfl

/-- The passes after the bracket's first side set no PV (44 R220, R227). -/
theorem runMicros_grayPasses_bracketed {P : Config.Params} {buf q : Nat} {qs : List Nat}
    {is ps : List Bool} {s : State} (hbuf : Readable s buf 120000)
    (hlen : qs.length = passCount P) :
    ∃ r, runMicros P (grayPasses P buf) (bracketed P 5 1 q is (pollsOf qs ++ ps) s) =
      .done { emit (passesActions P s buf 0 qs) (bracketed P 5 1 q is (pollsOf qs ++ ps) s) with
        scratch := r, lastLut := .shade, maybeBusy := false, pollIn := ps } := by
  obtain ⟨r, hrun⟩ := runMicros_grayPasses (P := P)
    (s := bracketed P 5 1 q is (pollsOf qs ++ ps) s) (by exact hbuf) hlen rfl rfl rfl
  rw [commandHazard_bracketed, markPv_false, passesActions_congr (bracketed_fb _ _ _ _ _ _ s)]
    at hrun
  exact ⟨r, hrun⟩

/-- GRAY at other coefficients completes where its three parts end (44 R220). -/
theorem exec_gray_elsewhere {s a b c : State} {buf : Word} (hv : s.mnValid = true)
    (hmn : ¬ (s.m = 5 ∧ s.n = 1))
    (h1 : runMicros Config.params (bracket Config.params true 5 1) (takeUp (.gray buf) s) = .done a)
    (h2 : runMicros Config.params (grayPasses Config.params buf.toNat) a = .done b)
    (h3 : runMicros Config.params (bracket Config.params true s.m s.n) b = .done c) :
    exec (.gray buf) s = .next (complete c) :=
  (exec_gray_set buf hv).trans
    (congrArg Host.Outcome.next (startRequest_done (runMicros_grayExpansion hmn h1 h2 h3)))

/-- Settles O34, by what its three parts leave. -/
theorem grayBracketCompletes : Obligations.GrayBracketCompletes := by
  intro s buf q1 q2 qs is ps hv hmn hbuf hlen hp hi
  obtain ⟨r, hpasses⟩ := runMicros_grayPasses_bracketed (P := Config.params) (q := q1)
    (is := true :: is) (s := takeUp (.gray buf) s) (by exact hbuf) hlen
  refine ⟨r, (exec_gray_elsewhere hv hmn (runMicros_bracket (by exact hi) (by exact hp)) hpasses
    (runMicros_bracket rfl rfl)).trans (congrArg Host.Outcome.next ?_)⟩
  apply State.ext <;> simp [finished, bracketed, hv, completionStatus, statusOk]

/-- Settles O35: the passes are skipped, and the restoring Init runs all the same. -/
theorem grayRestoresAfterFailedInit : Obligations.GrayRestoresAfterFailedInit := by
  refine ⟨fun s buf q is ps hv hmn hi hp => ?_, fun s buf is hv hmn hi => ?_⟩
  · refine (exec_gray_elsewhere hv hmn (runMicros_bracket_fail (by exact hi))
      (runMicros_grayPasses_down rfl) (runMicros_bracket rfl (by exact hp))).trans
      (congrArg Host.Outcome.next ?_)
    apply State.ext <;> simp [finished, hv, completionStatus, statusInitError]
  · refine (exec_gray_elsewhere hv hmn (runMicros_bracket_fail (by exact hi))
      (runMicros_grayPasses_down rfl) (runMicros_bracket_fail rfl)).trans
      (congrArg Host.Outcome.next ?_)
    apply State.ext <;> simp [finished, completionStatus, statusInitError]

/-- Settles O36: the restoring Init stores nothing over (5, 1). -/
theorem grayFailedRestoreLeavesShadeClock : Obligations.GrayFailedRestoreLeavesShadeClock := by
  intro s buf q qs is ps hv hmn hbuf hlen hp hi
  obtain ⟨r, hpasses⟩ := runMicros_grayPasses_bracketed (P := Config.params) (q := q)
    (is := false :: is) (s := takeUp (.gray buf) s) (by exact hbuf) hlen
  refine ⟨r, (exec_gray_elsewhere hv hmn (runMicros_bracket (by exact hi) (by exact hp)) hpasses
    (runMicros_bracket_fail rfl)).trans (congrArg Host.Outcome.next ?_)⟩
  apply State.ext <;> simp [finished, bracketed, hv, completionStatus, statusInitError]

/-! ### GRAY of a source that leaves the window -/

theorem runMicros_append_stopped {P : Config.Params} {xs todo : List Micro} {s s' : State}
    (h : runMicros P xs s = .stopped s' todo) (ys : List Micro) :
    runMicros P (xs ++ ys) s = .stopped s' (todo ++ ys) := by
  rw [runMicros_append, h]

@[simp] theorem notListening_takeUp (i : Instr) (s : State) :
    notListening (takeUp i s) = notListening s := rfl

/-- GRAY at other coefficients stops where its passes stop, with no restore (60 R254). -/
theorem exec_gray_elsewhere_stopped {s a b : State} {buf : Word} {todo : List Micro}
    (hv : s.mnValid = true) (hmn : ¬ (s.m = 5 ∧ s.n = 1))
    (h1 : runMicros Config.params (bracket Config.params true 5 1) (takeUp (.gray buf) s) = .done a)
    (h2 : runMicros Config.params (grayPasses Config.params buf.toNat) a = .stopped b todo) :
    ∃ left, exec (.gray buf) s = .next { b with todo := left } := by
  have hpasses := (runMicros_append_done h1 (grayPasses Config.params buf.toNat)).trans h2
  have hexp := runMicros_append_stopped hpasses (bracket Config.params true s.m s.n)
  rw [← grayExpansion_elsewhere hmn] at hexp
  exact ⟨_, (exec_gray_set buf hv).trans (congrArg Host.Outcome.next (startRequest_stopped hexp))⟩

/-- Settles O38: the first pass stops at the row of sample j, after the bracket's first side or with
no bracket. -/
theorem grayFaultsOutsideWindow : Obligations.GrayFaultsOutsideWindow := by
  intro s buf j hv hfault hj hin hout
  refine ⟨fun hm hn => ?_, fun hmn q is ps hi hp => ?_⟩
  · obtain ⟨r, todo, hrun⟩ := runMicros_grayPasses_fault (P := Config.params)
      (s := takeUp (.gray buf) s) hj (by exact hin) (by exact hout) rfl
    rw [recordFault_first _ (by exact hfault)] at hrun
    refine ⟨r, todo, (exec_gray_atShadeClock buf hv hm hn).trans
      (congrArg Host.Outcome.next ((startRequest_stopped hrun).trans ?_))⟩
    apply State.ext <;> simp [commandHazard_outside]
  · obtain ⟨r, todo, hrun⟩ := runMicros_grayPasses_fault (P := Config.params)
      (s := bracketed Config.params 5 1 q is ps (takeUp (.gray buf) s)) hj
      (by exact hin) (by exact hout) rfl
    rw [recordFault_first _ (by exact hfault), commandHazard_bracketed, Bool.and_false,
      markPv_false, rowsActions_congr (bracketed_fb _ _ _ _ _ _ _), rowsActions_takeUp] at hrun
    obtain ⟨left, hexec⟩ := exec_gray_elsewhere_stopped hv hmn
      (runMicros_bracket (by exact hi) (by exact hp)) hrun
    refine ⟨r, left, hexec.trans (congrArg Host.Outcome.next ?_)⟩
    apply State.ext <;> simp [bracketed, hv, Nat.add_assoc]

end Sys2Proof.Machine

/-! ## Grayscale, whatever is answered and however often it is held -/

namespace Sys2Proof.Machine

open Sys2Proof.Safety

/-! ### What an operation does to PV and MAYBE_BUSY -/

/-- Reads send some bytes, and then are done or record a fault (20 R75, 60 R255). -/
theorem sendReads_cases (rs : List (Except Fault Byte)) (s : State) :
    ∃ ds, sendReads rs s = .go (sendData ds s) ∨
      ∃ r, sendReads rs s = .stop (recordFault r (sendData ds s)) := by
  induction rs generalizing s with
  | nil => exact ⟨[], .inl (by simp [sendReads, sendData_eq])⟩
  | cons r rs ih =>
    cases r with
    | ok b =>
      obtain ⟨ds, h⟩ := ih (sendData [b] s)
      exact ⟨b :: ds, by simpa [sendReads, sendData_eq] using h⟩
    | error r => exact ⟨[], .inr ⟨r, by simp [sendReads, sendData_eq]⟩⟩

/-- Packing writes the scratch row alone, and then is done or records a fault (44 R223). -/
theorem packGroups_cases (a t : Nat) (gs : List Nat) (s : State) :
    ∃ v, packGroups a t gs s = .go { s with scratch := v } ∨
      ∃ r, packGroups a t gs s = .stop (recordFault r { s with scratch := v }) := by
  induction gs generalizing s with
  | nil => exact ⟨s.scratch, .inl rfl⟩
  | cons g gs ih =>
    simp only [packGroups]
    cases groupSamples s a g with
    | ok samples => exact ih _
    | error r => exact ⟨s.scratch, .inr ⟨r, rfl⟩⟩

/-- A WaitBusy polls, and then the panel is idle or it holds (40 R134). -/
theorem waitBusy_cases (polls : List Bool) (s : State) :
    ∃ acts left draws,
      waitBusy polls s =
        .go (panelIdle (emit acts { s with pollIn := left, pollDraws := draws })) ∨
      waitBusy polls s = .hold (emit acts { s with pollIn := left, pollDraws := draws }) := by
  obtain ⟨q, ps, rfl⟩ | ⟨q, rfl⟩ := polls_cases polls
  · exact ⟨_, _, _, .inl (by simpa [pollsOf] using waitBusy_listed q ps s)⟩
  · rw [waitBusy_unlisted]
    split
    · exact ⟨_, _, _, .inr rfl⟩
    · exact ⟨_, _, _, .inl rfl⟩

/-- The operation sets PV in this state (70 R284, R285, R287, R288). -/
def setsPv : Micro → State → Bool
  | .cmd _, s => commandHazard false s
  | .initCmd _, s => commandHazard true s
  | .shadeClock, s => !atShadeClock s
  | .ifUp op, s => s.busOk && setsPv op s
  | _, _ => false

/-- The operation writes MAYBE_BUSY (10 R41). -/
def writesBusy : Micro → Bool
  | .waitBusy => true
  | .resetSeq => true
  | .markBusy => true
  | .ifUp op => writesBusy op
  | _ => false

variable {P : Config.Params}

/-- An operation marks PV by its own condition and by nothing else (10 R40). -/
theorem runMicro_pv (op : Micro) (s : State) :
    (microState (runMicro P op s)).pv = (s.pv || setsPv op s) := by
  have hreads : ∀ rs, (microState (sendReads rs s)).pv = (s.pv || false) := fun rs => by
    obtain ⟨ds, h | ⟨r, h⟩⟩ := sendReads_cases rs s <;> simp [h]
  induction op with
  | frame a n => exact hreads _
  | lut v t ov => exact hreads _
  | pack a t =>
    obtain ⟨v, h | ⟨r, h⟩⟩ := packGroups_cases a t (List.range (width / 8)) s <;>
      simp [runMicro, h, setsPv]
  | waitBusy =>
    obtain ⟨acts, left, draws, h | h⟩ := waitBusy_cases s.pollIn s <;> simp [runMicro, h, setsPv]
  | ifUp op ih => cases hb : s.busOk <;> simp [runMicro, hb, setsPv, ih]
  | _ => simp [runMicro, setsPv]

/-- An operation that does not write MAYBE_BUSY keeps it. -/
theorem runMicro_maybeBusy {op : Micro} (h : writesBusy op = false) (s : State) :
    (microState (runMicro P op s)).maybeBusy = s.maybeBusy := by
  have hreads : ∀ rs, (microState (sendReads rs s)).maybeBusy = s.maybeBusy := fun rs => by
    obtain ⟨ds, h | ⟨r, h⟩⟩ := sendReads_cases rs s <;> simp [h]
  induction op with
  | waitBusy => exact Bool.noConfusion h
  | resetSeq => exact Bool.noConfusion h
  | markBusy => exact Bool.noConfusion h
  | frame a n => exact hreads _
  | lut v t ov => exact hreads _
  | pack a t =>
    obtain ⟨v, h | ⟨r, h⟩⟩ := packGroups_cases a t (List.range (width / 8)) s <;>
      simp [runMicro, h]
  | ifUp op ih => cases hb : s.busOk <;> simp [runMicro, hb, ih h]
  | _ => simp [runMicro]

/-! ### An Init sub-sequence, whatever is answered -/

theorem Triple.throughout {p q r r' : State → Prop} {ops : List Micro} (h : Triple P p ops q r)
    (hr : ∀ s, r s → r' s) : Triple P p ops q r' :=
  h.weaken (fun _ h => h) (fun _ h => h) hr

/-- An Init sub-sequence has stored this pair (10 R51, 41 R150). -/
structure Stored (m n : Byte) (s : State) : Prop where
  m : s.m = m
  n : s.n = n
  mnValid : s.mnValid = true
  life : s.life = .active ∨ s.life = .asleep

theorem Stored.sameRegs {m n : Byte} {s t : State} (h : Stored m n s) (k : SameRegs s t) :
    Stored m n t :=
  ⟨k.m.trans h.m, k.n.trans h.n, k.mnValid.trans h.mnValid, k.life ▸ h.life⟩

theorem stored_storeCoeffsOp (m n : Byte) (s : State) : Stored m n (storeCoeffsOp m n s) :=
  ⟨rfl, rfl, rfl, by rw [storeCoeffsOp_life, lifeAfterInit_eq]; split <;> simp⟩

/-- If the request's last BUSINIT answered ok, the Init sub-sequence has stored this pair. -/
def StoredIfOk (m n : Byte) (s : State) : Prop := s.busOk = true → Stored m n s

theorem open_storedIfOk (m n : Byte) : Open (StoredIfOk m n) := fun _ _ _ _ _ h hok =>
  (h hok).sameRegs ⟨rfl, rfl, rfl, rfl, rfl⟩

theorem Open.and {p q : State → Prop} (hp : Open p) (hq : Open q) : Open fun s => p s ∧ q s :=
  fun _ _ _ _ _ h => ⟨hp _ _ _ _ _ h.1, hq _ _ _ _ _ h.2⟩

/-- A condition that its operations keep is kept throughout an Init sub-sequence, and one whose
BUSINIT answered ok ends with the pair stored (41 R150). -/
theorem Triple.initSeq {p : State → Prop} (m n : Byte) (ho : Open p)
    (hkeep : ∀ op ∈ .busInit :: initBody P m n, ∀ s, p s → p (microState (runMicro P op s))) :
    Triple P p (initSeq P m n) (fun s => p s ∧ StoredIfOk m n s) p := by
  obtain ⟨hbus, hbody⟩ := List.forall_mem_cons.1 hkeep
  obtain ⟨hpre, hstore⟩ := List.forall_mem_append.1 hbody
  have hend : Triple P p [.storeCoeffs m n] (fun s => p s ∧ StoredIfOk m n s) p :=
    (Triple.one (op := .storeCoeffs m n) ho (ho.and (open_storedIfOk m n)) fun s hs =>
      ⟨hstore _ (List.mem_singleton_self _) s hs, fun _ => stored_storeCoeffsOp m n s⟩).throughout
      fun _ h => h.elim id And.left
  have hguarded : Triple P p (initBody P m n) (fun s => p s ∧ StoredIfOk m n s) p :=
    Triple.append (Triple.keep ho hpre) hend
  refine Triple.append (xs := [.busInit]) (Triple.keep ho (List.forall_mem_singleton.2 hbus)) ?_
  exact Triple.ifUp (initBody_asksNoBus m n) ho
    (hguarded.weaken (fun _ h => h.1) (fun _ h => h) fun _ h => h)
    fun s hs hb => ⟨⟨hs, fun h => Bool.noConfusion (hb.symm.trans h)⟩, hs⟩

/-! ### The coefficients of a GRAY that completes -/

/-- While no BUSINIT of the request has failed, its last one has not. -/
def LastAnswerOk (s : State) : Prop := s.reqOk = true → s.busOk = true

theorem runMicro_lastAnswerOk (op : Micro) (s : State) (hs : LastAnswerOk s) :
    LastAnswerOk (microState (runMicro P op s)) := by
  refine (runMicro_updates P op s).keep (fun u v huv hu => ?_) hs
  cases huv with
  | busAnswered ok left draws => exact fun h => (Bool.and_eq_true_iff.1 h).2
  | _ => exact hu

theorem open_lastAnswerOk : Open LastAnswerOk := fun _ _ _ _ _ h => h

/-- A GRAY at other coefficients that fails no BUSINIT has stored the recorded pair at its end (44
R225). -/
theorem grayExpansion_restores {buf : Nat} {m n : Byte} (h : ¬ (m = 5 ∧ n = 1)) :
    Triple P LastAnswerOk (grayExpansion P buf m n) (fun s => s.reqOk = true → Stored m n s)
      LastAnswerOk := by
  have hkeep : ∀ ops, Triple P LastAnswerOk ops LastAnswerOk LastAnswerOk := fun _ =>
    Triple.keep open_lastAnswerOk fun op _ s hs => runMicro_lastAnswerOk op s hs
  have hinit := Triple.initSeq (P := P) m n open_lastAnswerOk fun op _ s hs =>
    runMicro_lastAnswerOk op s hs
  rw [grayExpansion_elsewhere h]
  exact (hkeep _).append ((hkeep [.resetSeq]).append (hinit.weaken (fun _ h => h)
    (fun _ ⟨hlast, hstored⟩ hok => hstored (hlast hok)) fun _ h => h))

/-- A completed request that returned OK has failed no BUSINIT (60 R250, R252). -/
theorem ok_of_completionStatus {ok : Bool} (h : completionStatus ok = 0x00) : ok = true := by
  cases ok
  · exact absurd h (by decide)
  · rfl

/-- A GRAY that completes with status 0x00 leaves the pair it found: at (5, 1) no operation writes a
register, elsewhere the second Init has stored the pair, and with unset coefficients none completes
(44 R225). -/
theorem runs_gray_coeffs {s t : State} {buf : Word} (hruns : Runs (.gray buf) s t)
    (hidle : t.seq = .idle) (hstatus : t.status = 0x00) :
    t.m = s.m ∧ t.n = s.n ∧ t.mnValid = true := by
  cases hv : s.mnValid
  · obtain ⟨ps, is, ws, rfl⟩ := runs_faulted (exec_gray_unset buf hv) (recordFault_ne _ _) hruns
    exact Seq.noConfusion hidle
  by_cases hmn : s.m = 5 ∧ s.n = 1
  · obtain ⟨hm, hn⟩ := hmn
    obtain ⟨⟨k, hrun⟩, -⟩ | ⟨u, hu, -, rfl⟩ :=
      (Triple.sameRegs (grayPasses_writesNoReg buf.toNat) s).runs
        (exec_gray_atShadeClock buf hv hm hn) ⟨rfl, rfl, rfl, rfl, rfl⟩ hruns
    · exact Seq.noConfusion (hidle.symm.trans hrun)
    · exact ⟨hu.m, hu.n, hu.mnValid.trans hv⟩
  · obtain ⟨⟨k, hrun⟩, -⟩ | ⟨u, hu, -, rfl⟩ :=
      (grayExpansion_restores hmn).runs (exec_gray_set buf hv) (fun _ => rfl) hruns
    · exact Seq.noConfusion (hidle.symm.trans hrun)
    · have hstored := hu (ok_of_completionStatus hstatus)
      exact ⟨hstored.m, hstored.n, hstored.mnValid⟩

/-- Settles O40, by the pair it leaves; no operation of a GRAY writes the counter. -/
theorem grayRestoresCoefficients : Obligations.GrayRestoresCoefficients := by
  intro s t buf hruns hidle hstatus
  obtain ⟨hm, hn, hv⟩ := runs_gray_coeffs hruns hidle hstatus
  exact ⟨hm, hn, hv, runs_wcc (fun _ => Instr.noConfusion) hruns⟩

/-! ### PV through a bracketed GRAY -/

/-- PV is `b`, and no command of an Init sub-sequence would set it (70 R285, R288). -/
structure Unmarked (b : Bool) (s : State) : Prop where
  pv : s.pv = b
  idle : s.maybeBusy = false
  awake : s.life ≠ .asleep

theorem open_pv (b : Bool) : Open (·.pv = b) := fun _ _ _ _ _ h => h

theorem open_unmarked (b : Bool) : Open (Unmarked b) := fun _ _ _ _ _ h => ⟨h.pv, h.idle, h.awake⟩

/-- What an Init sub-sequence after its BUSINIT is made of (41 R150). -/
theorem forall_mem_initBody {q : Micro → Prop} {m n : Byte} (hcmd : ∀ c, q (.initCmd c))
    (hdat : ∀ ds, q (.dat ds)) (hwait : q .waitBusy) (hstore : q (.storeCoeffs m n)) :
    ∀ op ∈ initBody P m n, q op := by
  simp [initBody, initSend, hcmd, hdat, hwait, hstore]

theorem unmarked_initHazard {b : Bool} {s : State} (h : Unmarked b s) :
    commandHazard true s = false := by
  rw [commandHazard_inside, h.idle]
  simpa using h.awake

/-- An operation that writes neither LIFE nor MAYBE_BUSY, and sets no PV, leaves it so. -/
theorem runMicro_unmarked {b : Bool} {op : Micro} {s : State} (hlife : writesLife op = false)
    (hbusy : writesBusy op = false) (hpv : setsPv op s = false) (h : Unmarked b s) :
    Unmarked b (microState (runMicro P op s)) :=
  ⟨by rw [runMicro_pv, hpv, Bool.or_false, h.pv],
    (runMicro_maybeBusy hbusy s).trans h.idle, by rw [runMicro_life hlife]; exact h.awake⟩

theorem runMicro_waitBusy_unmarked {b : Bool} {s : State} (h : Unmarked b s) :
    Unmarked b (microState (runMicro P .waitBusy s)) := by
  obtain ⟨acts, left, draws, hw | hw⟩ := waitBusy_cases s.pollIn s <;> rw [runMicro, hw]
  · exact ⟨h.pv, rfl, h.awake⟩
  · exact ⟨h.pv, h.idle, h.awake⟩

theorem storeCoeffsOp_unmarked {b : Bool} (m n : Byte) {s : State} (h : Unmarked b s) :
    Unmarked b (storeCoeffsOp m n s) :=
  ⟨h.pv, h.idle, by simp [lifeAfterInit_eq, h.awake]⟩

/-- No operation of an Init sub-sequence sets PV on a panel that is idle and awake (70 R285,
R288). -/
theorem runMicro_initSeq_unmarked (b : Bool) (m n : Byte) :
    ∀ op ∈ .busInit :: initBody P m n, ∀ s, Unmarked b s →
      Unmarked b (microState (runMicro P op s)) :=
  List.forall_mem_cons.2 ⟨fun _ h => runMicro_unmarked rfl rfl rfl h, forall_mem_initBody
    (fun _ _ h => runMicro_unmarked rfl rfl (unmarked_initHazard h) h)
    (fun _ _ h => runMicro_unmarked rfl rfl rfl h) (fun _ h => runMicro_waitBusy_unmarked h)
    (fun _ h => storeCoeffsOp_unmarked m n h)⟩

/-- One side of the bracket sets no PV: its reset makes the panel listen to an Init (70 R284, R285,
R288). -/
theorem bracket_unmarked (b : Bool) (m n : Byte) :
    Triple P (·.pv = b) (bracket P true m n)
      (fun s => Unmarked b s ∧ StoredIfOk m n s) (·.pv = b) := by
  have hreset : Triple P (·.pv = b) [.resetSeq] (Unmarked b) (·.pv = b) :=
    (Triple.one (op := .resetSeq) (open_pv b) (open_unmarked b) fun s hs =>
      ⟨hs, rfl, Life.noConfusion⟩).throughout fun _ h => h.elim id Unmarked.pv
  exact hreset.append ((Triple.initSeq m n (open_unmarked b)
    (runMicro_initSeq_unmarked b m n)).throughout fun _ => Unmarked.pv)

/-- PV is `b`, and no command and no shade LUT would set it (70 R284 to R288). -/
structure Ready (b : Bool) (s : State) : Prop where
  unmarked : Unmarked b s
  stored : Stored 5 1 s

theorem Ready.sameRegs {b : Bool} {s t : State} (h : Ready b s) (k : SameRegs s t) (hpv : t.pv = b)
    (hidle : t.maybeBusy = false) : Ready b t :=
  ⟨⟨hpv, hidle, by rw [k.life]; exact h.unmarked.awake⟩, h.stored.sameRegs k⟩

theorem open_ready (b : Bool) : Open (Ready b) := fun _ _ _ _ _ h =>
  h.sameRegs ⟨rfl, rfl, rfl, rfl, rfl⟩ h.unmarked.pv h.unmarked.idle

/-- It will be ready once the panel is idle. -/
def ReadyOnceIdle (b : Bool) (s : State) : Prop := Ready b (panelIdle s)

theorem open_readyOnceIdle (b : Bool) : Open (ReadyOnceIdle b) := fun _ _ _ _ _ h =>
  h.sameRegs ⟨rfl, rfl, rfl, rfl, rfl⟩ h.unmarked.pv rfl

/-- The operations of a pass up to its refresh command (44 R224). -/
def passOpening (P : Config.Params) (buf p : Nat) : List Micro :=
  (List.range height).flatMap (grayRow P buf p) ++ sendLut P .shade (.shade p) ++
    [.cmd cmdDisplayRefresh]

theorem passSeq_eq (buf p : Nat) :
    passSeq P buf p = passOpening P buf p ++ ([.markBusy] ++ [.waitBusy]) := by
  simp [passSeq, shadeSeq, passOpening]

theorem mem_grayRow {buf p y : Nat} {op : Micro} (h : op ∈ grayRow P buf p y) :
    (∃ a t, op = .pack a t) ∨ op = .row ∨ (∃ c, op = .cmd c) ∨ ∃ ds, op = .dat ds := by
  obtain rfl | h := List.mem_cons.1 h
  · exact .inl ⟨_, _, rfl⟩
  · exact .inr (mem_winSeq h)

theorem ready_cmdHazard {b : Bool} {s : State} (h : Ready b s) :
    commandHazard false s = false := by
  have hlife := h.stored.life.resolve_right h.unmarked.awake
  simp [commandHazard, h.unmarked.idle, hlife]

theorem ready_atShadeClock {b : Bool} {s : State} (h : Ready b s) : atShadeClock s = true :=
  atShadeClock_intro h.stored.mnValid h.stored.m h.stored.n

/-- An operation that writes no register and not MAYBE_BUSY, and sets no PV, leaves all ready. -/
theorem runMicro_ready {b : Bool} {op : Micro} {s : State} (hregs : writesNoReg op = true)
    (hbusy : writesBusy op = false) (hpv : setsPv op s = false) (h : Ready b s) :
    Ready b (microState (runMicro P op s)) :=
  h.sameRegs (runMicro_sameRegs hregs s) (by rw [runMicro_pv, hpv, Bool.or_false, h.unmarked.pv])
    ((runMicro_maybeBusy hbusy s).trans h.unmarked.idle)

/-- No operation of a pass up to its refresh command sets PV (44 R227). -/
theorem runMicro_passOpening_ready {b : Bool} {buf p : Nat} {op : Micro}
    (hop : op ∈ passOpening P buf p) {s : State} (h : Ready b s) :
    Ready b (microState (runMicro P op s)) := by
  have hcmd : ∀ c, Ready b (microState (runMicro P (.cmd c) s)) := fun _ =>
    runMicro_ready rfl rfl (ready_cmdHazard h) h
  obtain hop | hop := List.mem_append.1 hop
  · obtain hop | hop := List.mem_append.1 hop
    · obtain ⟨y, -, hop⟩ := List.mem_flatMap.1 hop
      obtain ⟨a, t, rfl⟩ | rfl | ⟨c, rfl⟩ | ⟨ds, rfl⟩ := mem_grayRow hop
      · exact runMicro_ready rfl rfl rfl h
      · exact runMicro_ready rfl rfl rfl h
      · exact hcmd c
      · exact runMicro_ready rfl rfl rfl h
    · obtain rfl | ⟨c, rfl⟩ | ⟨t, rfl⟩ | ⟨t, rfl⟩ := mem_sendLut hop
      · exact runMicro_ready rfl rfl (by simp [setsPv, ready_atShadeClock h]) h
      · exact hcmd c
      · exact runMicro_ready rfl rfl rfl h
      · exact runMicro_ready rfl rfl rfl h
  · obtain rfl := List.mem_singleton.1 hop
    exact hcmd _

theorem markBusy_ready (b : Bool) :
    Triple P (Ready b) [.markBusy] (ReadyOnceIdle b) (·.pv = b) :=
  (Triple.one (op := .markBusy) (open_ready b) (open_readyOnceIdle b) fun _ hs =>
    hs.sameRegs ⟨rfl, rfl, rfl, rfl, rfl⟩ hs.unmarked.pv rfl).throughout
    fun _ h => h.elim (·.unmarked.pv) (·.unmarked.pv)

/-- A wait for the panel sets no PV, and once it is done MAYBE_BUSY is 0 (40 R134). -/
theorem waitBusy_ready (b : Bool) :
    Triple P (ReadyOnceIdle b) [.waitBusy] (Ready b) (·.pv = b) := by
  refine (Triple.one (op := .waitBusy) (open_readyOnceIdle b) (open_ready b)
    fun s hs => ?_).throughout fun _ h => h.elim (·.unmarked.pv) (·.unmarked.pv)
  obtain ⟨acts, left, draws, hw | hw⟩ := waitBusy_cases s.pollIn s <;> rw [runMicro, hw]
  · exact hs.sameRegs ⟨rfl, rfl, rfl, rfl, rfl⟩ hs.unmarked.pv rfl
  · exact hs.sameRegs ⟨rfl, rfl, rfl, rfl, rfl⟩ hs.unmarked.pv rfl

theorem passSeq_ready (b : Bool) (buf p : Nat) :
    Triple P (Ready b) (passSeq P buf p) (Ready b) (·.pv = b) := by
  rw [passSeq_eq]
  have hopening := Triple.keep (open_ready b) fun _ hop _ hs =>
    runMicro_passOpening_ready (P := P) (buf := buf) (p := p) hop hs
  exact (hopening.throughout fun _ h => h.unmarked.pv).append
    ((markBusy_ready b).append (waitBusy_ready b))

/-- The passes set no PV: they run after an ok Init(5, 1), or not at all (44 R227). -/
theorem grayPasses_unmarked (b : Bool) (buf : Nat) :
    Triple P (fun s => Unmarked b s ∧ StoredIfOk 5 1 s) (grayPasses P buf)
      (·.pv = b) (·.pv = b) := by
  have hpasses : Triple P (Ready b) ((List.range (passCount P)).flatMap (passSeq P buf)) (Ready b)
      (·.pv = b) :=
    Triple.flatMap _ _ (open_ready b) (fun _ h => h.unmarked.pv) fun p _ => passSeq_ready b buf p
  refine Triple.ifUp (fun op hop => ?_) ((open_unmarked b).and (open_storedIfOk 5 1))
    (hpasses.weaken (fun _ ⟨⟨hu, hs⟩, hok⟩ => ⟨hu, hs hok⟩) (fun _ h => h.unmarked.pv) fun _ h => h)
    fun _ ⟨hu, _⟩ _ => ⟨hu.pv, hu.pv⟩
  obtain ⟨p, -, hp⟩ := List.mem_flatMap.1 hop
  exact passSeq_asksNoBus buf p op hp

/-- Settles O39: no part of the bracketed expansion sets PV, wherever it stands. -/
theorem bracketedGraySetsNoPv : Obligations.BracketedGraySetsNoPv := by
  intro s t buf hv hmn hruns
  have T : Triple Config.params (·.pv = s.pv) (grayExpansion Config.params buf.toNat s.m s.n)
      (·.pv = s.pv) (·.pv = s.pv) := by
    rw [grayExpansion_elsewhere hmn]
    exact ((bracket_unmarked s.pv 5 1).append (grayPasses_unmarked s.pv buf.toNat)).append
      ((bracket_unmarked s.pv s.m s.n).weaken (fun _ h => h) (fun _ ⟨hu, _⟩ => hu.pv) fun _ h => h)
  obtain ⟨-, ht⟩ | ⟨u, hu, -, rfl⟩ := T.runs (exec_gray_set buf hv) rfl hruns
  · exact ht
  · exact hu

end Sys2Proof.Machine

/-! ## LUT transmission -/

namespace Sys2Proof.Machine

open Sys2Proof.Safety

/-- SendLut sends as many data bytes of a table as the ROM holds of it (45 R241). -/
@[simp] theorem lutBytes_length (P : Config.Params) (v : Variant) (ov : Overrides) (t : Table) :
    (lutBytes P v ov t).length = lutLen t := by
  simp [lutBytes]

/-- The actions of SendLut, table by table (45 R241). -/
theorem lutActions_eq (P : Config.Params) (v : Variant) (ov : Overrides) :
    lutActions P v ov =
      sendActions P.codes.lutVcom (lutBytes P v ov .vcom) ++
      sendActions P.codes.lutWw (lutBytes P v ov .ww) ++
      sendActions P.codes.lutBw (lutBytes P v ov .bw) ++
      sendActions P.codes.lutWb (lutBytes P v ov .wb) ++
      sendActions P.codes.lutBb (lutBytes P v ov .bb) := by
  simp [lutActions, tables, lutCmd]

/-- Settles O41: `runMicros_sendLut` gives the run's end, whose trace is `lutActions` table by
table. -/
theorem sendLutSendsMandatedLengths : Obligations.SendLutSendsMandatedLengths := by
  intro P v ov s
  refine ⟨lutBytes P v ov .vcom, lutBytes P v ov .ww, lutBytes P v ov .bw, lutBytes P v ov .wb,
    lutBytes P v ov .bb, _, lutBytes_length .., lutBytes_length .., lutBytes_length ..,
    lutBytes_length .., lutBytes_length .., runMicros_sendLut v ov s, rfl, ?_⟩
  simp [lutActions_eq]

end Sys2Proof.Machine

/-! ## Faults: a block that has recorded one -/

namespace Sys2Proof.Machine

/-- A block with a recorded fault has stopped: its step answers that fault (60 R254). -/
theorem step_of_fault {s : State} {r : Fault} (hf : s.fault = some r) : step s = .fault r := by
  simp only [step, hf]

/-- Neither the completion of a request nor a hold or a stop of its run touches FAULT. -/
theorem EndsAs.fault {ops : List Micro} {u t : State} (h : EndsAs ops u t) :
    t.fault = u.fault := by
  obtain rfl | ⟨todo, -, rfl⟩ := h <;> rfl

/-- The first reason recorded stays, whatever request is executed (10 R43). -/
theorem exec_keeps_fault {i : Instr} {s t : State} {r : Fault} (h : exec i s = .next t)
    (hf : s.fault = some r) : t.fault = some r := by
  obtain ⟨e, hazard, c, u, -, -, hu, ht⟩ := exec_endsAs h
  have htaken : (takenUp i hazard c s).fault = some r := hf
  exact ht.fault.trans (hu.fault htaken)

/-- Settles O11: the step looks at FAULT first, and every update of a request's run keeps a
recorded reason. -/
theorem faultedBlockStops : Obligations.FaultedBlockStops :=
  ⟨fun _ _ hf => step_of_fault hf, fun _ _ _ _ h hf => exec_keeps_fault h hf⟩

end Sys2Proof.Machine

/-! ## Runs under the fairness premise -/

namespace Sys2Proof.Machine

open Sys2Proof.Safety

/-! ### One WaitBusy with a not-busy answer to come -/

/-- `u` is `s` after its WaitBusy has ended: the panel is idle, the position has moved on, and the
rest of what a completion reads is as it was (40 R134). -/
structure Waited (s u : State) : Prop where
  seq : ∃ n, u.seq = seqAdvance n s.seq
  maybeBusy : u.maybeBusy = false
  fault : u.fault = s.fault
  req : u.req = s.req
  rsp : u.rsp = s.rsp
  reqOk : u.reqOk = s.reqOk

/-- The state WaitBusy leaves once it has been answered not-busy. -/
theorem waited_panelIdle (acts : List Action) (ps : List Bool) (d : Nat) (s : State) :
    Waited s (panelIdle (emit acts { s with pollIn := ps, pollDraws := d })) :=
  ⟨⟨_, rfl⟩, rfl, rfl, rfl, rfl, rfl⟩

/-- What a step leaves held at a WaitBusy after `q` listed busy answers and a busy draw
(`runMicros_wait_unlisted`), with `todo` left of its expansion. -/
def heldAt (q : Nat) (todo : List Micro) (s : State) : State :=
  settle (.held (emit (List.replicate (q + 1) [Action.poll true, .delay 1]).flatten
    { s with pollIn := [], pollDraws := s.pollDraws + 1 }) todo)

/-- A wait that ends from where it was held has ended from where it began. -/
theorem Waited.of_heldAt {q : Nat} {todo : List Micro} {s u : State}
    (h : Waited (heldAt q todo s) u) : Waited s u := by
  obtain ⟨n, hn⟩ := h.seq
  exact ⟨⟨_, hn.trans (seqAdvance_seqAdvance _ n s.seq)⟩,
    h.maybeBusy, h.fault, h.req, h.rsp, h.reqOk⟩

/-- The operation runs as a WaitBusy, plain or guarded, while the last BUSINIT answer is that
of `s`. -/
def ActsAsWait (op : Micro) (s : State) : Prop :=
  ∀ t, t.busOk = s.busOk → runMicro Config.params op t = runMicro Config.params .waitBusy t

/-- An operation that holds is a wait, and still one at the next step: the hold keeps the request's
last BUSINIT answer. -/
theorem actsAsWait_of_hold {op : Micro} {s u : State} (h : runMicro Config.params op s = .hold u) :
    ActsAsWait op u := by
  obtain ⟨-, hwait, hop⟩ := runMicro_hold h
  have hok := runMicro_busOk (P := Config.params) (op := .waitBusy) rfl s
  rw [hwait] at hok
  exact fun t ht => hop t (ht.trans hok)

section
variable {op : Micro} {s : State} {i : Instr} {k q : Nat}

/-- With busy answers alone listed, a wait goes on to the rest once the draw `j` after the next one
is not-busy, by induction on `j`: each busy draw before it holds the request for one step. -/
theorem wait_ends_of_free (j : Nat) (rest : List Micro) (hf : s.fault = none)
    (hs : s.seq = .run i k) (hop : ActsAsWait op s)
    (hlist : s.pollIn = List.replicate q true) (hfree : Config.freeBusy (s.pollDraws + j) = false) :
    ∃ n u, Waited s u ∧ core.run n (settle (runMicros Config.params (op :: rest) s)) =
      .next (settle (runMicros Config.params rest u)) := by
  induction j generalizing s k q with
  | zero =>
    refine ⟨0, _, waited_panelIdle (waitActions q) [] (s.pollDraws + 1) s, ?_⟩
    rw [runMicros_wait_unlisted (hop s rfl) hlist, if_neg (by simpa using hfree)]
    rfl
  | succ j ih =>
    rw [runMicros_wait_unlisted (hop s rfl) hlist]
    split
    · have hseq : (heldAt q (op :: rest) s).seq = .run i _ := congrArg (seqAdvance _) hs
      have hstep := step_of_run (s := heldAt q (op :: rest) s) hf hseq rfl
      obtain ⟨n, u, hu, hrun⟩ := ih (s := heldAt q (op :: rest) s) (q := 0) hf hseq hop rfl
        ((congrArg Config.freeBusy (Nat.add_right_comm s.pollDraws 1 j)).trans hfree)
      exact ⟨n + 1, u, hu.of_heldAt, (core_run_next hstep n).trans hrun⟩
    · exact ⟨0, _, waited_panelIdle (waitActions q) [] (s.pollDraws + 1) s, rfl⟩

/-- A wait with a not-busy answer to come, listed or drawn, goes on to the rest of its expansion
(60 R258). -/
theorem wait_ends_of_fair (rest : List Micro) (hf : s.fault = none) (hs : s.seq = .run i k)
    (hop : ActsAsWait op s) (hfair : Fair s) :
    ∃ n u, Waited s u ∧ core.run n (settle (runMicros Config.params (op :: rest) s)) =
      .next (settle (runMicros Config.params rest u)) := by
  obtain ⟨q, ps, hlist⟩ | ⟨q, hlist⟩ := polls_cases s.pollIn
  · refine ⟨0, _, waited_panelIdle (waitActions q) ps s.pollDraws s, ?_⟩
    rw [runMicros_wait_listed (hop s rfl) hlist]
    rfl
  · have hbusy : false ∉ s.pollIn := by simp [hlist]
    obtain ⟨j, hfree⟩ := hfair.resolve_left hbusy
    exact wait_ends_of_free j rest hf hs hop hlist hfree

end

/-- Settles O21: WAITIDLE is one WaitBusy, which ends under the premise, and then it completes. -/
theorem fairWaitIdleEnds : Obligations.FairWaitIdleEnds := by
  intro s rest hf hs hd hfair
  obtain ⟨n, u, hu, hrun⟩ := wait_ends_of_fair (op := .waitBusy)
    (s := takeUp .waitIdle (consume rest s)) [] hf rfl (fun _ _ => rfl) hfair
  refine ⟨n + 1, complete u, (core_run_next (step_of_legal hf hs hd) n).trans hrun, rfl, hu.req,
    hu.maybeBusy, hu.fault.trans hf, ?_⟩
  rw [complete_rsp, hu.rsp, hu.reqOk]
  rfl

/-! ### Runs that PV or a fault may cut short -/

/-- Some steps lead from `s` to a state with PV set or a fault recorded, or else to one of `q`. -/
def Leads (s : State) (q : State → Prop) : Prop :=
  ∃ k t, core.run k s = .next t ∧ (t.pv = true ∨ t.fault ≠ none ∨ q t)

section
variable {s t : State} {p q : State → Prop} {k : Nat}

theorem Leads.of_self (h : s.pv = true ∨ s.fault ≠ none ∨ q s) : Leads s q := ⟨0, s, rfl, h⟩

theorem Leads.of_run (hrun : core.run k s = .next t) (h : Leads t q) : Leads s q := by
  obtain ⟨n, u, hn, hu⟩ := h
  exact ⟨k + n, u, core_run_add hrun hn, hu⟩

/-- A fair run that leads to `p` leads to all that the fair runs from `p` lead to. -/
theorem Leads.trans (hfair : FairRun s) (h : Leads s p)
    (hp : ∀ t, FairRun t → p t → Leads t q) : Leads s q := by
  obtain ⟨n, t, hrun, hpv | hfault | ht⟩ := h
  · exact ⟨n, t, hrun, .inl hpv⟩
  · exact ⟨n, t, hrun, .inr (.inl hfault)⟩
  · exact .of_run hrun (hp t (fairRun_run hfair hrun) ht)

end

/-- The block is IDLE without a fault, with `rest` on REQ and `n` statuses returned. -/
structure Answered (rest : List Word) (n : Nat) (t : State) : Prop where
  seq : t.seq = .idle
  fault : t.fault = none
  req : t.req = rest
  rsp : t.rsp.length = n

/-- A completion has answered the request, unless a fault was recorded before. -/
theorem leads_complete (s : State) :
    Leads (complete s) (Answered s.req (s.rsp.length + 1)) := by
  refine .of_self (.inr ?_)
  by_cases hf : s.fault = none
  · exact .inr ⟨rfl, hf, rfl, by simp⟩
  · exact .inl hf

/-- A request held at a wait with a not-busy answer to come goes on to the rest of its expansion. -/
theorem hold_ends_of_fair {op : Micro} {rest : List Micro} {s u : State} {i : Instr} {k : Nat}
    (hop : runMicro Config.params op s = .hold u) (hf : u.fault = none) (hu : u.seq = .run i k)
    (hfair : Fair (settle (.held u (op :: rest)))) :
    ∃ n v, Waited u v ∧ core.run n (settle (.held u (op :: rest))) =
      .next (settle (runMicros Config.params rest v)) := by
  have hwait : ActsAsWait op u := actsAsWait_of_hold hop
  obtain ⟨n, v, hv, hrun⟩ := wait_ends_of_fair (s := settle (.held u (op :: rest))) rest hf hu
    hwait hfair
  exact ⟨n + 1, v, ⟨hv.seq, hv.maybeBusy, hv.fault, hv.req, hv.rsp, hv.reqOk⟩,
    (core_run_next (step_of_run (s := settle (.held u (op :: rest))) hf hu rfl) n).trans hrun⟩

/-- A fair run of an expansion ends: each WaitBusy it holds at has a not-busy answer to come, as
long as PV = 0, and then it goes on with the operations after it. -/
theorem expansion_leads (ops : List Micro) {s : State} {i : Instr} {k : Nat}
    (hs : s.seq = .run i k) (hfair : FairRun (settle (runMicros Config.params ops s))) :
    Leads (settle (runMicros Config.params ops s)) (Answered s.req (s.rsp.length + 1)) := by
  induction ops generalizing s k with
  | nil => exact leads_complete s
  | cons op rest ih =>
    have hupdates := runMicro_updates Config.params op s
    obtain ⟨acts, -, hseq⟩ := hupdates.emitted
    rw [hs, seqAdvance_run] at hseq
    have hreq := hupdates.untouched.req
    have hrsp := hupdates.untouched.rsp
    cases hop : runMicro Config.params op s with
    | go u =>
      rw [hop, microState_go] at hseq hreq hrsp
      rw [runMicros_cons_go hop] at hfair ⊢
      exact hreq ▸ hrsp ▸ ih hseq hfair
    | stop u =>
      rw [runMicros_cons_stop hop]
      have hfault : u.fault ≠ none := runMicro_stop hop
      exact .of_self (.inr (.inl hfault))
    | hold u =>
      rw [hop, microState_hold] at hseq hreq hrsp
      rw [runMicros_cons_hold hop] at hfair ⊢
      by_cases hcut : u.pv = true ∨ u.fault ≠ none
      · exact .of_self (hcut.imp_right .inl)
      obtain ⟨hpv, hf⟩ : u.pv = false ∧ u.fault = none := by simpa using hcut
      have hwait : atWait (settle (.held u (op :: rest))) :=
        ⟨by simp [settle, hseq], (runMicro_hold hop).1⟩
      obtain ⟨n, v, hv, hrun⟩ := hold_ends_of_fair hop hf hseq (hfair 0 _ rfl hwait hpv)
      obtain ⟨m, hm⟩ := hv.seq
      rw [hseq, seqAdvance_run] at hm
      rw [← hreq, ← hrsp, ← hv.req, ← hv.rsp]
      exact .of_run hrun (ih hm (fairRun_run hfair hrun))

/-! ### One request, and then all of them -/

/-- A fair run takes up the legal request at the head of REQ and answers it. -/
theorem request_leads {s : State} {i : Instr} {rest : List Word} (hf : s.fault = none)
    (hs : s.seq = .idle) (hd : decode s.req = .legal i rest) (hfair : FairRun s) :
    Leads s (Answered rest (s.rsp.length + 1)) := by
  have hstep := step_of_legal hf hs hd
  obtain ⟨e, hazard, c, -, -, -, hx⟩ | ⟨buf, -, -, hx⟩ := exec_cases i (consume rest s)
  · have hstep := hstep.trans hx
    exact .of_run (core_run_next hstep 0)
      (expansion_leads e (s := takenUp i hazard c (consume rest s)) rfl (fairRun_next hfair hstep))
  · exact .of_run (core_run_next (hstep.trans hx) 0)
      (.of_self (.inr (.inl (recordFault_ne _ _))))

/-- Words of an illegal request are consumed (30 R107). -/
theorem length_lt_of_illegal {ws rest : List Word} {h : Word} {why : Illegal}
    (hd : decode ws = .illegal h why rest) : rest.length < ws.length := by
  cases ws with
  | nil => simp [decode] at hd
  | cons w ext =>
    by_cases hlen : ext.length + 1 < requestLength (opcOf w)
    · simp [decode_of_short hlen] at hd
    have hlen := Nat.not_lt.1 hlen
    cases hc : checkHeader w with
    | ok op => simp [decode_of_ok hlen hc] at hd
    | error why =>
      rw [decode_of_error hlen hc] at hd
      injection hd with _ _ hrest
      have hpos := requestLength_pos (opcOf w)
      rw [← hrest, List.length_drop, List.length_cons]
      omega

/-- Words of a legal request are consumed (30 R103). -/
theorem length_lt_of_legal {ws rest : List Word} {i : Instr}
    (hd : decode ws = .legal i rest) : rest.length < ws.length := by
  simp [encode_of_decode hd, encode]

/-- A fair run works through REQ until the block waits for words, by induction on the number of
words: each request takes some of them. -/
theorem requests_lead (n : Nat) {s : State} (hn : s.req.length < n) (hf : s.fault = none)
    (hs : s.seq = .idle) (hfair : FairRun s) :
    Leads s fun t => t.seq = .idle ∧ decode t.req = .wait := by
  induction n generalizing s with
  | zero => omega
  | succ n ih =>
    cases hd : decode s.req with
    | wait => exact .of_self (.inr (.inr ⟨hs, hd⟩))
    | illegal h why rest =>
      have hstep := step_of_illegal hf hs hd
      have hless := length_lt_of_illegal hd
      exact .of_run (core_run_next hstep 0)
        (ih (show rest.length < n by omega) hf hs (fairRun_next hfair hstep))
    | legal i rest =>
      have hless := length_lt_of_legal hd
      refine .trans hfair (request_leads hf hs hd hfair) fun t htfair ht => ?_
      exact ih (ht.req ▸ (by omega)) ht.fault ht.seq htfair

/-- A fair run of a request list answers every request (70 R296). -/
theorem requestList_leads (is : List Instr) {s : State} (hf : s.fault = none) (hs : s.seq = .idle)
    (hreq : s.req = is.flatMap encode) (hfair : FairRun s) :
    Leads s (Ended (s.rsp.length + is.length)) := by
  induction is generalizing s with
  | nil => exact .of_self (.inr (.inr ⟨hreq, hs, rfl, hf⟩))
  | cons i is ih =>
    have hd : decode s.req = .legal i (is.flatMap encode) := hreq ▸ decode_encode i _
    refine .trans hfair (request_leads hf hs hd hfair) fun t htfair ht => ?_
    have hcount : t.rsp.length + is.length = s.rsp.length + (i :: is).length := by
      rw [ht.rsp, List.length_cons]
      omega
    exact hcount ▸ ih ht.fault ht.seq ht.req htfair

/-- Settles O22: a fair run works through the words on REQ, and answers each request of a list. -/
theorem fairRunEnds : Obligations.FairRunEnds :=
  ⟨fun s hf hs hfair => requests_lead (s.req.length + 1) (Nat.lt_succ_self _) hf hs hfair,
    fun _ is hf hs hreq hfair => requestList_leads is hf hs hreq hfair⟩

end Sys2Proof.Machine
